-- ==== Sys2Proof/Word.lean ====
section
/-! DEFINITION. The word types: the byte that every access of the block moves (R8, R37) and the 16-bit quantity that
exists only as two payload bytes (R37, R57). -/

namespace Sys2Proof

/-- A byte: 8 bits, bit 7 the most significant (R7). -/
abbrev Byte := BitVec 8

/-- A 16-bit quantity of a payload: it goes over the bus as two bytes (R35, R57). -/
abbrev Half := BitVec 16

end Sys2Proof
end

