-- ==== Sys2Proof/Config.lean ====
section
/-! DEFINITION. What is fixed for one machine: the open parameters of R6 as a structure of plain data (the state holds one,
so that statements quantify over all of them), the constraints R6 and R116 put on them, and the free values: constants
without a body for what the spec leaves to the environment (R82, R83, D28) or leaves unwritten (R29, U7). -/

namespace Sys2Proof

/-- The electrical level of a line (R20, R147). -/
inductive Level where
  | low
  | high
deriving DecidableEq, Repr

/-- A value of "the underlying transport's error type" (R134): the block neither inspects nor changes it, and the type is
a parameter of the model, here the natural numbers (notes/assumptions/9.md). -/
abbrev TransportErr := Nat

/-- The open parameters of R6 (list at the end of 92_eei_decisions.md). Each field is named after the parameter.
The canvas sizes `W_DIRECT` … `H_ROT` follow from `rowBytes` and `rows` (D2). -/
structure Config where
  /-- `ROW_BYTES`: bytes per native row (D1). -/
  rowBytes : Nat
  /-- `ROWS`: native rows (D1). -/
  rows : Nat
  /-- `LUT_FULL` (R116, D5). -/
  lutFull : List Byte
  /-- `DRV_OUT_FLAGS` (R94, D6). -/
  drvOutFlags : Byte
  /-- `BOOSTER`, its three bytes in bus order (R95, D6). -/
  booster : Byte × Byte × Byte
  /-- `VCOM` (R100, D6). -/
  vcom : Byte
  /-- `DUMMY_LINE` (R102, D6). -/
  dummyLine : Byte
  /-- `GATE_WIDTH` (R103, D6). -/
  gateWidth : Byte
  /-- `ENTRY_MODE` (R96, D6). -/
  entryMode : Byte
  /-- `CS_ACTIVE` (D4). -/
  csActive : Level
  /-- `DC_COMMAND` (D4). -/
  dcCommand : Level
  /-- `DC_DATA` (D4). -/
  dcData : Level
  /-- `BUSY_ACTIVE` (D4). -/
  busyActive : Level
  /-- `RESET_LOW_MS` (R123, D15). -/
  resetLowMs : Nat
  /-- `RESET_WAIT_MS` (R123, D15). -/
  resetWaitMs : Nat
  /-- `BUSY_BOUND` (R89, D16). -/
  busyBound : Option Nat
  /-- `RESET_CLEARS_INITIALIZED` (R122, D13). -/
  resetClearsInitialized : Bool
deriving DecidableEq, Repr

/-- `FB_BYTES`: the size of the packed bitmap (R6, R23). -/
abbrev fbBytes : Nat := 4736

/-- `LUT_LEN`: the length of each waveform table (R6, R24). -/
abbrev lutLen : Nat := 30

/-- What every full-refresh table must keep (R116): 30 bytes, `50 AA 55 AA 11` first, one run `FF FF 1F`, the rest 00. -/
def Config.lutFullForm (t : List Byte) : Bool :=
  (List.range 23).any fun n =>
    t == [0x50#8, 0xAA#8, 0x55#8, 0xAA#8, 0x11#8] ++ List.replicate n 0x00#8 ++ [0xFF#8, 0xFF#8, 0x1F#8]
      ++ List.replicate (22 - n) 0x00#8

/-- "The constraints that hold whatever values the open parameters take" (R6), those of R116 on `LUT_FULL`, and the
positive `BUSY_BOUND` of R89. DESIGN CHOICE (notes/assumptions/21.md): `RESET_LOW_MS` and `RESET_WAIT_MS` may be any number,
0 too, since R6's constraints say nothing of them, although the source asks for at least 1 ms each (R123); nor
does it constrain the levels of D4. -/
def Config.valid (c : Config) : Bool :=
  c.rowBytes * c.rows == fbBytes
    && ((8 * c.rowBytes == 128 && c.rows == 296) || (8 * c.rowBytes == 296 && c.rows == 128))
    && Config.lutFullForm c.lutFull
    && c.busyBound != some 0

/-- FREE VALUE: the answer of the environment to busy poll number `n`, where the state's `busyIn` promises none (R82: "A
model takes each answer as a free input"; D28). -/
opaque Config.freeBusy : Nat → Bool

/-- FREE VALUE: the result of bus byte number `n` (`none` is `ok`, `some e` is `err(e)`), where the state's `busIn`
promises none (R83: "a model takes the result of each call as a free input"; D28). -/
opaque Config.freeBus : Nat → Option TransportErr

/-- FREE VALUE: what a read of `partialMode` would give while it is unwritten (R29; no run reaches such a read). -/
opaque Config.unwrittenPartialMode : Bool

/-- FREE VALUE: what a read of `initialized` would give while it is unwritten (R29; no run reaches such a read). -/
opaque Config.unwrittenInitialized : Bool

/-- FREE VALUE: what a read of `saved` would give outside CLEAR, where it has no value (R27; no run reaches such a read). -/
opaque Config.unwrittenSaved : Bool

end Sys2Proof
end

