-- ==== Sys2Proof/Syntax.lean ====
section
/-! DEFINITION. The syntax: the request port's word, the command frame, and `Instr`, one constructor per row of
spec/opcode_table.json (15 commands of format CMD8, 11 host operations of format HOST4). -/

namespace Sys2Proof

/-- The orientation variant of a FrameBuffer (R69): exactly two exist (D25). -/
inductive Orientation where
  | direct
  | rotatedLeft
deriving DecidableEq, Repr

/-- One request on the host port (R56): the 4-bit operation code and the operand lanes. The spec gives the operands no
binary encoding, so each lane carries its mathematical value (D3), an operation reads the lanes its row of R56 names and
ignores the others (notes/assumptions/2.md). -/
structure Request where
  /-- The 4-bit operation code. -/
  code : BitVec 4
  /-- Which FrameBuffer: the number FB_NEW answered (R23, R65). -/
  fb : Nat
  /-- The variant asked of FB_NEW. -/
  orient : Orientation
  /-- FB_DRAW_PIXEL's `x` (type `COORD`, D3). -/
  x : Int
  /-- FB_DRAW_PIXEL's `y`. -/
  y : Int
  /-- FB_DRAW_PIXEL's `color` (R59). -/
  color : Int
deriving DecidableEq, Repr

/-- An instruction as it is encoded: a command is the bytes of its frame, opcode first (R51, R64); a host operation is a
request on the host port (R56). The two are different ports with different codes (R34). -/
inductive Code where
  | frame (bytes : List Byte)
  | request (r : Request)
deriving DecidableEq, Repr

/-- The instructions. A command's operands are the payload fields of R53; a host operation's are those of R56. -/
inductive Instr where
  /-- 0x01 Driver output control: height-1, GD/SM/TB flags (R94). -/
  | driverOutputControl (heightMinus1 : Half) (flags : Byte)
  /-- 0x0C Booster soft-start control: phase timings (R95). -/
  | boosterSoftStart (phase1 phase2 phase3 : Byte)
  /-- 0x11 Data entry mode (R96). -/
  | dataEntryMode (mode : Byte)
  /-- 0x20 Master activation (R97). -/
  | masterActivation
  /-- 0x22 Display update control 2: the sequence selector (R98). -/
  | displayUpdateControl2 (selector : Byte)
  /-- 0x24 Write RAM: the packed bitmap (R99). -/
  | writeRam (bitmap : List Byte)
  /-- 0x2C VCOM voltage (R100). -/
  | writeVcom (voltage : Byte)
  /-- 0x32 Write LUT register: the waveform table (R101). -/
  | writeLut (table : List Byte)
  /-- 0x3A Dummy line period (R102). -/
  | dummyLinePeriod (period : Byte)
  /-- 0x3B Gate line width (R103). -/
  | gateLineWidth (width : Byte)
  /-- 0x44 Set RAM X address window: start, end, in 8-pixel units (R104). -/
  | setRamXWindow (first last : Byte)
  /-- 0x45 Set RAM Y address window: start, end (R105). -/
  | setRamYWindow (first last : Half)
  /-- 0x4E Set RAM X address counter, in 8-pixel units (R106). -/
  | setRamXCounter (column : Byte)
  /-- 0x4F Set RAM Y address counter (R107). -/
  | setRamYCounter (row : Half)
  /-- 0xFF Terminator (R108). -/
  | terminator
  /-- Host code 0x0 (R121). -/
  | new
  /-- Host code 0x1 (R122). -/
  | reset
  /-- Host code 0x2 (R124). -/
  | setPartial
  /-- Host code 0x3 (R125). -/
  | setFull
  /-- Host code 0x4 (R126). -/
  | clear
  /-- Host code 0x5: SET_DISPLAY fb (R127). -/
  | setDisplay (fb : Nat)
  /-- Host code 0x6 (R128). -/
  | update
  /-- Host code 0x7 (R129). -/
  | powerOff
  /-- Host code 0x8: FB_NEW orient (R70). -/
  | fbNew (orient : Orientation)
  /-- Host code 0x9: FB_DRAW_PIXEL x y color on FrameBuffer `fb` (R75). -/
  | fbDrawPixel (fb : Nat) (x y color : Int)
  /-- Host code 0xA: FB_GET_BUFFER of FrameBuffer `fb` (R77). -/
  | fbGetBuffer (fb : Nat)
deriving DecidableEq, Repr

end Sys2Proof
end

