-- ==== Sys2Proof/WellFormed.lean ====
section
/-! DEFINITION. Which instructions are well formed: the payload lengths of R53 and the selector values of R68. -/

namespace Sys2Proof

/-- Well-formedness of an instruction. A bitmap has 4736 bytes (R53, R99), a waveform table 30 (R53, R101), and the
selector of command 0x22 is `C3` or `C4` (R63, R68: "the only ones defined"). Every other operand is well formed. -/
def Instr.wellFormed : Instr → Bool
  | .driverOutputControl _ _ => true
  | .boosterSoftStart _ _ _ => true
  | .dataEntryMode _ => true
  | .masterActivation => true
  | .displayUpdateControl2 selector => selector == 0xC3#8 || selector == 0xC4#8
  | .writeRam bitmap => bitmap.length == fbBytes
  | .writeVcom _ => true
  | .writeLut table => table.length == lutLen
  | .dummyLinePeriod _ => true
  | .gateLineWidth _ => true
  | .setRamXWindow _ _ => true
  | .setRamYWindow _ _ => true
  | .setRamXCounter _ => true
  | .setRamYCounter _ => true
  | .terminator => true
  | .new => true
  | .reset => true
  | .setPartial => true
  | .setFull => true
  | .clear => true
  | .setDisplay _ => true
  | .update => true
  | .powerOff => true
  | .fbNew _ => true
  | .fbDrawPixel _ _ _ _ => true
  | .fbGetBuffer _ => true

end Sys2Proof
end

