-- ==== Sys2Proof/Decode.lean ====
section
/-! DEFINITION. The decoder of command frames (R51 to R53, R60, R64) and of host requests (R56, R62), the encoder, and the
form in which spec/opcode_table.json numbers an instruction's bits. -/

namespace Sys2Proof

/-- `lo8(v) = v mod 256` (R7). -/
def lo8 (v : Half) : Byte := v.extractLsb' 0 8

/-- `hi8(v) = (v / 256) mod 256` (R7). -/
def hi8 (v : Half) : Byte := v.extractLsb' 8 8

/-- The 16-bit value whose low byte stands first in a payload (R35). -/
def ofLoHi (lo hi : Byte) : Half := hi ++ lo

/-- Why an encoding is rejected. -/
inductive DecodeError where
  /-- A frame holds an opcode byte (R51). -/
  | emptyFrame
  /-- One of "the 241 byte values not in rule R60" (R61). -/
  | unknownOpcode (op : Byte)
  /-- "The length of the payload is fixed by the opcode, except for 0x24" (R53). -/
  | badPayloadLength (op : Byte) (length : Nat)
  /-- "Host operation codes `0xB` to `0xF` are reserved" (R62). -/
  | reservedCode (code : BitVec 4)
deriving DecidableEq, Repr

/-- The payload length of each of the fifteen opcodes (R53, R60); `none` for a byte that is no opcode. -/
def payloadLength (op : Byte) : Option Nat :=
  if op = 0x01#8 then some 3
  else if op = 0x0C#8 then some 3
  else if op = 0x11#8 then some 1
  else if op = 0x20#8 then some 0
  else if op = 0x22#8 then some 1
  else if op = 0x24#8 then some fbBytes
  else if op = 0x2C#8 then some 1
  else if op = 0x32#8 then some lutLen
  else if op = 0x3A#8 then some 1
  else if op = 0x3B#8 then some 1
  else if op = 0x44#8 then some 2
  else if op = 0x45#8 then some 4
  else if op = 0x4E#8 then some 1
  else if op = 0x4F#8 then some 2
  else if op = 0xFF#8 then some 0
  else none

/-- A payload of no bytes, of one, two, three or four bytes, read into an instruction. -/
def payload0 (op : Byte) (payload : List Byte) (i : Instr) : Except DecodeError Instr :=
  match payload with
  | [] => .ok i
  | _ => .error (.badPayloadLength op payload.length)

@[inherit_doc payload0]
def payload1 (op : Byte) (payload : List Byte) (i : Byte → Instr) : Except DecodeError Instr :=
  match payload with
  | [a] => .ok (i a)
  | _ => .error (.badPayloadLength op payload.length)

@[inherit_doc payload0]
def payload2 (op : Byte) (payload : List Byte) (i : Byte → Byte → Instr) : Except DecodeError Instr :=
  match payload with
  | [a, b] => .ok (i a b)
  | _ => .error (.badPayloadLength op payload.length)

@[inherit_doc payload0]
def payload3 (op : Byte) (payload : List Byte) (i : Byte → Byte → Byte → Instr) : Except DecodeError Instr :=
  match payload with
  | [a, b, c] => .ok (i a b c)
  | _ => .error (.badPayloadLength op payload.length)

@[inherit_doc payload0]
def payload4 (op : Byte) (payload : List Byte) (i : Byte → Byte → Byte → Byte → Instr) : Except DecodeError Instr :=
  match payload with
  | [a, b, c, d] => .ok (i a b c d)
  | _ => .error (.badPayloadLength op payload.length)

/-- Read a payload behind its opcode, by the layout of R53. The length is fixed by the opcode, except for 0x24, "where it
is the length of the bitmap". -/
def decodePayload (op : Byte) (payload : List Byte) : Except DecodeError Instr :=
  if op = 0x01#8 then payload3 op payload fun lo hi flags => .driverOutputControl (ofLoHi lo hi) flags
  else if op = 0x0C#8 then payload3 op payload .boosterSoftStart
  else if op = 0x11#8 then payload1 op payload .dataEntryMode
  else if op = 0x20#8 then payload0 op payload .masterActivation
  else if op = 0x22#8 then payload1 op payload .displayUpdateControl2
  else if op = 0x24#8 then .ok (.writeRam payload)
  else if op = 0x2C#8 then payload1 op payload .writeVcom
  else if op = 0x32#8 then
    if payload.length = lutLen then .ok (.writeLut payload) else .error (.badPayloadLength op payload.length)
  else if op = 0x3A#8 then payload1 op payload .dummyLinePeriod
  else if op = 0x3B#8 then payload1 op payload .gateLineWidth
  else if op = 0x44#8 then payload2 op payload .setRamXWindow
  else if op = 0x45#8 then
    payload4 op payload fun lo hi lo' hi' => .setRamYWindow (ofLoHi lo hi) (ofLoHi lo' hi')
  else if op = 0x4E#8 then payload1 op payload .setRamXCounter
  else if op = 0x4F#8 then payload2 op payload fun lo hi => .setRamYCounter (ofLoHi lo hi)
  else if op = 0xFF#8 then payload0 op payload .terminator
  else .error (.unknownOpcode op)

/-- Read a frame's bytes, opcode first (R51, R52); the payload's end is the frame's end (R64). -/
def decodeFrame (bytes : List Byte) : Except DecodeError Instr :=
  match bytes with
  | [] => .error .emptyFrame
  | op :: payload => decodePayload op payload

/-- Read a request: the operation code names the operation, which takes its operands from its lanes (R56). -/
def decodeRequest (r : Request) : Except DecodeError Instr :=
  match r.code.toNat with
  | 0x0 => .ok .new
  | 0x1 => .ok .reset
  | 0x2 => .ok .setPartial
  | 0x3 => .ok .setFull
  | 0x4 => .ok .clear
  | 0x5 => .ok (.setDisplay r.fb)
  | 0x6 => .ok .update
  | 0x7 => .ok .powerOff
  | 0x8 => .ok (.fbNew r.orient)
  | 0x9 => .ok (.fbDrawPixel r.fb r.x r.y r.color)
  | 0xA => .ok (.fbGetBuffer r.fb)
  | _ => .error (.reservedCode r.code)

/-- Decode an instruction from either port. -/
def decode : Code → Except DecodeError Instr
  | .frame bytes => decodeFrame bytes
  | .request r => decodeRequest r

/-- A request with the given code whose operand lanes all hold zero. -/
def plainRequest (code : BitVec 4) : Request :=
  { code, fb := 0, orient := .direct, x := 0, y := 0, color := 0 }

/-- The encoder: a command is its frame's bytes by the layout of R53; a host operation is a request by the table of R56,
its unused lanes at zero. -/
def encode : Instr → Code
  | .driverOutputControl h flags => .frame [0x01#8, lo8 h, hi8 h, flags]
  | .boosterSoftStart p1 p2 p3 => .frame [0x0C#8, p1, p2, p3]
  | .dataEntryMode mode => .frame [0x11#8, mode]
  | .masterActivation => .frame [0x20#8]
  | .displayUpdateControl2 selector => .frame [0x22#8, selector]
  | .writeRam bitmap => .frame (0x24#8 :: bitmap)
  | .writeVcom voltage => .frame [0x2C#8, voltage]
  | .writeLut table => .frame (0x32#8 :: table)
  | .dummyLinePeriod period => .frame [0x3A#8, period]
  | .gateLineWidth width => .frame [0x3B#8, width]
  | .setRamXWindow first last => .frame [0x44#8, first, last]
  | .setRamYWindow first last => .frame [0x45#8, lo8 first, hi8 first, lo8 last, hi8 last]
  | .setRamXCounter column => .frame [0x4E#8, column]
  | .setRamYCounter row => .frame [0x4F#8, lo8 row, hi8 row]
  | .terminator => .frame [0xFF#8]
  | .new => .request (plainRequest 0x0#4)
  | .reset => .request (plainRequest 0x1#4)
  | .setPartial => .request (plainRequest 0x2#4)
  | .setFull => .request (plainRequest 0x3#4)
  | .clear => .request (plainRequest 0x4#4)
  | .setDisplay fb => .request { plainRequest 0x5#4 with fb := fb }
  | .update => .request (plainRequest 0x6#4)
  | .powerOff => .request (plainRequest 0x7#4)
  | .fbNew orient => .request { plainRequest 0x8#4 with orient := orient }
  | .fbDrawPixel fb x y color => .request { plainRequest 0x9#4 with fb := fb, x := x, y := y, color := color }
  | .fbGetBuffer fb => .request { plainRequest 0xA#4 with fb := fb }

/-- The bytes a command puts on the bus, opcode first; a host operation has no frame of its own. -/
def frameBytes (i : Instr) : List Byte :=
  match encode i with
  | .frame bytes => bytes
  | .request _ => []

/-- The first `n` bytes of the number `w`, least significant first. -/
def bytesOfNat : Nat → Nat → List Byte
  | 0, _ => []
  | n + 1, w => BitVec.ofNat 8 w :: bytesOfNat n (w / 256)

/-- The instruction whose bits, as spec/opcode_table.json numbers them, are `w`. A row of format CMD8 is a frame: its first
byte is the opcode, its payload the further bytes of `w` and then zeros up to the opcode's payload length. A row of format
HOST4 is a request: `w` is the 4-bit code, and its operand lanes are zero. A number below 16 that is also an opcode (0x01
and 0x0C, given eight bits) is read as the opcode (notes/assumptions/10.md). -/
def tableCode (nbits w : Nat) : Code :=
  let op : Byte := BitVec.ofNat 8 w
  if nbits ≤ 4 then .request (plainRequest (BitVec.ofNat 4 w))
  else
    match payloadLength op with
    | some n =>
      let given := (bytesOfNat (nbits / 8 - 1) (w / 256)).take n
      .frame (op :: given ++ List.replicate (n - given.length) 0x00#8)
    | none => if w < 16 then .request (plainRequest (BitVec.ofNat 4 w)) else .frame [op]

/-- What the decoder reads from the instruction whose bits are `w`, numbered as the opcode table numbers them. -/
def decodeTableWord (nbits w : Nat) : Option Instr :=
  match decode (tableCode nbits w) with
  | .ok i => some i
  | .error _ => none

end Sys2Proof
end

