-- ==== Sys2Proof/Machine/Params.lean ====
section
/-! DEFINITION. The constants the spec states: the waveform tables (R115, R116), the opcodes (R60), the two selector values
(R68), and the default of every open parameter (R6). -/

namespace Sys2Proof.Machine

/-- `LUT_PARTIAL` (R115): `10 18 18 08 18 18 08 00×13 13 14 44 12 00×6`. -/
def lutPartial : List Byte :=
  [0x10#8, 0x18#8, 0x18#8, 0x08#8, 0x18#8, 0x18#8, 0x08#8] ++ List.replicate 13 0x00#8
    ++ [0x13#8, 0x14#8, 0x44#8, 0x12#8] ++ List.replicate 6 0x00#8

/-- The default of `LUT_FULL` (R116, D5): `50 AA 55 AA 11 00×15 FF FF 1F 00×7`. -/
def lutFullDefault : List Byte :=
  [0x50#8, 0xAA#8, 0x55#8, 0xAA#8, 0x11#8] ++ List.replicate 15 0x00#8 ++ [0xFF#8, 0xFF#8, 0x1F#8]
    ++ List.replicate 7 0x00#8

/-- Selector value of command 0x22: "`0xC3` = power sequence" (R68). -/
def selectPower : Byte := 0xC3#8

/-- Selector value of command 0x22: "`0xC4` = refresh sequence" (R68). -/
def selectRefresh : Byte := 0xC4#8

/-- A byte of eight background pixels (R54): what FB_NEW writes and CLEAR streams. -/
abbrev blankByte : Byte := 0xFF#8

/-- The parameters at the values of R6's table. -/
def defaultConfig : Config where
  rowBytes := 16
  rows := 296
  lutFull := lutFullDefault
  drvOutFlags := 0x00#8
  booster := (0xD7#8, 0xD6#8, 0x9D#8)
  vcom := 0xA8#8
  dummyLine := 0x1A#8
  gateWidth := 0x08#8
  entryMode := 0x03#8
  csActive := .low
  dcCommand := .low
  dcData := .high
  busyActive := .high
  resetLowMs := 1
  resetWaitMs := 1
  busyBound := none
  resetClearsInitialized := true

end Sys2Proof.Machine
end

