-- ==== Sys2Proof/Machine/State.lean ====
section
/-! DEFINITION. The state: every element of R15, the parameters of R6, and the ports of R147 as plain data; the faults and
refusals; the state at block power-on (R29, R153). -/

namespace Sys2Proof.Machine

/-- An element that R29 calls "unwritten" until something drives it: "the element holds no value and a model must not give
it one". -/
inductive Latch (α : Type) where
  | unwritten
  | holds (value : α)
deriving DecidableEq, Repr

/-- A level of the chip-select line (R20). -/
inductive CsLevel where
  | act
  | inact
deriving DecidableEq, Repr

/-- A level of the data/command-select line (R20). -/
inductive DcLevel where
  | cmd
  | data
deriving DecidableEq, Repr

/-- One event of the trace (R10). -/
inductive Event where
  /-- `CS=act`, `CS=inact`. -/
  | cs (level : CsLevel)
  /-- `DC=cmd`, `DC=data`. -/
  | dc (level : DcLevel)
  /-- `RST=low`, `RST=high`. -/
  | rst (level : Level)
  /-- `BUSY?=1` (`true`), `BUSY?=0` (`false`). -/
  | busy (answer : Bool)
  /-- `TX(b)`. -/
  | tx (byte : Byte)
  /-- `TX(b)!e`. -/
  | txFailed (byte : Byte) (e : TransportErr)
  /-- `DELAY(n)`. -/
  | delay (ms : Nat)
deriving DecidableEq, Repr

/-- The block's exceptions. -/
inductive Error where
  /-- `TransportError(e)` (R134). -/
  | transport (e : TransportErr)
  /-- `DeviceNotResponding`, which exists only under `BUSY_BOUND` (R89, R134). -/
  | deviceNotResponding
deriving DecidableEq, Repr

/-- What the response port carries (R56). -/
inductive Response where
  /-- `Ok`. -/
  | ok
  /-- `Err(e)` (R139). -/
  | err (e : Error)
  /-- FB_NEW's result, a FrameBuffer: its number (notes/assumptions/2.md). -/
  | frameBuffer (fb : Nat)
  /-- FB_DRAW_PIXEL ended; it returns nothing (R75). -/
  | nothing
  /-- FB_GET_BUFFER's result (R77). -/
  | bytes (buffer : List Byte)
deriving DecidableEq, Repr

/-- A micro-operation (R8, R9). `poll n` is the busy poll of a busy-wait that has had `n` busy answers. -/
inductive Micro where
  | cs (level : CsLevel)
  | dc (level : DcLevel)
  | rst (level : Level)
  | poll (busyAnswers : Nat)
  | tx (byte : Byte)
  | delay (ms : Nat)
deriving DecidableEq, Repr

/-- One item of what a running operation has still to do: a frame, some micro-operations, or one line of an operation's
pseudocode that reads or writes flags. -/
inductive Task where
  /-- A command frame: `CMD`, `CMD_DATA` (R86, R87), as its bytes, opcode first. -/
  | frame (bytes : List Byte)
  /-- Micro-operations in a row: the reset pulse (R123), or the rest of a frame whose poll was answered busy (R85). -/
  | micros (ms : List Micro)
  /-- Frame 11 of INIT, built when it is reached (R101, R113). -/
  | lutFrame
  /-- `INIT` (R110). -/
  | init
  /-- `ENSURE_INIT` (R111). -/
  | ensureInit
  /-- Line 14 of INIT: `initialized <- true` (R112). -/
  | markInitialized
  /-- POWER_OFF's `initialized <- false` (R129). -/
  | markUninitialized
  /-- RESET's `if RESET_CLEARS_INITIALIZED: initialized <- false` (R122). -/
  | resetFlag
  /-- NEW's three flag writes (R121). -/
  | construct
  /-- `SET_PARTIAL`'s flag writes (R124). -/
  | setPartial
  /-- `SET_FULL`'s flag writes (R125). -/
  | setFull
  /-- CLEAR's `saved <- partialMode` (R126). -/
  | saveMode
  /-- CLEAR's `if saved = true: SET_PARTIAL` (R126). -/
  | restoreMode
deriving DecidableEq, Repr

/-- The sequencer position (R22): `Idle`, or `Run(op, k)` with what is left of the expansion of `op`, first to last
(notes/assumptions/4.md). -/
inductive Seq where
  | idle
  | run (op : Instr) (k : Nat) (todo : List Task)
deriving DecidableEq, Repr

/-- A framebuffer space: (address, byte) pairs, addresses strictly rising, no entry for a byte that holds `0xFF`, which is
what an unlisted address reads as (R31, R70). -/
abbrev Memory := List Host.Cell

/-- A FrameBuffer: `orient` and `FB` (R23). -/
structure FrameBuffer where
  orient : Orientation
  mem : Memory
deriving DecidableEq, Repr

/-- What the environment will answer to one kind of question: `first`, then `thereafter` for ever; where `thereafter` is
`none` nothing is promised and each answer is a free value (R82, R83, D28; notes/assumptions/7.md). -/
structure Answers (α : Type) where
  first : List α
  thereafter : Option α
deriving DecidableEq, Repr

/-- Why the machine stops. -/
inductive Fault where
  /-- FB_DRAW_PIXEL formed an FB address outside `0..4735`, for which `MemRead` and `MemWrite` are not defined (R31).
  Safe; no configuration that meets R6 reaches it. -/
  | outsideFramebuffer (address : Nat)
deriving DecidableEq, Repr

/-- Why a step gives no meaning. -/
inductive Refusal where
  /-- An instruction of the opcode table without a meaning yet, by its mnemonic. Safe. -/
  | notModelled (mnemonic : String)
  /-- Raised by the step when the frame at the sequencer is none of the fifteen commands: "has found a bug in the model of
  the block" (R61). Safe; no host operation puts such a frame there. -/
  | unknownCommand (bytes : List Byte)
deriving DecidableEq, Repr

/-- The state. -/
structure State where
  /-- The parameters of R6: nothing writes them. -/
  cfg : Config
  /-- `partialMode` (R16). -/
  partialMode : Latch Bool
  /-- `initialized` (R17). -/
  initialized : Latch Bool
  /-- `constructed` (R28). -/
  constructed : Bool
  /-- `saved`, live only inside CLEAR (R27). -/
  saved : Latch Bool
  /-- The chip-select output latch (R20). -/
  cs : Latch CsLevel
  /-- The data/command-select output latch (R20). -/
  dc : Latch DcLevel
  /-- The reset output latch (R20). -/
  rst : Latch Level
  /-- The sequencer position (R22). -/
  seq : Seq
  /-- The FrameBuffers the host holds, by number (R23). -/
  bufs : List FrameBuffer
  /-- HOST port, in: the operations the host has still to issue, first to last (R13, R120). -/
  requests : List Request
  /-- HOST port, out: the response to the operation last taken, if it has given one (R56, R120). -/
  response : Option Response
  /-- BUSY port: the answers to the coming busy polls (R82). -/
  busyIn : Answers Bool
  /-- BUS port: the results of the coming bus bytes, `none` for `ok` (R83). -/
  busIn : Answers (Option TransportErr)
  /-- The number of busy polls made: the index of the next free answer. -/
  polls : Nat
  /-- The number of bus bytes attempted: the index of the next free result. -/
  sent : Nat
  /-- The observation (R10), oldest event first; nothing in the block reads it. -/
  trace : List Event
deriving DecidableEq, Repr

/-- Block power-on, before the first NEW: the first column of R29, and R153. The environment promises nothing, no request
is loaded, the trace is empty (notes/assumptions/5.md to 7.md). -/
def State.reset : State where
  cfg := defaultConfig
  partialMode := .unwritten
  initialized := .unwritten
  constructed := false
  saved := .unwritten
  cs := .unwritten
  dc := .unwritten
  rst := .unwritten
  seq := .idle
  bufs := []
  requests := []
  response := none
  busyIn := { first := [], thereafter := none }
  busIn := { first := [], thereafter := none }
  polls := 0
  sent := 0
  trace := []

end Sys2Proof.Machine
end

