-- ==== Sys2Proof/Machine/Ops.lean ====
section
/-! DEFINITION. The named operations: the framebuffer space (R31), the micro-operations (R81 to R84), the sequencer's
position, the response, and raising the block's one exception (R139). There is no return from exception (R142). -/

namespace Sys2Proof.Machine

/-! ### Latches -/

/-- A read of an element that may be unwritten: `free` stands for the value it then does not have. -/
def Latch.read {α : Type} (l : Latch α) (free : α) : α :=
  match l with
  | .unwritten => free
  | .holds v => v

/-! ### The framebuffer space -/

/-- The byte at an address; an unlisted one is `0xFF` (R70). -/
def Memory.get : Memory → Nat → Byte
  | [], _ => blankByte
  | (b, v) :: m, a => if b = a then v else Memory.get m a

/-- The memory with one byte written, in canonical form again. -/
def Memory.set : Memory → Nat → Byte → Memory
  | [], a, v => if v = blankByte then [] else [(a, v)]
  | (b, u) :: m, a, v =>
    if a < b then (if v = blankByte then (b, u) :: m else (a, v) :: (b, u) :: m)
    else if b = a then (if v = blankByte then m else (a, v) :: m)
    else (b, u) :: Memory.set m a v

/-- The canonical form from address `lo` on: strictly rising addresses inside `0..4735`, no entry that holds `0xFF`. -/
def Memory.wfFrom : Nat → Memory → Bool
  | _, [] => true
  | lo, (a, v) :: m => decide (lo ≤ a) && decide (a < fbBytes) && v != blankByte && Memory.wfFrom (a + 1) m

/-- The canonical form of a framebuffer space. -/
def Memory.wf (m : Memory) : Bool := Memory.wfFrom 0 m

/-- `MemRead(a, 1)`, "defined only for `0 <= a < 4736`" (R31). -/
def memRead (m : Memory) (a : Nat) : Option Byte :=
  if a < fbBytes then some (m.get a) else none

/-- `MemWrite(a, 1, v)`, for an address that `memRead` answers (R31). -/
def memWrite (m : Memory) (a : Nat) (v : Byte) : Memory := m.set a v

/-- All 4736 bytes in index order, the native scan order (R33, R77). -/
def memBytes (m : Memory) : List Byte := (List.range fbBytes).map m.get

/-! ### The environment's answers -/

/-- The answer to question number `i` from now, if it is promised. -/
def Answers.answer {α : Type} (p : Answers α) (i : Nat) : Option α :=
  match p.first[i]? with
  | some a => some a
  | none => p.thereafter

/-- The answers after `n` questions. -/
def Answers.drop {α : Type} (p : Answers α) (n : Nat) : Answers α := { p with first := p.first.drop n }

/-- The answer to busy poll number `i` from now: `true` for busy (R82). -/
def State.busyAnswer (s : State) (i : Nat) : Bool := (s.busyIn.answer i).getD (Config.freeBusy (s.polls + i))

/-- The result of bus byte number `i` from now: `none` for `ok` (R83). -/
def State.busAnswer (s : State) (i : Nat) : Option TransportErr :=
  (s.busIn.answer i).getD (Config.freeBus (s.sent + i))

/-! ### The sequencer's position -/

/-- One micro-operation further (R22). -/
def Seq.tick : Seq → Seq
  | .idle => .idle
  | .run op k todo => .run op (k + 1) todo

/-- Put tasks before what is left to do. -/
def Seq.push (ts : List Task) : Seq → Seq
  | .idle => .idle
  | .run op k todo => .run op k (ts ++ todo)

/-- The state with tasks put before what is left to do. -/
def State.push (s : State) (ts : List Task) : State := { s with seq := s.seq.push ts }

/-- The state with the first task taken off. -/
def State.popTo (s : State) (op : Instr) (k : Nat) (todo : List Task) : State := { s with seq := .run op k todo }

/-- Start an operation: `seq` goes from `Idle` to its first micro-operation, and no response is given yet (R22, R120). -/
def State.start (s : State) (op : Instr) (todo : List Task) : State :=
  { s with seq := .run op 0 todo, response := none }

/-- The end of an operation's expansion: `Ok` to the host, `seq` to `Idle` (R22, R120); `saved` has no value outside CLEAR
(R27). -/
def State.finish (s : State) : State := { s with seq := .idle, response := some .ok, saved := .unwritten }

/-- TAKING THE EXCEPTION (R139), for `TransportError(e)` and, "handled exactly like" it (R89), `DeviceNotResponding`: the
operation returns `Err` to the host and `seq` goes to `Idle`. Nothing is saved, no handler runs; the flags keep their values
(R140), `cs` and `dc` stay as they are (R88, R141), and `saved` is lost (R27). -/
def State.raise (s : State) (e : Error) : State :=
  { s with seq := .idle, response := some (.err e), saved := .unwritten }

/-! ### Micro-operations -/

/-- `Pin(CS) <- lvl` (R81). -/
def State.pinCs (s : State) (l : CsLevel) : State :=
  { s with cs := .holds l, trace := s.trace ++ [.cs l], seq := s.seq.tick }

/-- `Pin(DC) <- lvl` (R81). -/
def State.pinDc (s : State) (l : DcLevel) : State :=
  { s with dc := .holds l, trace := s.trace ++ [.dc l], seq := s.seq.tick }

/-- `Pin(RST) <- lvl` (R81). -/
def State.pinRst (s : State) (l : Level) : State :=
  { s with rst := .holds l, trace := s.trace ++ [.rst l], seq := s.seq.tick }

/-- `DelayMs(n)` (R84). -/
def State.delayMs (s : State) (n : Nat) : State :=
  { s with trace := s.trace ++ [.delay n], seq := s.seq.tick }

/-- What `BusyRead()` leaves when it is answered `answer` (R82): the poll in the trace, the answer used up. The position
stays: it repeats while the answer is busy (R22). -/
def State.afterPoll (s : State) (answer : Bool) : State :=
  { s with trace := s.trace ++ [.busy answer], busyIn := s.busyIn.drop 1, polls := s.polls + 1 }

/-- One micro-operation further (R22). -/
def State.tick (s : State) : State := { s with seq := s.seq.tick }

/-- What `BusWrite(b)` leaves when its result is `r` (R83). -/
def State.afterTx (s : State) (b : Byte) (r : Option TransportErr) : State :=
  { s with
    trace := s.trace ++ [match r with | none => .tx b | some e => .txFailed b e]
    busIn := s.busIn.drop 1
    sent := s.sent + 1
    seq := s.seq.tick }

/-- How far a run of micro-operations came: `on`, to its end or to the end of the operation; `waiting`, to a poll that was
answered busy, which the next step repeats (R85). -/
inductive Progress where
  | on (s : State)
  | waiting (s : State)
deriving DecidableEq, Repr

/-- The state reached. -/
def Progress.state : Progress → State
  | .on s => s
  | .waiting s => s

/-- Is `n` busy answers what `BUSY_BOUND` allows at most (R89)? Never with `none`, the default (R85). -/
def boundReached (c : Config) (n : Nat) : Bool :=
  match c.busyBound with
  | none => false
  | some bound => decide (bound ≤ n)

/-- Perform micro-operations in order (R22, R43, R85, R88, R89). A poll answered busy leaves itself and the rest at the
head of what is to do; a failed byte raises `TransportError(e)` and nothing after it is performed. -/
def runMicros : List Micro → State → Progress
  | [], s => .on s
  | .cs l :: ms, s => runMicros ms (s.pinCs l)
  | .dc l :: ms, s => runMicros ms (s.pinDc l)
  | .rst l :: ms, s => runMicros ms (s.pinRst l)
  | .delay n :: ms, s => runMicros ms (s.delayMs n)
  | .poll n :: ms, s =>
    if s.busyAnswer 0 then
      if boundReached s.cfg (n + 1) then .on ((s.afterPoll true).raise .deviceNotResponding)
      else .waiting ((s.afterPoll true).push [.micros (.poll (n + 1) :: ms)])
    else runMicros ms (s.afterPoll false).tick
  | .tx b :: ms, s =>
    match s.busAnswer 0 with
    | none => runMicros ms (s.afterTx b none)
    | some e => .on ((s.afterTx b (some e)).raise (.transport e))

end Sys2Proof.Machine
end

