-- ==== Sys2Proof/Machine/Flags.lean ====
section
/-! DEFINITION. The flag rules: every read and write of `partialMode`, `initialized`, `saved` and `constructed` (R16, R17,
R27, R28). -/

namespace Sys2Proof.Machine

/-- Read `partialMode` (R16). -/
def State.isPartial (s : State) : Bool := s.partialMode.read Config.unwrittenPartialMode

/-- Read `initialized` (R17). -/
def State.isInitialized (s : State) : Bool := s.initialized.read Config.unwrittenInitialized

/-- Read `saved` (R27). -/
def State.savedMode (s : State) : Bool := s.saved.read Config.unwrittenSaved

/-- NEW's flag writes (R121). -/
def State.construct (s : State) : State :=
  { s with partialMode := .holds true, initialized := .holds false, constructed := true }

/-- RESET's flag write (R122). -/
def State.resetFlag (s : State) : State :=
  { s with initialized := if s.cfg.resetClearsInitialized then .holds false else s.initialized }

/-- SET_PARTIAL's flag writes: only if the mode changes (R124). -/
def State.toPartial (s : State) : State :=
  if s.isPartial then s else { s with partialMode := .holds true, initialized := .holds false }

/-- SET_FULL's flag writes: only if the mode changes (R125). -/
def State.toFull (s : State) : State :=
  if s.isPartial then { s with partialMode := .holds false, initialized := .holds false } else s

/-- `initialized <- true`, line 14 of INIT (R112). -/
def State.markInitialized (s : State) : State := { s with initialized := .holds true }

/-- `initialized <- false` of POWER_OFF (R129). -/
def State.markUninitialized (s : State) : State := { s with initialized := .holds false }

/-- `saved <- partialMode` of CLEAR (R126). -/
def State.saveMode (s : State) : State := { s with saved := .holds s.isPartial }

/-- `if saved = true: SET_PARTIAL` of CLEAR; `saved` is read this once (R27, R126). -/
def State.restoreMode (s : State) : State := if s.savedMode then s.toPartial else s

end Sys2Proof.Machine
end

