-- ==== Sys2Proof/Machine/Operands.lean ====
section
/-! DEFINITION. The operand forms: the address of a pixel (R32, R72 to R74, R78), the colour (R59, R71, R75), the 16-bit
and 8-pixel-unit payload fields (R57, R58). -/

namespace Sys2Proof.Machine

/-- The logical canvas width `W` of a variant (R69, D2): the native X extent for `Direct`, the native Y for `RotatedLeft`. -/
def canvasWidth (c : Config) : Orientation → Nat
  | .direct => 8 * c.rowBytes
  | .rotatedLeft => c.rows

/-- The logical canvas height `H` of a variant (R69, D2). -/
def canvasHeight (c : Config) : Orientation → Nat
  | .direct => c.rows
  | .rotatedLeft => 8 * c.rowBytes

/-- The bounds test (R74), made on the logical coordinates before the transform. -/
def inBounds (c : Config) (o : Orientation) (x y : Int) : Bool :=
  decide (0 ≤ x) && decide (x < canvasWidth c o) && decide (0 ≤ y) && decide (y < canvasHeight c o)

/-- The orientation transform of an in-bounds pixel: its byte and bit (R72, R73, R78). -/
def transform (c : Config) (o : Orientation) (x y : Nat) : Nat × Nat :=
  match o with
  | .direct => (x / 8 + y * c.rowBytes, 7 - x % 8)
  | .rotatedLeft => (y / 8 + (canvasWidth c .rotatedLeft - 1 - x) * c.rowBytes, 7 - y % 8)

/-- Where a pixel lies, if it is in bounds (R42, R74, R75). -/
def pixelAddress (c : Config) (o : Orientation) (x y : Int) : Option (Nat × Nat) :=
  if inBounds c o x y then some (transform c o x.toNat y.toNat) else none

/-- The byte with one pixel written: a colour other than zero is foreground and clears the bit, zero is background and sets
it (R59, R71, R75). -/
def paint (v : Byte) (bit : Nat) (color : Int) : Byte :=
  if color ≠ 0 then v &&& ~~~(1#8 <<< bit) else v ||| (1#8 <<< bit)

/-- "height-1" of command 0x01, and the last row of the RAM Y window (R57, R94, R105). -/
def lastRow (c : Config) : Half := BitVec.ofNat 16 (c.rows - 1)

/-- The last column of the RAM X window in 8-pixel units (R58, R104). -/
def lastColumnUnit (c : Config) : Byte := BitVec.ofNat 8 ((8 * c.rowBytes - 1) / 8)

end Sys2Proof.Machine
end

