-- ==== Sys2Proof/Machine/Framing.lean ====
section
/-! DEFINITION. The command frame (R51, R85 to R88), the named sequences (R67, R110, R111, R117, R118, R123) and the
sequencer that performs them one task at a time (R22, R131, R132). -/

namespace Sys2Proof.Machine

/-- The micro-operations of a frame: `CMD(op)` where the payload is empty (R86), `CMD_DATA(op, payload)` else (R87). -/
def frameMicros (op : Byte) (payload : List Byte) : List Micro :=
  if payload = [] then [.cs .act, .poll 0, .dc .cmd, .tx op, .cs .inact]
  else [.cs .act, .poll 0, .dc .cmd, .tx op, .dc .data] ++ payload.map .tx ++ [.cs .inact]

/-- Perform a frame given as its bytes, opcode first. -/
def runFrame (bytes : List Byte) (s : State) : Progress :=
  match bytes with
  | [] => .on s
  | op :: payload => runMicros (frameMicros op payload) s

/-- `RESET_PULSE` (R123). -/
def resetPulse (c : Config) : List Micro := [.rst .low, .delay c.resetLowMs, .rst .high, .delay c.resetWaitMs]

/-- The waveform table of a mode (R113). -/
def lutOf (c : Config) (isPartial : Bool) : List Byte := if isPartial then lutPartial else c.lutFull

/-- Frames 1 to 10 of INIT (R110), with the fields of R94 to R107. -/
def initConfigFrames (c : Config) : List (List Byte) :=
  [ frameBytes (.driverOutputControl (lastRow c) c.drvOutFlags),
    frameBytes (.boosterSoftStart c.booster.1 c.booster.2.1 c.booster.2.2),
    frameBytes (.writeVcom c.vcom),
    frameBytes (.dummyLinePeriod c.dummyLine),
    frameBytes (.gateLineWidth c.gateWidth),
    frameBytes (.dataEntryMode c.entryMode),
    frameBytes (.setRamXWindow 0x00#8 (lastColumnUnit c)),
    frameBytes (.setRamYWindow 0x0000#16 (lastRow c)),
    frameBytes (.setRamXCounter 0x00#8),
    frameBytes (.setRamYCounter 0x0000#16) ]

/-- Frame 11 of INIT for a mode (R101, R113). -/
def lutFrameBytes (c : Config) (isPartial : Bool) : List Byte := frameBytes (.writeLut (lutOf c isPartial))

/-- `POWER_ON`, frames 12 and 13 of INIT, and the two frames of POWER_OFF (R117, R129). -/
def powerFrames : List (List Byte) :=
  [frameBytes (.displayUpdateControl2 selectPower), frameBytes .masterActivation]

/-- `UPDATE_SEQ` (R118). -/
def updateFrames : List (List Byte) :=
  [frameBytes (.displayUpdateControl2 selectRefresh), frameBytes .masterActivation, frameBytes .terminator]

/-- The lines of INIT (R110). -/
def initTasks (c : Config) : List Task :=
  (initConfigFrames c).map .frame ++ [.lutFrame] ++ powerFrames.map .frame ++ [.markInitialized]

/-- The lines of UPDATE (R128), which are also the nested UPDATE of CLEAR (D27). -/
def updateTasks : List Task := .ensureInit :: updateFrames.map .frame

/-- Perform one task; a named sequence is replaced by its lines (R132). -/
def perform (t : Task) (s : State) : Progress :=
  match t with
  | .frame bytes => runFrame bytes s
  | .micros ms => runMicros ms s
  | .lutFrame => .on (s.push [.frame (lutFrameBytes s.cfg s.isPartial)])
  | .init => .on (s.push (initTasks s.cfg))
  | .ensureInit => .on (if s.isInitialized then s else s.push [.init])
  | .markInitialized => .on s.markInitialized
  | .markUninitialized => .on s.markUninitialized
  | .resetFlag => .on s.resetFlag
  | .construct => .on s.construct
  | .setPartial => .on s.toPartial
  | .setFull => .on s.toFull
  | .saveMode => .on s.saveMode
  | .restoreMode => .on s.restoreMode

/-- The next task of a running operation, or its end (R22). -/
def nextTask (s : State) : Progress :=
  match s.seq with
  | .idle => .on s
  | .run _ _ [] => .on s.finish
  | .run op k (t :: todo) => perform t (s.popTo op k todo)

/-- Perform tasks until the operation ends or a poll is answered busy, at most `n` of them. -/
def drive : Nat → State → State
  | 0, s => s
  | n + 1, s =>
    match nextTask s with
    | .on s' => drive n s'
    | .waiting s' => s'

/-- More tasks than any operation has: CLEAR performs at most 41 (R126). -/
def driveFuel : Nat := 64

/-- A CTL operation other than NEW: accepted only when idle (R120) and after NEW (R133), else refused, which "takes no
step, changes no state, emits no trace event and gives no result" (R62). Accepted, it runs as far as the environment's
answers let it go in one step. -/
def State.operate (s : State) (op : Instr) (tasks : List Task) : State :=
  if s.seq = .idle ∧ s.constructed = true then drive driveFuel (s.start op tasks) else s

/-- NEW: accepted whenever idle (R120, R121, R133). -/
def State.operateNew (s : State) (op : Instr) (tasks : List Task) : State :=
  if s.seq = .idle then drive driveFuel (s.start op tasks) else s

/-- A command frame at the sequencer's position. The host cannot request one (R67), so an idle block performs none. -/
def State.send (s : State) (op : Byte) (payload : List Byte) : State :=
  if s.seq = .idle then s else (runMicros (frameMicros op payload) s).state

end Sys2Proof.Machine
end

