-- ==== Sys2Proof/Machine/Commands.lean ====
section
/-! DEFINITION. The meanings of the fifteen controller commands (R94 to R108): each sends its one frame, opcode and payload
fields in the bus order of R53, from the sequencer's position. None writes a flag; the only exceptions are those of R88 and
R89; what the controller then does is outside the block (R5, R26). -/

namespace Sys2Proof.Machine

/-- Driver output control: `CMD_DATA(0x01, [lo8(H-1), hi8(H-1), flags])` (R94). -/
def execDriverOutputControl (heightMinus1 : Half) (flags : Byte) (s : State) : Host.Outcome State Fault Refusal :=
  .next (s.send 0x01#8 [lo8 heightMinus1, hi8 heightMinus1, flags])

/-- Booster soft-start control: `CMD_DATA(0x0C, BOOSTER)` (R95). -/
def execBoosterSoftStart (phase1 phase2 phase3 : Byte) (s : State) : Host.Outcome State Fault Refusal :=
  .next (s.send 0x0C#8 [phase1, phase2, phase3])

/-- Data entry mode: `CMD_DATA(0x11, [mode])` (R96). -/
def execDataEntryMode (mode : Byte) (s : State) : Host.Outcome State Fault Refusal :=
  .next (s.send 0x11#8 [mode])

/-- Master activation: `CMD(0x20)` (R97). -/
def execMasterActivation (s : State) : Host.Outcome State Fault Refusal :=
  .next (s.send 0x20#8 [])

/-- Display update control 2: `CMD_DATA(0x22, [selector])` (R98). -/
def execDisplayUpdateControl2 (selector : Byte) (s : State) : Host.Outcome State Fault Refusal :=
  .next (s.send 0x22#8 [selector])

/-- Write RAM: `CMD_DATA(0x24, buf)`, the whole bitmap in one frame (R99). -/
def execWriteRam (bitmap : List Byte) (s : State) : Host.Outcome State Fault Refusal :=
  .next (s.send 0x24#8 bitmap)

/-- VCOM voltage: `CMD_DATA(0x2C, [voltage])` (R100). -/
def execWriteVcom (voltage : Byte) (s : State) : Host.Outcome State Fault Refusal :=
  .next (s.send 0x2C#8 [voltage])

/-- Write LUT register: `CMD_DATA(0x32, LUT)` (R101). -/
def execWriteLut (table : List Byte) (s : State) : Host.Outcome State Fault Refusal :=
  .next (s.send 0x32#8 table)

/-- Dummy line period: `CMD_DATA(0x3A, [period])` (R102). -/
def execDummyLinePeriod (period : Byte) (s : State) : Host.Outcome State Fault Refusal :=
  .next (s.send 0x3A#8 [period])

/-- Gate line width: `CMD_DATA(0x3B, [width])` (R103). -/
def execGateLineWidth (width : Byte) (s : State) : Host.Outcome State Fault Refusal :=
  .next (s.send 0x3B#8 [width])

/-- Set RAM X address window: `CMD_DATA(0x44, [start, end])` (R104). -/
def execSetRamXWindow (first last : Byte) (s : State) : Host.Outcome State Fault Refusal :=
  .next (s.send 0x44#8 [first, last])

/-- Set RAM Y address window: `CMD_DATA(0x45, [start low, start high, end low, end high])` (R105). -/
def execSetRamYWindow (first last : Half) (s : State) : Host.Outcome State Fault Refusal :=
  .next (s.send 0x45#8 [lo8 first, hi8 first, lo8 last, hi8 last])

/-- Set RAM X address counter: `CMD_DATA(0x4E, [column])` (R106). -/
def execSetRamXCounter (column : Byte) (s : State) : Host.Outcome State Fault Refusal :=
  .next (s.send 0x4E#8 [column])

/-- Set RAM Y address counter: `CMD_DATA(0x4F, [low, high])` (R107). -/
def execSetRamYCounter (row : Half) (s : State) : Host.Outcome State Fault Refusal :=
  .next (s.send 0x4F#8 [lo8 row, hi8 row])

/-- Terminator: `CMD(0xFF)` (R108). -/
def execTerminator (s : State) : Host.Outcome State Fault Refusal :=
  .next (s.send 0xFF#8 [])

end Sys2Proof.Machine
end

