-- ==== Sys2Proof/Machine/Control.lean ====
section
/-! DEFINITION. The meanings of the ControllerDriver's host operations (R120 to R133): each is the list of the lines of its
rule's pseudocode, performed by the sequencer. -/

namespace Sys2Proof.Machine

/-- The lines of NEW (R121). -/
def newTasks (c : Config) : List Task := [.micros (resetPulse c), .construct]

/-- The lines of RESET (R122). -/
def resetTasks (c : Config) : List Task := [.micros (resetPulse c), .resetFlag]

/-- The lines of CLEAR (R126); INIT is unconditional (D11), UPDATE is the operation itself (D27). -/
def clearTasks : List Task :=
  [.saveMode, .setFull, .init, .frame (frameBytes (.writeRam (List.replicate fbBytes blankByte)))]
    ++ updateTasks ++ [.restoreMode]

/-- The lines of SET_DISPLAY (R127): the payload is the buffer's bytes at the time of the call (R47). -/
def setDisplayTasks (b : FrameBuffer) : List Task := [.ensureInit, .frame (frameBytes (.writeRam (memBytes b.mem)))]

/-- The lines of POWER_OFF (R129). -/
def powerOffTasks : List Task := powerFrames.map .frame ++ [.markUninitialized]

/-- `NEW` (R121). -/
def execNew (s : State) : Host.Outcome State Fault Refusal :=
  .next (s.operateNew .new (newTasks s.cfg))

/-- `RESET` (R122). -/
def execReset (s : State) : Host.Outcome State Fault Refusal :=
  .next (s.operate .reset (resetTasks s.cfg))

/-- `SET_PARTIAL` (R124). -/
def execSetPartial (s : State) : Host.Outcome State Fault Refusal :=
  .next (s.operate .setPartial [.setPartial])

/-- `SET_FULL` (R125). -/
def execSetFull (s : State) : Host.Outcome State Fault Refusal :=
  .next (s.operate .setFull [.setFull])

/-- `CLEAR` (R126). -/
def execClear (s : State) : Host.Outcome State Fault Refusal :=
  .next (s.operate .clear clearTasks)

/-- `SET_DISPLAY fb` (R127); on anything but a FrameBuffer that FB_NEW created it is refused (R133). -/
def execSetDisplay (fb : Nat) (s : State) : Host.Outcome State Fault Refusal :=
  .next (match s.bufs[fb]? with
  | some b => s.operate (.setDisplay fb) (setDisplayTasks b)
  | none => s)

/-- `UPDATE` (R128). -/
def execUpdate (s : State) : Host.Outcome State Fault Refusal :=
  .next (s.operate .update updateTasks)

/-- `POWER_OFF` (R129). -/
def execPowerOff (s : State) : Host.Outcome State Fault Refusal :=
  .next (s.operate .powerOff powerOffTasks)

end Sys2Proof.Machine
end

