-- ==== Sys2Proof/Machine/Framebuffer.lean ====
section
/-! DEFINITION. The meanings of the FrameBuffer packer's operations (R69 to R80): each is atomic, makes no I/O and touches
no flag (R39, R80). Like every request they are accepted only when the block is idle (R120; V48), and FB_DRAW_PIXEL and
FB_GET_BUFFER only on a FrameBuffer that FB_NEW created (R133). -/

namespace Sys2Proof.Machine

/-- A new FrameBuffer: all background, every byte `0xFF` (R70). -/
def FrameBuffer.blank (o : Orientation) : FrameBuffer := { orient := o, mem := [] }

/-- FB_DRAW_PIXEL on one FrameBuffer (R75): out of bounds nothing changes; `none` where `MemRead` is not defined for the
address formed (R31), together with that address. -/
def FrameBuffer.draw (c : Config) (b : FrameBuffer) (x y color : Int) : Except Nat FrameBuffer :=
  match pixelAddress c b.orient x y with
  | none => .ok b
  | some (byte, bit) =>
    match memRead b.mem byte with
    | none => .error byte
    | some v => .ok { b with mem := memWrite b.mem byte (paint v bit color) }

/-- FB_DRAW (R76): a finite list of pixel updates, applied first to last. It has no encoding of its own. -/
def FrameBuffer.drawAll (c : Config) : FrameBuffer → List (Int × Int × Int) → Except Nat FrameBuffer
  | b, [] => .ok b
  | b, (x, y, color) :: rest =>
    match b.draw c x y color with
    | .ok b' => FrameBuffer.drawAll c b' rest
    | .error a => .error a

/-- `FB_NEW orient` (R70): the result is the new FrameBuffer, named by its number. -/
def execFbNew (orient : Orientation) (s : State) : Host.Outcome State Fault Refusal :=
  .next (if s.seq = .idle then
    { s with bufs := s.bufs ++ [FrameBuffer.blank orient], response := some (.frameBuffer s.bufs.length) }
  else s)

/-- `FB_DRAW_PIXEL x y color` on FrameBuffer `fb` (R75). -/
def execFbDrawPixel (fb : Nat) (x y color : Int) (s : State) : Host.Outcome State Fault Refusal :=
  match s.seq, s.bufs[fb]? with
  | .idle, some b =>
    match b.draw s.cfg x y color with
    | .ok b' => .next { s with bufs := s.bufs.set fb b', response := some .nothing }
    | .error a => .fault (.outsideFramebuffer a)
  | _, _ => .next s

/-- `FB_GET_BUFFER` of FrameBuffer `fb` (R77). -/
def execFbGetBuffer (fb : Nat) (s : State) : Host.Outcome State Fault Refusal :=
  .next (match s.seq, s.bufs[fb]? with
  | .idle, some b => { s with response := some (.bytes (memBytes b.mem)) }
  | _, _ => s)

end Sys2Proof.Machine
end

