-- ==== Sys2Proof/Machine/Dispatch.lean ====
section
/-! DEFINITION. The dispatch: one arm per instruction. -/

namespace Sys2Proof.Machine

def exec (i : Instr) (s : State) : Host.Outcome State Fault Refusal :=
  match i with
  | .driverOutputControl heightMinus1 flags => Sys2Proof.Machine.execDriverOutputControl heightMinus1 flags s
  | .boosterSoftStart phase1 phase2 phase3 => Sys2Proof.Machine.execBoosterSoftStart phase1 phase2 phase3 s
  | .dataEntryMode mode => Sys2Proof.Machine.execDataEntryMode mode s
  | .masterActivation => Sys2Proof.Machine.execMasterActivation s
  | .displayUpdateControl2 selector => Sys2Proof.Machine.execDisplayUpdateControl2 selector s
  | .writeRam bitmap => Sys2Proof.Machine.execWriteRam bitmap s
  | .writeVcom voltage => Sys2Proof.Machine.execWriteVcom voltage s
  | .writeLut table => Sys2Proof.Machine.execWriteLut table s
  | .dummyLinePeriod period => Sys2Proof.Machine.execDummyLinePeriod period s
  | .gateLineWidth width => Sys2Proof.Machine.execGateLineWidth width s
  | .setRamXWindow first last => Sys2Proof.Machine.execSetRamXWindow first last s
  | .setRamYWindow first last => Sys2Proof.Machine.execSetRamYWindow first last s
  | .setRamXCounter column => Sys2Proof.Machine.execSetRamXCounter column s
  | .setRamYCounter row => Sys2Proof.Machine.execSetRamYCounter row s
  | .terminator => Sys2Proof.Machine.execTerminator s
  | .new => Sys2Proof.Machine.execNew s
  | .reset => Sys2Proof.Machine.execReset s
  | .setPartial => Sys2Proof.Machine.execSetPartial s
  | .setFull => Sys2Proof.Machine.execSetFull s
  | .clear => Sys2Proof.Machine.execClear s
  | .setDisplay fb => Sys2Proof.Machine.execSetDisplay fb s
  | .update => Sys2Proof.Machine.execUpdate s
  | .powerOff => Sys2Proof.Machine.execPowerOff s
  | .fbNew orient => Sys2Proof.Machine.execFbNew orient s
  | .fbDrawPixel fb x y color => Sys2Proof.Machine.execFbDrawPixel fb x y color s
  | .fbGetBuffer fb => Sys2Proof.Machine.execFbGetBuffer fb s

end Sys2Proof.Machine
end

