-- ==== Sys2Proof/Machine/Fetch.lean ====
section
/-! DEFINITION. Where the next instruction comes from: the host port when the block is idle (R120), the sequencer's own
list when an operation runs (R22). -/

namespace Sys2Proof.Machine

/-- The block takes a request off the host port: the host then waits for its response (R13, R120). -/
def State.take (s : State) (rest : List Request) : State := { s with requests := rest, response := none }

/-- The state in which the given instruction is the next one. A request is put first on the host port and the block is
idle; a frame is put first in what the running operation has to do, or, if none runs, in an UPDATE of which only that
frame is left (notes/assumptions/11.md). -/
def State.withNext (s : State) (c : Code) : State :=
  match c with
  | .request r => { s with seq := .idle, requests := r :: s.requests }
  | .frame bytes =>
    match s.seq with
    | .idle => { s with seq := .run .update 0 [.frame bytes] }
    | .run op k todo => { s with seq := .run op k (.frame bytes :: todo) }

end Sys2Proof.Machine
end

