-- ==== Sys2Proof/Machine/Step.lean ====
section
/-! DEFINITION. One step of the block. Idle, it takes the host's next request, if there is one, and executes it; a reserved
code is refused (R62: no step, no change, no trace event, no result). Running, it performs its next task: a frame is
decoded and executed, any other task is performed. -/

namespace Sys2Proof.Machine

/-- One step (R22, R120). -/
def step (s : State) : Host.Outcome State Fault Refusal :=
  match s.seq with
  | .idle =>
    match s.requests with
    | [] => .next s
    | r :: rest =>
      match decodeRequest r with
      | .ok i => exec i (s.take rest)
      | .error _ => .next (s.take rest)
  | .run op k (.frame bytes :: todo) =>
    match decodeFrame bytes with
    | .ok i => exec i (s.popTo op k todo)
    | .error _ => .refused (.unknownCommand bytes)
  | .run _ _ _ => .next (nextTask s).state

/-- The state with the instruction whose bits are `w`, numbered as spec/opcode_table.json numbers them, as the next one. -/
def State.withFetchWord (s : State) (nbits w : Nat) : State := s.withNext (tableCode nbits w)

end Sys2Proof.Machine
end

