-- ==== Sys2Proof/Machine/Observe.lean ====
section
/-! DEFINITION. The observation: the views of a trace that the spec names (R10, R11), the events of a frame (R86, R87,
R93), and the electrical view of an event (R6, R81). Nothing the block does reads any of this. -/

namespace Sys2Proof.Machine

/-- The events of a frame, given as its bytes, whose busy-wait has `p` busy answers before the ready one and whose bytes all
go out (R86, R87, R93). -/
def frameTraceAfter (p : Nat) (bytes : List Byte) : List Event :=
  match bytes with
  | [] => []
  | op :: payload =>
    [.cs .act] ++ List.replicate p (.busy true) ++ [.busy false, .dc .cmd, .tx op]
      ++ (if payload = [] then [] else .dc .data :: payload.map .tx) ++ [.cs .inact]

/-- The events of a frame with the controller ready at the first poll and no failure (R86, R87). -/
def frameTrace (bytes : List Byte) : List Event := frameTraceAfter 0 bytes

/-- The events of frames one after another. -/
def framesTrace (frames : List (List Byte)) : List Event := frames.flatMap frameTrace

/-- The thirteen frames of INIT for a mode (R110, R119). -/
def initFrames (c : Config) (isPartial : Bool) : List (List Byte) :=
  initConfigFrames c ++ [lutFrameBytes c isPartial] ++ powerFrames

/-- The frame of a RAM write (R99). -/
def ramFrame (bitmap : List Byte) : List Byte := frameBytes (.writeRam bitmap)

/-- The bitmap CLEAR streams: `FF * 4736` (R126). -/
def blankBitmap : List Byte := List.replicate fbBytes blankByte

/-- A bus byte, sent or failed: a `TX` event (R10). -/
def Event.isBus (e : Event) : Bool :=
  match e with
  | .tx _ => true
  | .txFailed _ _ => true
  | .cs _ => false
  | .dc _ => false
  | .rst _ => false
  | .busy _ => false
  | .delay _ => false

/-- A busy poll (R10). -/
def Event.isPoll (e : Event) : Bool :=
  match e with
  | .busy _ => true
  | .cs _ => false
  | .dc _ => false
  | .rst _ => false
  | .tx _ => false
  | .txFailed _ _ => false
  | .delay _ => false

/-- "Observed at the transport level": "the sub-list of `TX` events", the failed one `TX(b)!e` among them (R10). -/
def transport (es : List Event) : List Event := es.filter Event.isBus

/-- The transport bytes that 95_test_vectors lists and counts: those that went out. -/
def bytesSent : List Event → List Byte
  | [] => []
  | .tx b :: es => b :: bytesSent es
  | _ :: es => bytesSent es

/-- The frames of a trace (R11), each as its bytes, opcode first; `current` holds the bytes of the frame that is open.
DESIGN CHOICE (notes/assumptions/20.md): R11 speaks of a trace without failure. Where a frame was left open (R88, R89) and
a second `CS=act` comes before any `CS=inact`, the frame starts anew there, and what the broken one had sent is in no
frame; a byte that failed is in none either. -/
def framesFrom (current : Option (List Byte)) : List Event → List (List Byte)
  | [] => []
  | .cs .act :: es => framesFrom (some []) es
  | .cs .inact :: es => current.toList ++ framesFrom none es
  | .tx b :: es => framesFrom (current.map (· ++ [b])) es
  | _ :: es => framesFrom current es

/-- The frame view of a trace (R11; of a trace with a failure, the model's choice, notes/assumptions/20.md). -/
def frameView (es : List Event) : List (List Byte) := framesFrom none es

/-- The payload of the last frame of command 0x32 in a list of frames, after `t` (R101). -/
def lastTableOf (t : Option (List Byte)) : List (List Byte) → Option (List Byte)
  | [] => t
  | f :: fs => lastTableOf (if f.head? = some 0x32#8 then some f.tail else t) fs

/-- The waveform table that a trace sent last, whole (R17, R101). -/
def lastTable (es : List Event) : Option (List Byte) := lastTableOf none (frameView es)

/-- The lines of the block (R147). -/
inductive Line where
  | cs
  | dc
  | rst
  | busy
deriving DecidableEq, Repr

/-- The other level. -/
def otherLevel : Level → Level
  | .low => .high
  | .high => .low

/-- The line an event shows and its electrical level (R6, R81, R82); the bus and the delay are no lines. -/
def electrical (c : Config) : Event → Option (Line × Level)
  | .cs .act => some (.cs, c.csActive)
  | .cs .inact => some (.cs, otherLevel c.csActive)
  | .dc .cmd => some (.dc, c.dcCommand)
  | .dc .data => some (.dc, c.dcData)
  | .rst l => some (.rst, l)
  | .busy true => some (.busy, c.busyActive)
  | .busy false => some (.busy, otherLevel c.busyActive)
  | .tx _ => none
  | .txFailed _ _ => none
  | .delay _ => none

/-- The chip-select level last driven in a trace, after the latch held `l` (R20). -/
def lastCs (l : Latch CsLevel) : List Event → Latch CsLevel
  | [] => l
  | .cs v :: es => lastCs (.holds v) es
  | _ :: es => lastCs l es

/-- The data/command level last driven in a trace, after the latch held `l` (R20). -/
def lastDc (l : Latch DcLevel) : List Event → Latch DcLevel
  | [] => l
  | .dc v :: es => lastDc (.holds v) es
  | _ :: es => lastDc l es

/-- The reset level last driven in a trace, after the latch held `l` (R20). -/
def lastRst (l : Latch Level) : List Event → Latch Level
  | [] => l
  | .rst v :: es => lastRst (.holds v) es
  | _ :: es => lastRst l es

/-- A pin write that drives its line to the level it already has (R10, D20). -/
def Event.redundant (cs : Latch CsLevel) (dc : Latch DcLevel) (rst : Latch Level) (e : Event) : Bool :=
  match e with
  | .cs l => cs == .holds l
  | .dc l => dc == .holds l
  | .rst l => rst == .holds l
  | .busy _ => false
  | .tx _ => false
  | .txFailed _ _ => false
  | .delay _ => false

/-- What a trace shows at the pins when the latches held these levels before it: a write that changes nothing on the wire
is left out, so that "two traces that differ only in such writes are indistinguishable" (R10, D20). -/
def pinView (cs : Latch CsLevel) (dc : Latch DcLevel) (rst : Latch Level) : List Event → List Event
  | [] => []
  | e :: es =>
    (if e.redundant cs dc rst then [] else [e]) ++ pinView (lastCs cs [e]) (lastDc dc [e]) (lastRst rst [e]) es

/-- The same as levels on the lines (R6, R147). -/
def lineView (c : Config) (cs : Latch CsLevel) (dc : Latch DcLevel) (rst : Latch Level) (es : List Event) :
    List (Line × Level) :=
  (pinView cs dc rst es).filterMap (electrical c)

/-- Where a trace stands in the framing of R51. `closed`: chip-select is inactive or was never driven. `broken`: a byte
failed and left the frame open (R88). The others are the phases of an open frame. -/
inductive Phase where
  | closed
  | broken
  | selected
  | ready
  | command
  | opcodeSent
  | payload
deriving DecidableEq, Repr

/-- One event of the framing of R51, if it may come in this phase: chip-select, the busy-wait to a ready answer (R85,
R161), DC=cmd, the opcode, then DC=data and payload bytes or chip-select off. The reset pulse comes outside a frame; after a
frame that failed, or that a bounded wait gave up (R89), a new one may open. -/
def Phase.follow : Phase → Event → Option Phase
  | .closed, .cs .act => some .selected
  | .closed, .rst _ => some .closed
  | .closed, .delay _ => some .closed
  | .broken, .cs .act => some .selected
  | .broken, .rst _ => some .broken
  | .broken, .delay _ => some .broken
  | .selected, .cs .act => some .selected
  | .selected, .rst _ => some .broken
  | .selected, .busy true => some .selected
  | .selected, .busy false => some .ready
  | .ready, .dc .cmd => some .command
  | .command, .tx _ => some .opcodeSent
  | .command, .txFailed _ _ => some .broken
  | .opcodeSent, .dc .data => some .payload
  | .opcodeSent, .cs .inact => some .closed
  | .payload, .tx _ => some .payload
  | .payload, .txFailed _ _ => some .broken
  | .payload, .cs .inact => some .closed
  | _, _ => none

/-- The phase after a list of events, if each may come where it does. -/
def Phase.followAll : Phase → List Event → Option Phase
  | p, [] => some p
  | p, e :: es =>
    match p.follow e with
    | some q => Phase.followAll q es
    | none => none

end Sys2Proof.Machine
end

