-- ==== Sys2Proof/Safety.lean ====
section
/-! DEFINITION. The terms in which statements speak: what the environment must answer for an operation to run to its end,
the state in which frames have gone out, classes of instructions, and the invariant of a safe run. -/

namespace Sys2Proof.Machine

/-! ### The environment -/

/-- The next `n` busy polls are answered ready and the next `m` bus bytes go out: "ready" and "bus ok" of
95_test_vectors. -/
def State.willAnswer (s : State) (n m : Nat) : Prop :=
  (∀ i < n, s.busyAnswer i = false) ∧ (∀ i < m, s.busAnswer i = none)

/-- The environment answers each poll of these frames ready and lets each of their bytes out. -/
def State.readyFor (s : State) (frames : List (List Byte)) : Prop :=
  s.willAnswer frames.length frames.flatten.length

/-- The environment answers each poll of these frames ready, lets their first `k` bytes out and fails the next with `e`. -/
def State.failsAt (s : State) (frames : List (List Byte)) (k : Nat) (e : TransportErr) : Prop :=
  s.willAnswer frames.length k ∧ s.busAnswer k = some e

/-- No wait is for ever, and none reaches `BUSY_BOUND`: from every poll on, a ready answer comes after some number of busy
ones, any number where `BUSY_BOUND` is none (R85, R89). -/
def State.endsEveryWait (s : State) : Prop :=
  ∀ i, ∃ p, s.busyAnswer (i + p) = false ∧ boundReached s.cfg p = false

/-- `s` with a controller that is ready at every poll. -/
def State.readyAtOnce (s : State) : State := { s with busyIn := { first := [], thereafter := some false } }

/-- `s` with `n` busy answers and `m` bus results used up. -/
def State.answered (s : State) (n m : Nat) : State :=
  { s with busyIn := s.busyIn.drop n, polls := s.polls + n, busIn := s.busIn.drop m, sent := s.sent + m }

/-- `s` with these frames sent, ready at each first poll and without failure: the answers used up, the events in the trace,
`cs` inactive and `dc` as the last frame left it (R91). -/
def State.sentFrames (s : State) (frames : List (List Byte)) (dc : DcLevel) : State :=
  { s.answered frames.length frames.flatten.length with
    cs := .holds .inact
    dc := .holds dc
    trace := s.trace ++ framesTrace frames }

/-- The position `n` micro-operations further (R22). -/
def Seq.advance (n : Nat) : Seq → Seq
  | .idle => .idle
  | .run op k todo => .run op (k + n) todo

/-- The level at which a frame leaves the data/command line: `cmd` without payload, `data` with one (R91). -/
def dcAfter (bytes : List Byte) : DcLevel := if bytes.tail = [] then .cmd else .data

/-- `s` with the reset pulse performed (R123, R155). -/
def State.pulsed (s : State) : State :=
  { s with
    rst := .holds .high
    trace := s.trace ++ [.rst .low, .delay s.cfg.resetLowMs, .rst .high, .delay s.cfg.resetWaitMs] }

/-- A CTL operation other than NEW can be accepted: idle (R120) and constructed (R133). -/
def State.accepts (s : State) : Prop := s.seq = .idle ∧ s.constructed = true

/-- The two flags hold these values (R19, R130). -/
def State.inMode (s : State) (isPartial isInitialized : Bool) : Prop :=
  s.partialMode = .holds isPartial ∧ s.initialized = .holds isInitialized

/-- `s` with a command's frame sent from position `k` of operation `op` (R86, R87, R91, R93). -/
def State.commandSent (s : State) (bytes : List Byte) (op : Instr) (k : Nat) (todo : List Task) : State :=
  { s.sentFrames [bytes] (dcAfter bytes) with seq := .run op (k + (frameTrace bytes).length) todo }

/-- The events of a run in which bus byte number `k` fails with `e`: those before it, and its failure (R88, R141). -/
def cutAt (e : TransportErr) : Nat → List Event → List Event
  | _, [] => []
  | 0, .tx b :: _ => [.txFailed b e]
  | k + 1, .tx b :: es => .tx b :: cutAt e k es
  | k, x :: es => x :: cutAt e k es

/-- One row of the transition table of R130, its columns `Pu`, `Fu`, `Pi`, `Fi`, at the state's column. -/
def tableRow {α : Type} (pu fu pi fi : α) (isPartial isInitialized : Bool) : α :=
  match isPartial, isInitialized with
  | true, false => pu
  | false, false => fu
  | true, true => pi
  | false, true => fi

/-- The protocol states of R130 as (`partialMode`, `initialized`): `Pu` is the state after NEW. -/
abbrev stPu : Bool × Bool := (true, false)
/-- `Fu`: the `Uninitialized`-equivalent with full mode pending (R130). -/
abbrev stFu : Bool × Bool := (false, false)
/-- `Pi`: `InitializedPartial` (R130). -/
abbrev stPi : Bool × Bool := (true, true)
/-- `Fi`: `InitializedFull` (R130). -/
abbrev stFi : Bool × Bool := (false, true)

/-- `n` steps, stopping at the first that does not answer a next state. -/
def steps : Nat → State → Host.Outcome State Fault Refusal
  | 0, s => .next s
  | n + 1, s =>
    match step s with
    | .next t => steps n t
    | .fault r => .fault r
    | .refused r => .refused r

/-- The lines of a CTL operation's pseudocode (R121 to R129), which `exec` performs in one go and `step` one at a time. -/
def linesOf (i : Instr) (s : State) : List Task :=
  match i with
  | .new => newTasks s.cfg
  | .reset => resetTasks s.cfg
  | .setPartial => [.setPartial]
  | .setFull => [.setFull]
  | .clear => clearTasks
  | .setDisplay fb => (s.bufs[fb]?.map setDisplayTasks).getD []
  | .update => updateTasks
  | .powerOff => powerOffTasks
  | _ => []

/-! ### Kinds of lines -/

/-- Micro-operations alone: a frame, or a row of them. -/
def Task.isMicros (t : Task) : Bool :=
  match t with
  | .frame _ => true
  | .micros _ => true
  | .lutFrame => false
  | .init => false
  | .ensureInit => false
  | .markInitialized => false
  | .markUninitialized => false
  | .resetFlag => false
  | .construct => false
  | .setPartial => false
  | .setFull => false
  | .saveMode => false
  | .restoreMode => false

/-- A micro-operation on the reset line (R81). -/
def Micro.drivesReset (m : Micro) : Bool :=
  match m with
  | .rst _ => true
  | .cs _ => false
  | .dc _ => false
  | .poll _ => false
  | .tx _ => false
  | .delay _ => false

/-- A line that drives the reset line. -/
def Task.drivesReset (t : Task) : Bool :=
  match t with
  | .micros ms => ms.any Micro.drivesReset
  | .frame _ => false
  | .lutFrame => false
  | .init => false
  | .ensureInit => false
  | .markInitialized => false
  | .markUninitialized => false
  | .resetFlag => false
  | .construct => false
  | .setPartial => false
  | .setFull => false
  | .saveMode => false
  | .restoreMode => false

/-! ### Classes of instructions -/

/-- A command of format CMD8, as against a host operation (R9). -/
def isCommand (i : Instr) : Bool :=
  match i with
  | .driverOutputControl _ _ => true
  | .boosterSoftStart _ _ _ => true
  | .dataEntryMode _ => true
  | .masterActivation => true
  | .displayUpdateControl2 _ => true
  | .writeRam _ => true
  | .writeVcom _ => true
  | .writeLut _ => true
  | .dummyLinePeriod _ => true
  | .gateLineWidth _ => true
  | .setRamXWindow _ _ => true
  | .setRamYWindow _ _ => true
  | .setRamXCounter _ => true
  | .setRamYCounter _ => true
  | .terminator => true
  | .new => false
  | .reset => false
  | .setPartial => false
  | .setFull => false
  | .clear => false
  | .setDisplay _ => false
  | .update => false
  | .powerOff => false
  | .fbNew _ => false
  | .fbDrawPixel _ _ _ _ => false
  | .fbGetBuffer _ => false

/-- An operation of the FrameBuffer packer (R9). -/
def isFramebufferOp (i : Instr) : Bool :=
  match i with
  | .fbNew _ => true
  | .fbDrawPixel _ _ _ _ => true
  | .fbGetBuffer _ => true
  | _ => false

/-- A host operation of the ControllerDriver (R9). -/
def isControllerOp (i : Instr) : Bool := !isCommand i && !isFramebufferOp i

/-! ### The invariant -/

/-- The level or flag has been written (R29). -/
def Latch.written {α : Type} (l : Latch α) : Bool :=
  match l with
  | .unwritten => false
  | .holds _ => true

/-- The phases in which no frame is under way (R51, R88, R89). -/
def Phase.resting (p : Phase) : Bool := p == .closed || p == .broken || p == .selected

/-- Performed from phase `p`, these micro-operations keep to the framing of R51 whatever the environment answers, and end
outside a frame. -/
def Phase.plays : Phase → List Micro → Bool
  | p, [] => p.resting
  | p, .cs l :: ms => match p.follow (.cs l) with | some q => Phase.plays q ms | none => false
  | p, .dc l :: ms => match p.follow (.dc l) with | some q => Phase.plays q ms | none => false
  | p, .rst l :: ms => match p.follow (.rst l) with | some q => Phase.plays q ms | none => false
  | p, .delay n :: ms => match p.follow (.delay n) with | some q => Phase.plays q ms | none => false
  | p, .poll _ :: ms => p == .selected && Phase.plays .ready ms
  | p, .tx b :: ms =>
    match p.follow (.tx b), p.follow (.txFailed b 0) with
    | some q, some _ => Phase.plays q ms
    | _, _ => false

/-- A task that keeps to the framing from every phase outside a frame. -/
def Task.fitsAnywhere (t : Task) : Bool :=
  match t with
  | .micros ms => Phase.plays .closed ms && Phase.plays .broken ms && Phase.plays .selected ms
  | _ => true

/-- What is left to do keeps to the framing when the trace stands at phase `p`. -/
def Seq.fits (q : Seq) (p : Phase) : Bool :=
  match q with
  | .run _ _ (.micros ms :: todo) => p.plays ms && todo.all Task.fitsAnywhere
  | .run _ _ todo => p.resting && todo.all Task.fitsAnywhere
  | .idle => p.resting

/-- The tasks left to do. -/
def Seq.todo (q : Seq) : List Task :=
  match q with
  | .idle => []
  | .run _ _ todo => todo

/-- A frame task is the frame of one of the fifteen commands (R61, R92). -/
def Task.decodes (t : Task) : Bool :=
  match t with
  | .frame bytes => (decodeFrame bytes).toBool
  | _ => true

/-- A task that reads `partialMode` or `initialized`, at once or through the tasks it is replaced by. -/
def Task.readsFlags (t : Task) : Bool :=
  match t with
  | .lutFrame | .init | .ensureInit | .setPartial | .setFull | .saveMode | .restoreMode => true
  | .frame _ | .micros _ | .markInitialized | .markUninitialized | .resetFlag | .construct => false

/-- `saved` is written before it is read (R27); `h` says whether it holds a value now. -/
def savedBeforeRead : Bool → List Task → Bool
  | _, [] => true
  | h, t :: ts =>
    match t with
    | .saveMode => savedBeforeRead true ts
    | .restoreMode => h && savedBeforeRead h ts
    | _ => savedBeforeRead h ts

/-- The running operation, if there is one, is CLEAR. -/
def Seq.isClear (q : Seq) : Bool :=
  match q with
  | .run .clear _ _ => true
  | _ => false

/-- The invariant of a safe run: it holds at block power-on and every step keeps it. -/
structure State.Inv (s : State) : Prop where
  /-- The parameters meet the constraints of R6. -/
  config : s.cfg.valid = true
  /-- Every framebuffer space is in its canonical form, its addresses in `0..4735` (R31). -/
  memory : s.bufs.all (fun b => b.mem.wf) = true
  /-- After NEW both flags hold a value (R29). -/
  flags : s.constructed = true → s.partialMode.written = true ∧ s.initialized.written = true
  /-- No unwritten flag is ever read (R29: "nothing in the block reads it"). -/
  reads : s.seq.todo.any Task.readsFlags = true → s.partialMode.written = true ∧ s.initialized.written = true
  /-- `saved` holds a value only inside CLEAR (R27). -/
  saved : s.seq.isClear = false → s.saved = .unwritten ∧ Task.saveMode ∉ s.seq.todo
  /-- `saved` is never read without a value (R27). -/
  restore : savedBeforeRead s.saved.written s.seq.todo = true
  /-- Every frame still to be sent is one of the fifteen commands (R61, R92). -/
  frames : s.seq.todo.all Task.decodes = true
  /-- The trace keeps to the framing of R51, and so will what is left to do. -/
  framing : ∃ p, Phase.followAll .closed s.trace = some p ∧ s.seq.fits p = true

/-! ### `initialized` and INIT -/

/-- The event of a micro-operation, ready and bus ok. -/
def Micro.event (m : Micro) : Event :=
  match m with
  | .cs l => .cs l
  | .dc l => .dc l
  | .rst l => .rst l
  | .poll _ => .busy false
  | .tx b => .tx b
  | .delay n => .delay n

/-- The events that a line makes by itself in a mode, ready and bus ok. -/
def Task.events (c : Config) (isPartial : Bool) (t : Task) : List Event :=
  match t with
  | .frame bytes => frameTrace bytes
  | .micros ms => ms.map Micro.event
  | .lutFrame => frameTrace (lutFrameBytes c isPartial)
  | .init => []
  | .ensureInit => []
  | .markInitialized => []
  | .markUninitialized => []
  | .resetFlag => []
  | .construct => []
  | .setPartial => []
  | .setFull => []
  | .saveMode => []
  | .restoreMode => []

/-- A line of INIT before its last: a frame, the rest of one, or frame 11 (R110). -/
def Task.isInitLine (t : Task) : Bool := t.isMicros || t == .lutFrame

/-- These events are one whole INIT in this mode, with any number of busy answers at its waits (R85, R93, R110). -/
def isInit (c : Config) (isPartial : Bool) (es : List Event) : Prop :=
  es.filter (· ≠ .busy true) = framesTrace (initFrames c isPartial)

/-- A line that can complete no frame of command 0x32 which it does not read from the mode. -/
def Task.sendsNoTable (t : Task) : Bool :=
  match t with
  | .frame bytes => bytes.head? != some 0x32#8
  | .micros ms => !ms.contains (.cs .inact)
  | .lutFrame => true
  | .init => true
  | .ensureInit => true
  | .markInitialized => true
  | .markUninitialized => true
  | .resetFlag => true
  | .construct => true
  | .setPartial => true
  | .setFull => true
  | .saveMode => true
  | .restoreMode => true

/-- What `initialized` promises (R17, R18), as an invariant: it holds at block power-on and every step keeps it. -/
structure State.InitInv (s : State) : Prop where
  /-- While `initialized` is true, a whole INIT in the present mode stands in the trace. -/
  done : s.initialized = .holds true →
    ∃ pre es post, s.trace = pre ++ es ++ post ∧ isInit s.cfg s.isPartial es
  /-- While `initialized` is true, the waveform table sent last is that of the present mode. -/
  table : s.initialized = .holds true → lastTable s.trace = some (lutOf s.cfg s.isPartial)
  /-- However far the next line gets, that stays so. -/
  next : s.initialized = .holds true → ∀ x rest, s.seq.todo = x :: rest → ∀ n,
    lastTable (s.trace ++ (x.events s.cfg s.isPartial).take n) = some (lutOf s.cfg s.isPartial)
  /-- Where `initialized <- true` is still to come, the lines before it complete an INIT in the present mode of which the
  trace ends with the frames already sent; it comes once (R112). -/
  pending : .markInitialized ∈ s.seq.todo →
    ∃ lines rest pre es, s.seq.todo = lines ++ .markInitialized :: rest ∧ .markInitialized ∉ rest
      ∧ lines.all Task.isInitLine = true ∧ s.trace = pre ++ es
      ∧ isInit s.cfg s.isPartial (es ++ lines.flatMap (Task.events s.cfg s.isPartial))
  /-- No later line sends a table of its own. -/
  later : s.seq.todo.tail.all Task.sendsNoTable = true

end Sys2Proof.Machine
end

