-- ==== Sys2Proof/Certificates/Slice0/Obligations.lean ====
section
/-! DEFINITION. The statements for the provers. -/

open Sys2Proof Sys2Proof.Machine

/-! ### Encoding -/

/-- Decode and encode agree on every well-formed instruction, with every operand at every value (R51 to R53, R56). -/
def Obligations.EncodedInstructionDecodesToItself : Prop :=
  ∀ i : Instr, i.wellFormed = true → decode (encode i) = .ok i

/-- No bit of a frame is dropped: a frame that decodes is the encoding of what it decodes to (R52: "the opcode is the whole
byte"; R53). -/
def Obligations.DecodedFrameEncodesBack : Prop :=
  ∀ (bytes : List Byte) (i : Instr), decodeFrame bytes = .ok i → encode i = .frame bytes

/-- Exactly the fifteen opcodes of R60 decode; every other first byte is rejected by name, whatever follows (R61). -/
def Obligations.ExactlyFifteenOpcodesDecode : Prop :=
  ∀ op : Byte,
    if op ∈ [0x01#8, 0x0C#8, 0x11#8, 0x20#8, 0x22#8, 0x24#8, 0x2C#8, 0x32#8, 0x3A#8, 0x3B#8, 0x44#8, 0x45#8, 0x4E#8,
        0x4F#8, 0xFF#8]
    then ∃ payload i, decodeFrame (op :: payload) = .ok i ∧ i.wellFormed = true ∧ isCommand i = true
    else ∀ payload, decodeFrame (op :: payload) = .error (.unknownOpcode op)

/-- Words written out from the encodings of R53 and R56 decode to the instructions they stand for. -/
def Obligations.WordsOfTheSpecDecode : Prop :=
  decodeFrame [0x01#8, 0x27#8, 0x01#8, 0x00#8] = .ok (.driverOutputControl 295#16 0x00#8)
    ∧ decodeFrame [0x22#8, 0xC4#8] = .ok (.displayUpdateControl2 0xC4#8)
    ∧ decodeFrame [0x45#8, 0x00#8, 0x00#8, 0x27#8, 0x01#8] = .ok (.setRamYWindow 0#16 295#16)
    ∧ decodeFrame [0xFF#8] = .ok .terminator
    ∧ decodeRequest { code := 0x6#4, fb := 0, orient := .direct, x := 0, y := 0, color := 0 } = .ok .update
    ∧ decodeRequest { code := 0x9#4, fb := 2, orient := .direct, x := 100, y := 50, color := -3 }
        = .ok (.fbDrawPixel 2 100 50 (-3))

/-! ### One step -/

/-- An idle block takes the host's next request and executes the instruction it decodes to, on the state with that request
taken off the port; with no request it waits (R120). The list of requests is the model's form of the host port
(notes/assumptions/5.md). -/
def Obligations.IdleStepExecutesTheRequest : Prop :=
  ∀ s : State, s.seq = .idle →
    (s.requests = [] → step s = .next s)
    ∧ ∀ r rest i, s.requests = r :: rest → decodeRequest r = .ok i → step s = exec i (s.take rest)

/-- A running operation whose next line is a frame executes the command the frame decodes to, with that line taken off what
is left to do (R22, R92). What is left to do is the model's form of the position (notes/assumptions/4.md). -/
def Obligations.RunningStepExecutesTheFrame : Prop :=
  ∀ (s : State) (op : Instr) (k : Nat) (bytes : List Byte) (todo : List Task) (i : Instr),
    s.seq = .run op k (.frame bytes :: todo) → decodeFrame bytes = .ok i →
      step s = exec i { s with seq := .run op k todo }

/-- A request with a reserved code is refused: the block takes no step and changes no state but for the host port, from
which the request is gone and which carries no response (R62, by the spec's own decision D17). That the request is gone and
the response field is cleared is the model's form of the port (notes/assumptions/6.md, 8.md). -/
def Obligations.ReservedCodeIsRefused : Prop :=
  ∀ (s : State) (r : Request) (rest : List Request),
    s.seq = .idle → s.requests = r :: rest → 0xB ≤ r.code.toNat →
      decodeRequest r = .error (.reservedCode r.code) ∧ step s = .next { s with requests := rest, response := none }

/-- What the block refuses it leaves without effect: any host operation while one runs (R120), any CTL operation but NEW
before NEW, an operation on a FrameBuffer that FB_NEW did not create (R133, by the spec's own decision D17).
Three clauses are the model's choice. That a refusal is a next state equal to the old one, and that SET_DISPLAY of a
FrameBuffer that does not exist is refused, where R133 names FB_DRAW_PIXEL and FB_GET_BUFFER only: notes/assumptions/8.md.
That FrameBuffer operations are refused while an operation runs, as R120 says and R148 does not: notes/assumptions/18.md. -/
def Obligations.RefusedOperationChangesNothing : Prop :=
  ∀ (i : Instr) (s : State), isCommand i = false →
    (s.seq ≠ .idle
      ∨ (isControllerOp i = true ∧ i ≠ .new ∧ s.constructed = false)
      ∨ (∃ fb, s.bufs[fb]? = none ∧ (i = .setDisplay fb ∨ i = .fbGetBuffer fb ∨ ∃ x y c, i = .fbDrawPixel fb x y c))) →
    exec i s = .next s

/-- The model's choice (notes/assumptions/11.md): a command frame, which the host cannot request (R67), does nothing to an
idle block. -/
def Obligations.IdleBlockSendsNoCommand : Prop :=
  ∀ (i : Instr) (s : State), isCommand i = true → s.seq = .idle → exec i s = .next s

/-! ### The fifteen commands -/

/-- Commands 0x01, 0x0C, 0x2C, 0x3A, 0x3B and 0x11: each sends its frame with its payload fields in bus order and changes
nothing else (R94 to R96, R100, R102, R103, with R87, R91). -/
def Obligations.ConfigurationCommandsSendTheirFrame : Prop :=
  ∀ (s : State) (op : Instr) (k : Nat) (todo : List Task), s.seq = .run op k todo →
    (∀ h f, s.readyFor [[0x01#8, lo8 h, hi8 h, f]] →
      exec (.driverOutputControl h f) s = .next (s.commandSent [0x01#8, lo8 h, hi8 h, f] op k todo))
    ∧ (∀ a b c, s.readyFor [[0x0C#8, a, b, c]] →
      exec (.boosterSoftStart a b c) s = .next (s.commandSent [0x0C#8, a, b, c] op k todo))
    ∧ (∀ v, s.readyFor [[0x2C#8, v]] → exec (.writeVcom v) s = .next (s.commandSent [0x2C#8, v] op k todo))
    ∧ (∀ v, s.readyFor [[0x3A#8, v]] → exec (.dummyLinePeriod v) s = .next (s.commandSent [0x3A#8, v] op k todo))
    ∧ (∀ v, s.readyFor [[0x3B#8, v]] → exec (.gateLineWidth v) s = .next (s.commandSent [0x3B#8, v] op k todo))
    ∧ (∀ v, s.readyFor [[0x11#8, v]] → exec (.dataEntryMode v) s = .next (s.commandSent [0x11#8, v] op k todo))

/-- Commands 0x44, 0x45, 0x4E and 0x4F: 16-bit fields go out low byte first (R35, R104 to R107). For 0x4F the source states no
byte order: low byte first is the spec's own decision D7, by analogy with 0x45 (R35), which the model takes
(notes/assumptions/14.md). -/
def Obligations.WindowAndCounterCommandsSendTheirFrame : Prop :=
  ∀ (s : State) (op : Instr) (k : Nat) (todo : List Task), s.seq = .run op k todo →
    (∀ a b, s.readyFor [[0x44#8, a, b]] → exec (.setRamXWindow a b) s = .next (s.commandSent [0x44#8, a, b] op k todo))
    ∧ (∀ a b, s.readyFor [[0x45#8, lo8 a, hi8 a, lo8 b, hi8 b]] →
      exec (.setRamYWindow a b) s = .next (s.commandSent [0x45#8, lo8 a, hi8 a, lo8 b, hi8 b] op k todo))
    ∧ (∀ a, s.readyFor [[0x4E#8, a]] → exec (.setRamXCounter a) s = .next (s.commandSent [0x4E#8, a] op k todo))
    ∧ (∀ a, s.readyFor [[0x4F#8, lo8 a, hi8 a]] →
      exec (.setRamYCounter a) s = .next (s.commandSent [0x4F#8, lo8 a, hi8 a] op k todo))

/-- Commands 0x24 and 0x32: the bitmap and the waveform table go out whole, in index order, in one frame (R99, R101). -/
def Obligations.BitmapAndTableCommandsSendTheirFrame : Prop :=
  ∀ (s : State) (op : Instr) (k : Nat) (todo : List Task) (bytes : List Byte), s.seq = .run op k todo →
    (s.readyFor [0x24#8 :: bytes] → exec (.writeRam bytes) s = .next (s.commandSent (0x24#8 :: bytes) op k todo))
    ∧ (s.readyFor [0x32#8 :: bytes] → exec (.writeLut bytes) s = .next (s.commandSent (0x32#8 :: bytes) op k todo))

/-- Commands 0x22, 0x20 and 0xFF (R97, R98, R108): the two without payload never drive the data/command line to data. -/
def Obligations.ActivationCommandsSendTheirFrame : Prop :=
  ∀ (s : State) (op : Instr) (k : Nat) (todo : List Task), s.seq = .run op k todo →
    (∀ v, s.readyFor [[0x22#8, v]] →
      exec (.displayUpdateControl2 v) s = .next (s.commandSent [0x22#8, v] op k todo))
    ∧ (s.readyFor [[0x20#8]] →
      exec .masterActivation s = .next (s.commandSent [0x20#8] op k todo)
        ∧ (s.commandSent [0x20#8] op k todo).dc = .holds .cmd)
    ∧ (s.readyFor [[0xFF#8]] →
      exec .terminator s = .next (s.commandSent [0xFF#8] op k todo)
        ∧ (s.commandSent [0xFF#8] op k todo).dc = .holds .cmd)

/-- Whatever the environment answers, a command writes no flag and no FrameBuffer, and leaves the reset latch as it is
(R86, R87: "Flags written: none"; R91); and no step of a running operation that sends a frame, goes on with one after a
busy answer, or drives the reset pulse writes a flag or a FrameBuffer. -/
def Obligations.CommandsWriteNoFlag : Prop :=
  (∀ (i : Instr) (s t : State), isCommand i = true → exec i s = .next t →
    t.cfg = s.cfg ∧ t.partialMode = s.partialMode ∧ t.initialized = s.initialized ∧ t.constructed = s.constructed
      ∧ t.rst = s.rst ∧ t.bufs = s.bufs ∧ t.requests = s.requests)
  ∧ ∀ (s t : State) (op : Instr) (k : Nat) (x : Task) (todo : List Task),
    s.seq = .run op k (x :: todo) → x.isMicros = true → step s = .next t →
      t.cfg = s.cfg ∧ t.partialMode = s.partialMode ∧ t.initialized = s.initialized ∧ t.constructed = s.constructed
        ∧ (x.drivesReset = false → t.rst = s.rst) ∧ t.bufs = s.bufs ∧ t.requests = s.requests

/-- The opcode byte fails: the frame stops there, chip-select stays active, the data/command line is at command, the
operation ends with that very error (R88, R139, R141; that chip-select stays active is the spec's own decision D9). -/
def Obligations.FailedOpcodeByteEndsTheOperation : Prop :=
  ∀ (i : Instr) (s : State) (o : Instr) (k : Nat) (todo : List Task) (op : Byte) (payload : List Byte) (e : TransportErr),
    frameBytes i = op :: payload → s.seq = .run o k todo → s.busyAnswer 0 = false → s.busAnswer 0 = some e →
      exec i s = .next
        { s.answered 1 1 with
          cs := .holds .act
          dc := .holds .cmd
          trace := s.trace ++ [.cs .act, .busy false, .dc .cmd, .txFailed op e]
          seq := .idle
          response := some (.err (.transport e))
          saved := .unwritten }

/-- A payload byte fails: the bytes before it went out, none after it does, chip-select stays active, the data/command line
is at data (R88, R139, R141; that chip-select stays active is the spec's own decision D9). -/
def Obligations.FailedPayloadByteEndsTheOperation : Prop :=
  ∀ (i : Instr) (s : State) (o : Instr) (k : Nat) (todo : List Task) (op : Byte) (pre : List Byte) (b : Byte)
    (post : List Byte) (e : TransportErr),
    frameBytes i = op :: (pre ++ b :: post) → s.seq = .run o k todo → s.busyAnswer 0 = false →
    (∀ j < 1 + pre.length, s.busAnswer j = none) → s.busAnswer (1 + pre.length) = some e →
      exec i s = .next
        { s.answered 1 (2 + pre.length) with
          cs := .holds .act
          dc := .holds .data
          trace := s.trace ++ [.cs .act, .busy false, .dc .cmd, .tx op, .dc .data] ++ pre.map .tx ++ [.txFailed b e]
          seq := .idle
          response := some (.err (.transport e))
          saved := .unwritten }

/-! ### The busy-wait -/

/-- The hang: with no bound, a controller that answers busy keeps the block at the wait for as many polls as it goes on, one
poll a step, with nothing else in the trace and no response (R85, R162). -/
def Obligations.BusyControllerHoldsTheBlock : Prop :=
  ∀ (m : Nat) (s : State) (op : Instr) (k n : Nat) (ms : List Micro) (todo : List Task),
    s.cfg.busyBound = none → s.seq = .run op k (.micros (.poll n :: ms) :: todo) →
    (∀ i < m, s.busyAnswer i = true) →
      steps m s = .next
        { s.answered m 0 with
          trace := s.trace ++ List.replicate m (.busy true)
          seq := .run op k (.micros (.poll (n + m) :: ms) :: todo) }

/-- A frame whose busy-wait has `p` busy answers before the ready one has `p` more `BUSY?=1` events and is otherwise the
same (R85, R93). That it takes `p + 1` steps is the model's granularity (notes/assumptions/4.md). -/
def Obligations.FrameGoesOutAfterTheWait : Prop :=
  ∀ (p : Nat) (i : Instr) (s : State) (o : Instr) (k : Nat) (op : Byte) (payload : List Byte) (todo : List Task),
    i.wellFormed = true → frameBytes i = op :: payload → s.seq = .run o k (.frame (op :: payload) :: todo) →
    boundReached s.cfg p = false → (∀ j < p, s.busyAnswer j = true) → s.busyAnswer p = false →
    (∀ j < 1 + payload.length, s.busAnswer j = none) →
      steps (p + 1) s = .next
        { s.answered (p + 1) (1 + payload.length) with
          cs := .holds .inact
          dc := .holds (dcAfter (op :: payload))
          trace := s.trace ++ frameTraceAfter p (op :: payload)
          seq := .run o (k + (frameTrace (op :: payload)).length) todo }

/-- With `BUSY_BOUND = some(n)`, `n` busy answers end the operation with `DeviceNotResponding`: no byte of the frame is
sent and chip-select stays active (R89, by the spec's own decision D16). That it takes `n` steps is the model's granularity
(notes/assumptions/4.md). -/
def Obligations.BoundedWaitGivesUp : Prop :=
  ∀ (n : Nat) (i : Instr) (s : State) (o : Instr) (k : Nat) (op : Byte) (payload : List Byte) (todo : List Task),
    s.cfg.busyBound = some n → 1 ≤ n →
    i.wellFormed = true → frameBytes i = op :: payload → s.seq = .run o k (.frame (op :: payload) :: todo) →
    (∀ j < n, s.busyAnswer j = true) →
      steps n s = .next
        { s.answered n 0 with
          cs := .holds .act
          trace := s.trace ++ .cs .act :: List.replicate n (.busy true)
          seq := .idle
          response := some (.err .deviceNotResponding)
          saved := .unwritten }

/-! ### ControllerDriver operations without bus traffic -/

/-- NEW, at any idle time: the reset pulse, then partial mode, not initialised, constructed; it cannot fail and drives
neither chip-select nor data/command (R121, R123, with the spec's own decisions D14, D15). -/
def Obligations.NewPulsesResetAndConstructs : Prop :=
  ∀ s : State, s.seq = .idle →
    exec .new s = .next
      { s with
        rst := .holds .high
        trace := s.trace ++ [.rst .low, .delay s.cfg.resetLowMs, .rst .high, .delay s.cfg.resetWaitMs]
        partialMode := .holds true
        initialized := .holds false
        constructed := true
        seq := .idle
        response := some .ok
        saved := .unwritten }

/-- RESET: the reset pulse; `initialized` goes false if `RESET_CLEARS_INITIALIZED`, `partialMode` is kept (R122,
R123). What RESET does is the spec's own decision D13. -/
def Obligations.ResetPulsesAndKeepsTheMode : Prop :=
  ∀ s : State, s.accepts →
    exec .reset s = .next
      { s with
        rst := .holds .high
        trace := s.trace ++ [.rst .low, .delay s.cfg.resetLowMs, .rst .high, .delay s.cfg.resetWaitMs]
        initialized := if s.cfg.resetClearsInitialized then .holds false else s.initialized
        seq := .idle
        response := some .ok
        saved := .unwritten }

/-- SET_PARTIAL: both flags are written only if the mode changes, with no trace event (R124). -/
def Obligations.SetPartialWritesOnlyOnAChange : Prop :=
  ∀ (s : State) (m i : Bool), s.accepts → s.inMode m i →
    exec .setPartial s = .next
      { s with
        partialMode := .holds true
        initialized := .holds (m && i)
        seq := .idle
        response := some .ok
        saved := .unwritten }

/-- SET_FULL, the mirror of SET_PARTIAL (R125). -/
def Obligations.SetFullWritesOnlyOnAChange : Prop :=
  ∀ (s : State) (m i : Bool), s.accepts → s.inMode m i →
    exec .setFull s = .next
      { s with
        partialMode := .holds false
        initialized := .holds (!m && i)
        seq := .idle
        response := some .ok
        saved := .unwritten }

/-! ### ControllerDriver operations that send frames -/

/-- UPDATE: INIT first if and only if not initialised, then `<22: C4> <20> <FF>` (R111, R118, R128). -/
def Obligations.UpdateInitialisesIfNeededAndRefreshes : Prop :=
  ∀ (s : State) (m i : Bool) (fs : List (List Byte)), s.accepts → s.inMode m i →
    fs = (if i then [] else initFrames s.cfg m) ++ [[0x22#8, 0xC4#8], [0x20#8], [0xFF#8]] → s.readyFor fs →
      exec .update s = .next ({ s.sentFrames fs .cmd with initialized := .holds true } : State).finish

/-- SET_DISPLAY: INIT first if and only if not initialised, then the buffer's 4736 bytes in index order in one frame; the
buffer is unchanged (R111, R127). -/
def Obligations.SetDisplayInitialisesIfNeededAndStreams : Prop :=
  ∀ (s : State) (m i : Bool) (fb : Nat) (b : FrameBuffer) (fs : List (List Byte)), s.accepts → s.inMode m i →
    s.bufs[fb]? = some b →
    fs = (if i then [] else initFrames s.cfg m) ++ [0x24#8 :: (List.range fbBytes).map b.mem.get] → s.readyFor fs →
      exec (.setDisplay fb) s = .next ({ s.sentFrames fs .data with initialized := .holds true } : State).finish

/-- POWER_OFF: `<22: C3> <20>` from every state, then `initialized` false; the mode is kept (R129). -/
def Obligations.PowerOffSendsThePowerSequence : Prop :=
  ∀ s : State, s.accepts → s.readyFor [[0x22#8, 0xC3#8], [0x20#8]] →
    exec .powerOff s = .next
      ({ s.sentFrames [[0x22#8, 0xC3#8], [0x20#8]] .cmd with initialized := .holds false } : State).finish

/-- CLEAR: from every state the same 17 frames, INIT in full mode, 4736 bytes of `0xFF`, `<22: C4> <20> <FF>`; then the mode
is as before, and `initialized` is true exactly if the mode is full (R126; that INIT runs whatever the flag is the spec's
own decision D11). -/
def Obligations.ClearBlanksAndRestoresTheMode : Prop :=
  ∀ (s : State) (m i : Bool) (fs : List (List Byte)), s.accepts → s.inMode m i →
    fs = initFrames s.cfg false ++ [0x24#8 :: List.replicate 4736 0xFF#8] ++ [[0x22#8, 0xC4#8], [0x20#8], [0xFF#8]] →
    s.readyFor fs →
      exec .clear s = .next
        ({ s.sentFrames fs .cmd with partialMode := .holds m, initialized := .holds (!m) } : State).finish

/-- The transition table: the end state and the frames of every operation from each of the four states (R130), with
`RESET_CLEARS_INITIALIZED` at its default, ready and bus ok; SET_DISPLAY for every FrameBuffer there is, the other seven
whether there is one or not. The spec marks the table as its own derivation. -/
def Obligations.TransitionTable : Prop :=
  ∀ (s : State) (m i : Bool), s.accepts → s.inMode m i →
    s.cfg.resetClearsInitialized = true → (∀ n m', s.willAnswer n m') →
    let iF := initFrames s.cfg false
    let iP := initFrames s.cfg true
    let wBlank := [ramFrame blankBitmap]
    let u := updateFrames
    let o := powerFrames
    let pulse : List Event := [.rst .low, .delay s.cfg.resetLowMs, .rst .high, .delay s.cfg.resetWaitMs]
    let ends := fun (op : Instr) (after : Bool × Bool) (es : List Event) =>
      ∃ t, exec op s = .next t ∧ t.inMode after.1 after.2 ∧ t.seq = .idle ∧ t.response = some .ok ∧ t.trace = s.trace ++ es
    ends .new (tableRow stPu stPu stPu stPu m i) pulse
    ∧ ends .reset (tableRow stPu stFu stPu stFu m i) pulse
    ∧ ends .setPartial (tableRow stPu stPu stPi stPu m i) []
    ∧ ends .setFull (tableRow stFu stFu stFu stFi m i) []
    ∧ ends .clear (tableRow stPu stFi stPu stFi m i)
        (framesTrace (tableRow (iF ++ wBlank ++ u) (iF ++ wBlank ++ u) (iF ++ wBlank ++ u) (iF ++ wBlank ++ u) m i))
    ∧ (∀ fb b, s.bufs[fb]? = some b →
        let w := [ramFrame (memBytes b.mem)]
        ends (.setDisplay fb) (tableRow stPi stFi stPi stFi m i) (framesTrace (tableRow (iP ++ w) (iF ++ w) w w m i)))
    ∧ ends .update (tableRow stPi stFi stPi stFi m i) (framesTrace (tableRow (iP ++ u) (iF ++ u) u u m i))
    ∧ ends .powerOff (tableRow stPu stFu stPu stFu m i) (framesTrace (tableRow o o o o m i))

/-- The thirteen frames of INIT, byte for byte, in both modes with the default parameters; 63 transport bytes (R119). -/
def Obligations.InitFramesByteForByte : Prop :=
  initFrames defaultConfig false =
    [ [0x01#8, 0x27#8, 0x01#8, 0x00#8], [0x0C#8, 0xD7#8, 0xD6#8, 0x9D#8], [0x2C#8, 0xA8#8], [0x3A#8, 0x1A#8],
      [0x3B#8, 0x08#8], [0x11#8, 0x03#8], [0x44#8, 0x00#8, 0x0F#8], [0x45#8, 0x00#8, 0x00#8, 0x27#8, 0x01#8],
      [0x4E#8, 0x00#8], [0x4F#8, 0x00#8, 0x00#8],
      [0x32#8, 0x50#8, 0xAA#8, 0x55#8, 0xAA#8, 0x11#8] ++ List.replicate 15 0x00#8 ++ [0xFF#8, 0xFF#8, 0x1F#8]
        ++ List.replicate 7 0x00#8,
      [0x22#8, 0xC3#8], [0x20#8] ]
  ∧ initFrames defaultConfig true =
    [ [0x01#8, 0x27#8, 0x01#8, 0x00#8], [0x0C#8, 0xD7#8, 0xD6#8, 0x9D#8], [0x2C#8, 0xA8#8], [0x3A#8, 0x1A#8],
      [0x3B#8, 0x08#8], [0x11#8, 0x03#8], [0x44#8, 0x00#8, 0x0F#8], [0x45#8, 0x00#8, 0x00#8, 0x27#8, 0x01#8],
      [0x4E#8, 0x00#8], [0x4F#8, 0x00#8, 0x00#8],
      [0x32#8, 0x10#8, 0x18#8, 0x18#8, 0x08#8, 0x18#8, 0x18#8, 0x08#8] ++ List.replicate 13 0x00#8
        ++ [0x13#8, 0x14#8, 0x44#8, 0x12#8] ++ List.replicate 6 0x00#8,
      [0x22#8, 0xC3#8], [0x20#8] ]
  ∧ (initFrames defaultConfig false).flatten.length = 63
  ∧ (initFrames defaultConfig true).flatten.length = 63

/-- The mode influences nothing but the 30 payload bytes of frame 11 of INIT (R113, which the spec marks as its own
derivation). -/
def Obligations.ModeChangesOnlyTheTable : Prop :=
  ∀ c : Config, c.valid = true →
    (initFrames c true).length = 13 ∧ (initFrames c false).length = 13
    ∧ (∀ j, j ≠ 10 → (initFrames c true)[j]? = (initFrames c false)[j]?)
    ∧ (initFrames c true)[10]? = some (0x32#8 :: lutPartial) ∧ (initFrames c false)[10]? = some (0x32#8 :: c.lutFull)
    ∧ lutPartial.length = 30 ∧ c.lutFull.length = 30

/-- Event and byte counts of a frame, of INIT, of the RAM write, of UPDATE_SEQ and of POWER_OFF; a longer wait
adds `BUSY?=1` events and nothing else (R93, which the spec marks as its own derivation). -/
def Obligations.EventCounts : Prop :=
  (∀ (p : Nat) (op : Byte) (payload : List Byte),
    (frameTraceAfter p (op :: payload)).length = (if payload.length = 0 then 5 else 6 + payload.length) + p
      ∧ transport (frameTraceAfter p (op :: payload)) = (op :: payload).map .tx
      ∧ bytesSent (frameTraceAfter p (op :: payload)) = op :: payload
      ∧ (frameTraceAfter p (op :: payload)).count (.busy true) = p
      ∧ (frameTraceAfter p (op :: payload)).filter (· ≠ .busy true) = frameTrace (op :: payload))
  ∧ (∀ (c : Config) (m : Bool), c.valid = true →
    (initFrames c m).length = 13 ∧ (bytesSent (framesTrace (initFrames c m))).length = 63
      ∧ (framesTrace (initFrames c m)).length = 127)
  ∧ (∀ b : FrameBuffer, (bytesSent (frameTrace (ramFrame (memBytes b.mem)))).length = 4737
      ∧ (frameTrace (ramFrame (memBytes b.mem))).length = 4742)
  ∧ bytesSent (framesTrace updateFrames) = [0x22#8, 0xC4#8, 0x20#8, 0xFF#8] ∧ (framesTrace updateFrames).length = 17
  ∧ bytesSent (framesTrace powerFrames) = [0x22#8, 0xC3#8, 0x20#8] ∧ (framesTrace powerFrames).length = 12

/-! ### Failure of an operation -/

/-- Flags on failure, operation by operation and for a failure at any bus byte: writes made before the failing frame stand,
later ones do not happen, and CLEAR does not restore the mode (R140, by the spec's own decision D8). -/
def Obligations.FlagsAfterAFailure : Prop :=
  ∀ (s : State) (m i : Bool) (k : Nat) (e : TransportErr), s.accepts → s.inMode m i → s.cfg.valid = true →
    let ini := fun (p : Bool) => initFrames s.cfg p
    let fails := fun (op : Instr) (fs : List (List Byte)) (p' i' : Bool) =>
      k < fs.flatten.length → s.failsAt fs k e →
        ∃ t, exec op s = .next t ∧ t.seq = .idle ∧ t.response = some (.err (.transport e)) ∧ t.inMode p' i'
    fails .update ((if i then [] else ini m) ++ updateFrames) m (i || decide (63 ≤ k))
    ∧ (∀ fb b, s.bufs[fb]? = some b →
        fails (.setDisplay fb) ((if i then [] else ini m) ++ [ramFrame (memBytes b.mem)]) m (i || decide (63 ≤ k)))
    ∧ fails .powerOff powerFrames m i
    ∧ fails .clear (ini false ++ [ramFrame blankBitmap] ++ updateFrames) false ((!m && i) || decide (63 ≤ k))

/-- Pins and precision on failure: every micro-operation before the failing byte has been performed and none after it; at
the transport level the first `k` bytes are seen and then the failure (R10); chip-select is active, the data/command line as the failing byte's phase drove it, the reset line and the FrameBuffers
unchanged (R141; that chip-select stays active is the spec's own decision D9). -/
def Obligations.FailureIsPrecise : Prop :=
  ∀ (s : State) (m i : Bool) (k : Nat) (e : TransportErr), s.accepts → s.inMode m i →
    let fails := fun (op : Instr) (fs : List (List Byte)) =>
      k < fs.flatten.length → s.failsAt fs k e →
        ∃ t b, exec op s = .next t ∧ t.trace = s.trace ++ cutAt e k (framesTrace fs)
          ∧ fs.flatten[k]? = some b
          ∧ transport t.trace = transport s.trace ++ (fs.flatten.take k).map .tx ++ [.txFailed b e]
          ∧ t.cs = .holds .act ∧ t.dc = lastDc s.dc (cutAt e k (framesTrace fs)) ∧ t.rst = s.rst
          ∧ t.bufs = s.bufs ∧ t.constructed = true ∧ t.saved = .unwritten
    fails .update ((if i then [] else initFrames s.cfg m) ++ updateFrames)
    ∧ (∀ fb b, s.bufs[fb]? = some b →
        fails (.setDisplay fb) ((if i then [] else initFrames s.cfg m) ++ [ramFrame (memBytes b.mem)]))
    ∧ fails .powerOff powerFrames
    ∧ fails .clear (initFrames s.cfg false ++ [ramFrame blankBitmap] ++ updateFrames)

/-! ### The FrameBuffer packer -/

/-- FB_NEW: a new FrameBuffer of the variant asked for, all background; nothing else changes (R70). That its name is the
number of FrameBuffers made before it is the model's choice (notes/assumptions/2.md). -/
def Obligations.FbNewGivesABlankCanvas : Prop :=
  ∀ (s : State) (o : Orientation), s.seq = .idle →
    ∃ b : FrameBuffer,
      exec (.fbNew o) s = .next { s with bufs := s.bufs ++ [b], response := some (.frameBuffer s.bufs.length) }
        ∧ b.orient = o ∧ (∀ a < fbBytes, b.mem.get a = 0xFF#8) ∧ memBytes b.mem = List.replicate 4736 0xFF#8

/-- The bounds: with the default geometry a pixel has an address exactly if `0 <= x <= maxX` and `0 <= y <= maxY` for the
variant, and a draw outside leaves every FrameBuffer as it was, which is no error (R69, R74, R75). -/
def Obligations.OutOfBoundsPixelIsDiscarded : Prop :=
  (∀ x y : Int, pixelAddress defaultConfig .direct x y = none ↔ ¬ (0 ≤ x ∧ x ≤ 127 ∧ 0 ≤ y ∧ y ≤ 295))
  ∧ (∀ x y : Int, pixelAddress defaultConfig .rotatedLeft x y = none ↔ ¬ (0 ≤ x ∧ x ≤ 295 ∧ 0 ≤ y ∧ y ≤ 127))
  ∧ ∀ (s : State) (fb : Nat) (b : FrameBuffer) (x y color : Int), s.seq = .idle → s.bufs[fb]? = some b →
      pixelAddress s.cfg b.orient x y = none →
        exec (.fbDrawPixel fb x y color) s = .next { s with response := some .nothing }

/-- The `Direct` transform (R72). -/
def Obligations.DirectTransform : Prop :=
  ∀ x y : Nat, x ≤ 127 → y ≤ 295 →
    pixelAddress defaultConfig .direct x y = some (x / 8 + y * 16, 7 - x % 8) ∧ x / 8 + y * 16 ≤ 4735

/-- The `RotatedLeft` transform (R73). -/
def Obligations.RotatedLeftTransform : Prop :=
  ∀ x y : Nat, x ≤ 295 → y ≤ 127 →
    pixelAddress defaultConfig .rotatedLeft x y = some (y / 8 + (295 - x) * 16, 7 - y % 8)
      ∧ y / 8 + (295 - x) * 16 ≤ 4735

/-- Each transform is a bijection from its logical canvas onto the 37888 bits of the buffer, for every geometry that meets
R6 (R32, R42). -/
def Obligations.TransformIsABijection : Prop :=
  ∀ (c : Config) (o : Orientation), c.valid = true →
    (∀ (x y : Int) (a bit : Nat), pixelAddress c o x y = some (a, bit) → a < fbBytes ∧ bit < 8)
    ∧ ∀ a bit : Nat, a < fbBytes → bit < 8 → ∃! p : Int × Int, pixelAddress c o p.1 p.2 = some (a, bit)

/-- FB_DRAW_PIXEL in bounds: one bit of one byte of one FrameBuffer is written, foreground (0) for a colour other than zero,
background (1) for zero, whatever stood there; every other bit, FrameBuffer and field is as before (R59, R75, R79). -/
def Obligations.DrawPixelWritesOneBit : Prop :=
  ∀ (s : State) (fb : Nat) (b : FrameBuffer) (x y color : Int) (a bit : Nat),
    s.seq = .idle → s.cfg.valid = true → s.bufs[fb]? = some b → b.mem.wf = true →
    pixelAddress s.cfg b.orient x y = some (a, bit) →
      ∃ b' : FrameBuffer,
        exec (.fbDrawPixel fb x y color) s
          = .next { s with bufs := s.bufs.set fb b', response := some .nothing }
        ∧ b'.orient = b.orient
        ∧ ∀ a' j, j < 8 → (b'.mem.get a').getLsbD j
            = if a' = a ∧ j = bit then decide (color = 0) else (b.mem.get a').getLsbD j

/-- FB_GET_BUFFER answers the 4736 bytes in index order and changes nothing else (R77). -/
def Obligations.GetBufferReadsInScanOrder : Prop :=
  ∀ (s : State) (fb : Nat) (b : FrameBuffer), s.seq = .idle → s.bufs[fb]? = some b →
    ∃ l : List Byte, exec (.fbGetBuffer fb) s = .next { s with response := some (.bytes l) }
      ∧ l.length = 4736 ∧ ∀ a < 4736, l[a]? = some (b.mem.get a)

/-- FB_DRAW: pixel updates at different pixels may be exchanged; at the same pixel the later one wins (R76). -/
def Obligations.DrawOrderMattersOnlyOnTheSamePixel : Prop :=
  ∀ (c : Config) (b : FrameBuffer) (x y k x' y' k' : Int), c.valid = true → b.mem.wf = true →
    ∃ b1 b2 b3 : FrameBuffer, b.drawAll c [(x, y, k), (x', y', k')] = .ok b1
      ∧ b.drawAll c [(x', y', k'), (x, y, k)] = .ok b2 ∧ b.drawAll c [(x', y', k')] = .ok b3
      ∧ (pixelAddress c b.orient x y ≠ pixelAddress c b.orient x' y' → ∀ a, b1.mem.get a = b2.mem.get a)
      ∧ (pixelAddress c b.orient x y = pixelAddress c b.orient x' y' → ∀ a, b1.mem.get a = b3.mem.get a)

/-! ### What an operation leaves alone -/

/-- The FrameBuffer packer's operations make no trace event, read no pin and touch none of the ControllerDriver's state
(R80). -/
def Obligations.FramebufferOperationsLeaveTheControllerAlone : Prop :=
  ∀ (i : Instr) (s t : State), isFramebufferOp i = true → exec i s = .next t →
    t = { s with bufs := t.bufs, response := t.response }

/-- Whatever the environment answers, no ControllerDriver operation and no command touches a FrameBuffer, the parameters
or the host's further requests, and only NEW sets `constructed` (R28, R30, R156): not in one go, and in no step of a running
operation, whatever it has left to do. -/
def Obligations.ControllerOperationsKeepTheFramebuffers : Prop :=
  (∀ (i : Instr) (s t : State), isFramebufferOp i = false → exec i s = .next t →
    t.bufs = s.bufs ∧ t.cfg = s.cfg ∧ t.requests = s.requests ∧ (i ≠ .new → t.constructed = s.constructed))
  ∧ (∀ s t : State, s.seq ≠ .idle → step s = .next t →
    t.bufs = s.bufs ∧ t.cfg = s.cfg ∧ t.requests = s.requests
      ∧ (.construct ∉ s.seq.todo → t.constructed = s.constructed ∧ .construct ∉ t.seq.todo))
  ∧ ∀ (i : Instr) (s : State), .construct ∈ linesOf i s → i = .new

/-- Only NEW and RESET drive the reset line: every other instruction leaves the latch as it was and puts no reset event in
the trace, whatever the environment answers (R15, R91, R147), and so does every step of a running operation with no line
on the reset line left to do, after which none is left to do either; no other operation has such a line. -/
def Obligations.OnlyNewAndResetDriveTheResetLine : Prop :=
  (∀ (i : Instr) (s t : State), i ≠ .new → i ≠ .reset → exec i s = .next t →
    t.rst = s.rst ∧ ∃ es, t.trace = s.trace ++ es ∧ ∀ l, Event.rst l ∉ es)
  ∧ (∀ s t : State, s.seq ≠ .idle → s.seq.todo.any Task.drivesReset = false → step s = .next t →
    t.rst = s.rst ∧ t.seq.todo.any Task.drivesReset = false ∧ ∃ es, t.trace = s.trace ++ es ∧ ∀ l, Event.rst l ∉ es)
  ∧ ∀ (i : Instr) (s : State), (linesOf i s).any Task.drivesReset = true → i = .new ∨ i = .reset

/-- One `exec`: where it leaves `initialized` true, it either found it true and kept the mode, or sent, without a busy answer,
the thirteen frames of INIT with the table of the mode it leaves (R17, R18, R112; that the flag is written after the last
frame is the spec's own decision D12, notes/assumptions/14.md). Of an operation that waits and is taken up again by later
steps, `EveryStepKeepsWhatInitializedPromises` speaks. -/
def Obligations.InitializedOnlyByInit : Prop :=
  ∀ (i : Instr) (s t : State), exec i s = .next t → t.initialized = .holds true →
    (s.initialized = .holds true ∧ t.partialMode = s.partialMode)
    ∨ ∃ pre post, t.trace = s.trace ++ pre ++ framesTrace (initFrames s.cfg t.isPartial) ++ post

/-- Every step only adds to the trace, and each output latch holds the level last driven (R10, R20, R81). -/
def Obligations.LatchesHoldTheLevelLastDriven : Prop :=
  ∀ s t : State, step s = .next t →
    ∃ es, t.trace = s.trace ++ es ∧ t.cs = lastCs s.cs es ∧ t.dc = lastDc s.dc es ∧ t.rst = lastRst s.rst es

/-! ### Reset and the invariant -/

/-- The reset values of R29 that concern the block: at block power-on (by the spec's own decisions D17 to D19), after NEW,
after FB_NEW. -/
def Obligations.ResetValues : Prop :=
  (State.reset.partialMode = .unwritten ∧ State.reset.initialized = .unwritten ∧ State.reset.rst = .unwritten
    ∧ State.reset.cs = .unwritten ∧ State.reset.dc = .unwritten ∧ State.reset.seq = .idle
    ∧ State.reset.constructed = false ∧ State.reset.saved = .unwritten ∧ State.reset.bufs = [])
  ∧ (∃ t, exec .new State.reset = .next t ∧ t.partialMode = .holds true ∧ t.initialized = .holds false
    ∧ t.rst = .holds .high ∧ t.cs = .unwritten ∧ t.dc = .unwritten ∧ t.seq = .idle ∧ t.constructed = true
    ∧ t.saved = .unwritten ∧ t.bufs = [])
  ∧ (∀ o, ∃ t b, exec (.fbNew o) State.reset = .next t ∧ t.bufs = [b] ∧ b.orient = o
    ∧ (∀ a < 4736, b.mem.get a = 0xFF#8) ∧ t.partialMode = .unwritten ∧ t.initialized = .unwritten
    ∧ t.rst = .unwritten ∧ t.cs = .unwritten ∧ t.dc = .unwritten ∧ t.seq = .idle ∧ t.constructed = false)

/-- The invariant holds at block power-on. -/
def Obligations.InvariantHoldsAtPowerOn : Prop := State.reset.Inv

/-- Every step keeps the invariant: the parameters, the canonical form of memory and the addresses in it, no read of an
unwritten flag, `saved` only inside CLEAR, only the fifteen commands at the sequencer, and the framing of every byte in its
own chip-select window after a ready poll (R11, R27, R29, R31, R51, R61, R92, R161). -/
def Obligations.EveryStepKeepsTheInvariant : Prop :=
  ∀ s t : State, s.Inv → step s = .next t → t.Inv

/-- In a safe state the block never stops: no address outside the framebuffer is ever formed (R31), no frame is unknown
(R61), no failure is a fault of the machine (R134, R136). -/
def Obligations.SafeStateAlwaysSteps : Prop :=
  ∀ s : State, s.Inv → ∃ t, step s = .next t

/-- Big step and small step agree (R22): what `exec` does with an accepted CTL operation in one go is what the steps of the
sequencer, one line of the operation's pseudocode at a time, come to, whatever the environment answers. -/
def Obligations.BigStepAgreesWithSmallSteps : Prop :=
  ∀ (i : Instr) (s t : State), isControllerOp i = true → s.cfg.valid = true → s.seq = .idle →
    (i = .new ∨ s.constructed = true) → (∀ fb, i = .setDisplay fb → s.bufs[fb]?.isSome = true) →
    exec i s = .next t →
      ∃ n ≤ driveFuel, steps n (s.start i (linesOf i s)) = .next t

/-! ### What `initialized` promises -/

/-- At block power-on `initialized` promises nothing and nothing is left to do. -/
def Obligations.InitializedPromisesNothingAtPowerOn : Prop := State.reset.InitInv

/-- Every step keeps what `initialized` promises, in one go or taken up again after any wait: while the flag is true, a whole
INIT with the table of the present mode stands in the trace and the waveform table sent last, whole, is that of the present
mode; where `initialized <- true` is still to come, the lines left before it complete such an INIT (R17, R18, R112, R113;
that the flag is written after the last frame is the spec's own decision D12, notes/assumptions/14.md; which frames of a trace
with a failure are whole is the model's choice, notes/assumptions/20.md). -/
def Obligations.EveryStepKeepsWhatInitializedPromises : Prop :=
  ∀ s t : State, s.InitInv → step s = .next t → t.InitInv

/-! ### Waits -/

/-- A wait changes nothing but the trace, for every ControllerDriver operation and whatever the bus answers, a failure
among it: with any number of busy answers before each ready one (fewer than `BUSY_BOUND`, if there is one), the steps after
`exec` reach the end the operation has with a controller ready at once, and the trace differs from that one's by `BUSY?=1`
events only (R85, R93). How many steps it takes is the model's granularity (notes/assumptions/4.md). -/
def Obligations.WaitingChangesOnlyTheTrace : Prop :=
  ∀ (i : Instr) (s t' : State), isControllerOp i = true → s.cfg.valid = true → s.seq = .idle → s.endsEveryWait →
    exec i s.readyAtOnce = .next t' →
      ∃ u n es, exec i s = .next u
        ∧ t'.trace = s.trace ++ es.filter (· ≠ .busy true)
        ∧ t'.seq = .idle
        ∧ steps n u = .next
            { t' with
              trace := s.trace ++ es
              busyIn := s.busyIn.drop (es.countP Event.isPoll)
              polls := s.polls + es.countP Event.isPoll }

/-! ### The pins -/

/-- "A pin write that drives a line to the level it already has is recorded in the trace and changes nothing on the wire; two
traces that differ only in such writes are indistinguishable at the pins" (R10, by the spec's own decision D20). The last
clause is the first frame after a failed one, whose `CS=act` finds the line active (R88). -/
def Obligations.RedundantPinWritesDoNotShow : Prop :=
  (∀ (cs : Latch CsLevel) (dc : Latch DcLevel) (rst : Latch Level) (es fs : List Event) (e : Event),
    e.redundant (lastCs cs es) (lastDc dc es) (lastRst rst es) = true →
      pinView cs dc rst (es ++ e :: fs) = pinView cs dc rst (es ++ fs))
  ∧ (∀ (cs : Latch CsLevel) (dc : Latch DcLevel) (rst : Latch Level) (es : List Event),
    lastCs cs (pinView cs dc rst es) = lastCs cs es ∧ lastDc dc (pinView cs dc rst es) = lastDc dc es
      ∧ lastRst rst (pinView cs dc rst es) = lastRst rst es ∧ transport (pinView cs dc rst es) = transport es
      ∧ pinView cs dc rst (pinView cs dc rst es) = pinView cs dc rst es)
  ∧ ∀ (op : Byte) (payload : List Byte) (dc : Latch DcLevel) (rst : Latch Level),
    Event.cs .act :: pinView (.holds .act) dc rst (frameTrace (op :: payload))
      = pinView (.holds .inact) dc rst (frameTrace (op :: payload))
end

