-- ==== Sys2Proof/Laws/State.lean ====
section
/-! SUPPORT. What each named update of the state leaves in each field, so that no proof unfolds a record update. -/

namespace Sys2Proof.Machine

/-! ### `pinCs` -/

@[simp] theorem State.pinCs_cfg (s : State) (l : CsLevel) : (s.pinCs l).cfg = s.cfg := rfl
@[simp] theorem State.pinCs_partialMode (s : State) (l : CsLevel) : (s.pinCs l).partialMode = s.partialMode := rfl
@[simp] theorem State.pinCs_initialized (s : State) (l : CsLevel) : (s.pinCs l).initialized = s.initialized := rfl
@[simp] theorem State.pinCs_constructed (s : State) (l : CsLevel) : (s.pinCs l).constructed = s.constructed := rfl
@[simp] theorem State.pinCs_saved (s : State) (l : CsLevel) : (s.pinCs l).saved = s.saved := rfl
@[simp] theorem State.pinCs_cs (s : State) (l : CsLevel) : (s.pinCs l).cs = .holds l := rfl
@[simp] theorem State.pinCs_dc (s : State) (l : CsLevel) : (s.pinCs l).dc = s.dc := rfl
@[simp] theorem State.pinCs_rst (s : State) (l : CsLevel) : (s.pinCs l).rst = s.rst := rfl
@[simp] theorem State.pinCs_seq (s : State) (l : CsLevel) : (s.pinCs l).seq = s.seq.tick := rfl
@[simp] theorem State.pinCs_bufs (s : State) (l : CsLevel) : (s.pinCs l).bufs = s.bufs := rfl
@[simp] theorem State.pinCs_requests (s : State) (l : CsLevel) : (s.pinCs l).requests = s.requests := rfl
@[simp] theorem State.pinCs_response (s : State) (l : CsLevel) : (s.pinCs l).response = s.response := rfl
@[simp] theorem State.pinCs_busyIn (s : State) (l : CsLevel) : (s.pinCs l).busyIn = s.busyIn := rfl
@[simp] theorem State.pinCs_busIn (s : State) (l : CsLevel) : (s.pinCs l).busIn = s.busIn := rfl
@[simp] theorem State.pinCs_polls (s : State) (l : CsLevel) : (s.pinCs l).polls = s.polls := rfl
@[simp] theorem State.pinCs_sent (s : State) (l : CsLevel) : (s.pinCs l).sent = s.sent := rfl
@[simp] theorem State.pinCs_trace (s : State) (l : CsLevel) : (s.pinCs l).trace = s.trace ++ [.cs l] := rfl

/-! ### `pinDc` -/

@[simp] theorem State.pinDc_cfg (s : State) (l : DcLevel) : (s.pinDc l).cfg = s.cfg := rfl
@[simp] theorem State.pinDc_partialMode (s : State) (l : DcLevel) : (s.pinDc l).partialMode = s.partialMode := rfl
@[simp] theorem State.pinDc_initialized (s : State) (l : DcLevel) : (s.pinDc l).initialized = s.initialized := rfl
@[simp] theorem State.pinDc_constructed (s : State) (l : DcLevel) : (s.pinDc l).constructed = s.constructed := rfl
@[simp] theorem State.pinDc_saved (s : State) (l : DcLevel) : (s.pinDc l).saved = s.saved := rfl
@[simp] theorem State.pinDc_cs (s : State) (l : DcLevel) : (s.pinDc l).cs = s.cs := rfl
@[simp] theorem State.pinDc_dc (s : State) (l : DcLevel) : (s.pinDc l).dc = .holds l := rfl
@[simp] theorem State.pinDc_rst (s : State) (l : DcLevel) : (s.pinDc l).rst = s.rst := rfl
@[simp] theorem State.pinDc_seq (s : State) (l : DcLevel) : (s.pinDc l).seq = s.seq.tick := rfl
@[simp] theorem State.pinDc_bufs (s : State) (l : DcLevel) : (s.pinDc l).bufs = s.bufs := rfl
@[simp] theorem State.pinDc_requests (s : State) (l : DcLevel) : (s.pinDc l).requests = s.requests := rfl
@[simp] theorem State.pinDc_response (s : State) (l : DcLevel) : (s.pinDc l).response = s.response := rfl
@[simp] theorem State.pinDc_busyIn (s : State) (l : DcLevel) : (s.pinDc l).busyIn = s.busyIn := rfl
@[simp] theorem State.pinDc_busIn (s : State) (l : DcLevel) : (s.pinDc l).busIn = s.busIn := rfl
@[simp] theorem State.pinDc_polls (s : State) (l : DcLevel) : (s.pinDc l).polls = s.polls := rfl
@[simp] theorem State.pinDc_sent (s : State) (l : DcLevel) : (s.pinDc l).sent = s.sent := rfl
@[simp] theorem State.pinDc_trace (s : State) (l : DcLevel) : (s.pinDc l).trace = s.trace ++ [.dc l] := rfl

/-! ### `pinRst` -/

@[simp] theorem State.pinRst_cfg (s : State) (l : Level) : (s.pinRst l).cfg = s.cfg := rfl
@[simp] theorem State.pinRst_partialMode (s : State) (l : Level) : (s.pinRst l).partialMode = s.partialMode := rfl
@[simp] theorem State.pinRst_initialized (s : State) (l : Level) : (s.pinRst l).initialized = s.initialized := rfl
@[simp] theorem State.pinRst_constructed (s : State) (l : Level) : (s.pinRst l).constructed = s.constructed := rfl
@[simp] theorem State.pinRst_saved (s : State) (l : Level) : (s.pinRst l).saved = s.saved := rfl
@[simp] theorem State.pinRst_cs (s : State) (l : Level) : (s.pinRst l).cs = s.cs := rfl
@[simp] theorem State.pinRst_dc (s : State) (l : Level) : (s.pinRst l).dc = s.dc := rfl
@[simp] theorem State.pinRst_rst (s : State) (l : Level) : (s.pinRst l).rst = .holds l := rfl
@[simp] theorem State.pinRst_seq (s : State) (l : Level) : (s.pinRst l).seq = s.seq.tick := rfl
@[simp] theorem State.pinRst_bufs (s : State) (l : Level) : (s.pinRst l).bufs = s.bufs := rfl
@[simp] theorem State.pinRst_requests (s : State) (l : Level) : (s.pinRst l).requests = s.requests := rfl
@[simp] theorem State.pinRst_response (s : State) (l : Level) : (s.pinRst l).response = s.response := rfl
@[simp] theorem State.pinRst_busyIn (s : State) (l : Level) : (s.pinRst l).busyIn = s.busyIn := rfl
@[simp] theorem State.pinRst_busIn (s : State) (l : Level) : (s.pinRst l).busIn = s.busIn := rfl
@[simp] theorem State.pinRst_polls (s : State) (l : Level) : (s.pinRst l).polls = s.polls := rfl
@[simp] theorem State.pinRst_sent (s : State) (l : Level) : (s.pinRst l).sent = s.sent := rfl
@[simp] theorem State.pinRst_trace (s : State) (l : Level) : (s.pinRst l).trace = s.trace ++ [.rst l] := rfl

/-! ### `delayMs` -/

@[simp] theorem State.delayMs_cfg (s : State) (n : Nat) : (s.delayMs n).cfg = s.cfg := rfl
@[simp] theorem State.delayMs_partialMode (s : State) (n : Nat) : (s.delayMs n).partialMode = s.partialMode := rfl
@[simp] theorem State.delayMs_initialized (s : State) (n : Nat) : (s.delayMs n).initialized = s.initialized := rfl
@[simp] theorem State.delayMs_constructed (s : State) (n : Nat) : (s.delayMs n).constructed = s.constructed := rfl
@[simp] theorem State.delayMs_saved (s : State) (n : Nat) : (s.delayMs n).saved = s.saved := rfl
@[simp] theorem State.delayMs_cs (s : State) (n : Nat) : (s.delayMs n).cs = s.cs := rfl
@[simp] theorem State.delayMs_dc (s : State) (n : Nat) : (s.delayMs n).dc = s.dc := rfl
@[simp] theorem State.delayMs_rst (s : State) (n : Nat) : (s.delayMs n).rst = s.rst := rfl
@[simp] theorem State.delayMs_seq (s : State) (n : Nat) : (s.delayMs n).seq = s.seq.tick := rfl
@[simp] theorem State.delayMs_bufs (s : State) (n : Nat) : (s.delayMs n).bufs = s.bufs := rfl
@[simp] theorem State.delayMs_requests (s : State) (n : Nat) : (s.delayMs n).requests = s.requests := rfl
@[simp] theorem State.delayMs_response (s : State) (n : Nat) : (s.delayMs n).response = s.response := rfl
@[simp] theorem State.delayMs_busyIn (s : State) (n : Nat) : (s.delayMs n).busyIn = s.busyIn := rfl
@[simp] theorem State.delayMs_busIn (s : State) (n : Nat) : (s.delayMs n).busIn = s.busIn := rfl
@[simp] theorem State.delayMs_polls (s : State) (n : Nat) : (s.delayMs n).polls = s.polls := rfl
@[simp] theorem State.delayMs_sent (s : State) (n : Nat) : (s.delayMs n).sent = s.sent := rfl
@[simp] theorem State.delayMs_trace (s : State) (n : Nat) : (s.delayMs n).trace = s.trace ++ [.delay n] := rfl

/-! ### `afterPoll` -/

@[simp] theorem State.afterPoll_cfg (s : State) (a : Bool) : (s.afterPoll a).cfg = s.cfg := rfl
@[simp] theorem State.afterPoll_partialMode (s : State) (a : Bool) : (s.afterPoll a).partialMode = s.partialMode := rfl
@[simp] theorem State.afterPoll_initialized (s : State) (a : Bool) : (s.afterPoll a).initialized = s.initialized := rfl
@[simp] theorem State.afterPoll_constructed (s : State) (a : Bool) : (s.afterPoll a).constructed = s.constructed := rfl
@[simp] theorem State.afterPoll_saved (s : State) (a : Bool) : (s.afterPoll a).saved = s.saved := rfl
@[simp] theorem State.afterPoll_cs (s : State) (a : Bool) : (s.afterPoll a).cs = s.cs := rfl
@[simp] theorem State.afterPoll_dc (s : State) (a : Bool) : (s.afterPoll a).dc = s.dc := rfl
@[simp] theorem State.afterPoll_rst (s : State) (a : Bool) : (s.afterPoll a).rst = s.rst := rfl
@[simp] theorem State.afterPoll_seq (s : State) (a : Bool) : (s.afterPoll a).seq = s.seq := rfl
@[simp] theorem State.afterPoll_bufs (s : State) (a : Bool) : (s.afterPoll a).bufs = s.bufs := rfl
@[simp] theorem State.afterPoll_requests (s : State) (a : Bool) : (s.afterPoll a).requests = s.requests := rfl
@[simp] theorem State.afterPoll_response (s : State) (a : Bool) : (s.afterPoll a).response = s.response := rfl
@[simp] theorem State.afterPoll_busyIn (s : State) (a : Bool) : (s.afterPoll a).busyIn = s.busyIn.drop 1 := rfl
@[simp] theorem State.afterPoll_busIn (s : State) (a : Bool) : (s.afterPoll a).busIn = s.busIn := rfl
@[simp] theorem State.afterPoll_polls (s : State) (a : Bool) : (s.afterPoll a).polls = s.polls + 1 := rfl
@[simp] theorem State.afterPoll_sent (s : State) (a : Bool) : (s.afterPoll a).sent = s.sent := rfl
@[simp] theorem State.afterPoll_trace (s : State) (a : Bool) : (s.afterPoll a).trace = s.trace ++ [.busy a] := rfl

/-! ### `tick` -/

@[simp] theorem State.tick_cfg (s : State) : s.tick.cfg = s.cfg := rfl
@[simp] theorem State.tick_partialMode (s : State) : s.tick.partialMode = s.partialMode := rfl
@[simp] theorem State.tick_initialized (s : State) : s.tick.initialized = s.initialized := rfl
@[simp] theorem State.tick_constructed (s : State) : s.tick.constructed = s.constructed := rfl
@[simp] theorem State.tick_saved (s : State) : s.tick.saved = s.saved := rfl
@[simp] theorem State.tick_cs (s : State) : s.tick.cs = s.cs := rfl
@[simp] theorem State.tick_dc (s : State) : s.tick.dc = s.dc := rfl
@[simp] theorem State.tick_rst (s : State) : s.tick.rst = s.rst := rfl
@[simp] theorem State.tick_seq (s : State) : s.tick.seq = s.seq.tick := rfl
@[simp] theorem State.tick_bufs (s : State) : s.tick.bufs = s.bufs := rfl
@[simp] theorem State.tick_requests (s : State) : s.tick.requests = s.requests := rfl
@[simp] theorem State.tick_response (s : State) : s.tick.response = s.response := rfl
@[simp] theorem State.tick_busyIn (s : State) : s.tick.busyIn = s.busyIn := rfl
@[simp] theorem State.tick_busIn (s : State) : s.tick.busIn = s.busIn := rfl
@[simp] theorem State.tick_polls (s : State) : s.tick.polls = s.polls := rfl
@[simp] theorem State.tick_sent (s : State) : s.tick.sent = s.sent := rfl
@[simp] theorem State.tick_trace (s : State) : s.tick.trace = s.trace := rfl

/-! ### `afterTx` -/

@[simp] theorem State.afterTx_cfg (s : State) (b : Byte) (r : Option TransportErr) : (s.afterTx b r).cfg = s.cfg := rfl
@[simp] theorem State.afterTx_partialMode (s : State) (b : Byte) (r : Option TransportErr) : (s.afterTx b r).partialMode = s.partialMode := rfl
@[simp] theorem State.afterTx_initialized (s : State) (b : Byte) (r : Option TransportErr) : (s.afterTx b r).initialized = s.initialized := rfl
@[simp] theorem State.afterTx_constructed (s : State) (b : Byte) (r : Option TransportErr) : (s.afterTx b r).constructed = s.constructed := rfl
@[simp] theorem State.afterTx_saved (s : State) (b : Byte) (r : Option TransportErr) : (s.afterTx b r).saved = s.saved := rfl
@[simp] theorem State.afterTx_cs (s : State) (b : Byte) (r : Option TransportErr) : (s.afterTx b r).cs = s.cs := rfl
@[simp] theorem State.afterTx_dc (s : State) (b : Byte) (r : Option TransportErr) : (s.afterTx b r).dc = s.dc := rfl
@[simp] theorem State.afterTx_rst (s : State) (b : Byte) (r : Option TransportErr) : (s.afterTx b r).rst = s.rst := rfl
@[simp] theorem State.afterTx_seq (s : State) (b : Byte) (r : Option TransportErr) : (s.afterTx b r).seq = s.seq.tick := rfl
@[simp] theorem State.afterTx_bufs (s : State) (b : Byte) (r : Option TransportErr) : (s.afterTx b r).bufs = s.bufs := rfl
@[simp] theorem State.afterTx_requests (s : State) (b : Byte) (r : Option TransportErr) : (s.afterTx b r).requests = s.requests := rfl
@[simp] theorem State.afterTx_response (s : State) (b : Byte) (r : Option TransportErr) : (s.afterTx b r).response = s.response := rfl
@[simp] theorem State.afterTx_busyIn (s : State) (b : Byte) (r : Option TransportErr) : (s.afterTx b r).busyIn = s.busyIn := rfl
@[simp] theorem State.afterTx_busIn (s : State) (b : Byte) (r : Option TransportErr) : (s.afterTx b r).busIn = s.busIn.drop 1 := rfl
@[simp] theorem State.afterTx_polls (s : State) (b : Byte) (r : Option TransportErr) : (s.afterTx b r).polls = s.polls := rfl
@[simp] theorem State.afterTx_sent (s : State) (b : Byte) (r : Option TransportErr) : (s.afterTx b r).sent = s.sent + 1 := rfl
@[simp] theorem State.afterTx_trace (s : State) (b : Byte) (r : Option TransportErr) :
    (s.afterTx b r).trace = s.trace ++ [match r with | none => .tx b | some e => .txFailed b e] := rfl

/-! ### `push` -/

@[simp] theorem State.push_cfg (s : State) (ts : List Task) : (s.push ts).cfg = s.cfg := rfl
@[simp] theorem State.push_partialMode (s : State) (ts : List Task) : (s.push ts).partialMode = s.partialMode := rfl
@[simp] theorem State.push_initialized (s : State) (ts : List Task) : (s.push ts).initialized = s.initialized := rfl
@[simp] theorem State.push_constructed (s : State) (ts : List Task) : (s.push ts).constructed = s.constructed := rfl
@[simp] theorem State.push_saved (s : State) (ts : List Task) : (s.push ts).saved = s.saved := rfl
@[simp] theorem State.push_cs (s : State) (ts : List Task) : (s.push ts).cs = s.cs := rfl
@[simp] theorem State.push_dc (s : State) (ts : List Task) : (s.push ts).dc = s.dc := rfl
@[simp] theorem State.push_rst (s : State) (ts : List Task) : (s.push ts).rst = s.rst := rfl
@[simp] theorem State.push_seq (s : State) (ts : List Task) : (s.push ts).seq = s.seq.push ts := rfl
@[simp] theorem State.push_bufs (s : State) (ts : List Task) : (s.push ts).bufs = s.bufs := rfl
@[simp] theorem State.push_requests (s : State) (ts : List Task) : (s.push ts).requests = s.requests := rfl
@[simp] theorem State.push_response (s : State) (ts : List Task) : (s.push ts).response = s.response := rfl
@[simp] theorem State.push_busyIn (s : State) (ts : List Task) : (s.push ts).busyIn = s.busyIn := rfl
@[simp] theorem State.push_busIn (s : State) (ts : List Task) : (s.push ts).busIn = s.busIn := rfl
@[simp] theorem State.push_polls (s : State) (ts : List Task) : (s.push ts).polls = s.polls := rfl
@[simp] theorem State.push_sent (s : State) (ts : List Task) : (s.push ts).sent = s.sent := rfl
@[simp] theorem State.push_trace (s : State) (ts : List Task) : (s.push ts).trace = s.trace := rfl

/-! ### `popTo` -/

@[simp] theorem State.popTo_cfg (s : State) (op : Instr) (k : Nat) (ts : List Task) : (s.popTo op k ts).cfg = s.cfg := rfl
@[simp] theorem State.popTo_partialMode (s : State) (op : Instr) (k : Nat) (ts : List Task) : (s.popTo op k ts).partialMode = s.partialMode := rfl
@[simp] theorem State.popTo_initialized (s : State) (op : Instr) (k : Nat) (ts : List Task) : (s.popTo op k ts).initialized = s.initialized := rfl
@[simp] theorem State.popTo_constructed (s : State) (op : Instr) (k : Nat) (ts : List Task) : (s.popTo op k ts).constructed = s.constructed := rfl
@[simp] theorem State.popTo_saved (s : State) (op : Instr) (k : Nat) (ts : List Task) : (s.popTo op k ts).saved = s.saved := rfl
@[simp] theorem State.popTo_cs (s : State) (op : Instr) (k : Nat) (ts : List Task) : (s.popTo op k ts).cs = s.cs := rfl
@[simp] theorem State.popTo_dc (s : State) (op : Instr) (k : Nat) (ts : List Task) : (s.popTo op k ts).dc = s.dc := rfl
@[simp] theorem State.popTo_rst (s : State) (op : Instr) (k : Nat) (ts : List Task) : (s.popTo op k ts).rst = s.rst := rfl
@[simp] theorem State.popTo_seq (s : State) (op : Instr) (k : Nat) (ts : List Task) : (s.popTo op k ts).seq = .run op k ts := rfl
@[simp] theorem State.popTo_bufs (s : State) (op : Instr) (k : Nat) (ts : List Task) : (s.popTo op k ts).bufs = s.bufs := rfl
@[simp] theorem State.popTo_requests (s : State) (op : Instr) (k : Nat) (ts : List Task) : (s.popTo op k ts).requests = s.requests := rfl
@[simp] theorem State.popTo_response (s : State) (op : Instr) (k : Nat) (ts : List Task) : (s.popTo op k ts).response = s.response := rfl
@[simp] theorem State.popTo_busyIn (s : State) (op : Instr) (k : Nat) (ts : List Task) : (s.popTo op k ts).busyIn = s.busyIn := rfl
@[simp] theorem State.popTo_busIn (s : State) (op : Instr) (k : Nat) (ts : List Task) : (s.popTo op k ts).busIn = s.busIn := rfl
@[simp] theorem State.popTo_polls (s : State) (op : Instr) (k : Nat) (ts : List Task) : (s.popTo op k ts).polls = s.polls := rfl
@[simp] theorem State.popTo_sent (s : State) (op : Instr) (k : Nat) (ts : List Task) : (s.popTo op k ts).sent = s.sent := rfl
@[simp] theorem State.popTo_trace (s : State) (op : Instr) (k : Nat) (ts : List Task) : (s.popTo op k ts).trace = s.trace := rfl

/-! ### `start` -/

@[simp] theorem State.start_cfg (s : State) (op : Instr) (ts : List Task) : (s.start op ts).cfg = s.cfg := rfl
@[simp] theorem State.start_partialMode (s : State) (op : Instr) (ts : List Task) : (s.start op ts).partialMode = s.partialMode := rfl
@[simp] theorem State.start_initialized (s : State) (op : Instr) (ts : List Task) : (s.start op ts).initialized = s.initialized := rfl
@[simp] theorem State.start_constructed (s : State) (op : Instr) (ts : List Task) : (s.start op ts).constructed = s.constructed := rfl
@[simp] theorem State.start_saved (s : State) (op : Instr) (ts : List Task) : (s.start op ts).saved = s.saved := rfl
@[simp] theorem State.start_cs (s : State) (op : Instr) (ts : List Task) : (s.start op ts).cs = s.cs := rfl
@[simp] theorem State.start_dc (s : State) (op : Instr) (ts : List Task) : (s.start op ts).dc = s.dc := rfl
@[simp] theorem State.start_rst (s : State) (op : Instr) (ts : List Task) : (s.start op ts).rst = s.rst := rfl
@[simp] theorem State.start_seq (s : State) (op : Instr) (ts : List Task) : (s.start op ts).seq = .run op 0 ts := rfl
@[simp] theorem State.start_bufs (s : State) (op : Instr) (ts : List Task) : (s.start op ts).bufs = s.bufs := rfl
@[simp] theorem State.start_requests (s : State) (op : Instr) (ts : List Task) : (s.start op ts).requests = s.requests := rfl
@[simp] theorem State.start_response (s : State) (op : Instr) (ts : List Task) : (s.start op ts).response = none := rfl
@[simp] theorem State.start_busyIn (s : State) (op : Instr) (ts : List Task) : (s.start op ts).busyIn = s.busyIn := rfl
@[simp] theorem State.start_busIn (s : State) (op : Instr) (ts : List Task) : (s.start op ts).busIn = s.busIn := rfl
@[simp] theorem State.start_polls (s : State) (op : Instr) (ts : List Task) : (s.start op ts).polls = s.polls := rfl
@[simp] theorem State.start_sent (s : State) (op : Instr) (ts : List Task) : (s.start op ts).sent = s.sent := rfl
@[simp] theorem State.start_trace (s : State) (op : Instr) (ts : List Task) : (s.start op ts).trace = s.trace := rfl

/-! ### `finish` -/

@[simp] theorem State.finish_cfg (s : State) : s.finish.cfg = s.cfg := rfl
@[simp] theorem State.finish_partialMode (s : State) : s.finish.partialMode = s.partialMode := rfl
@[simp] theorem State.finish_initialized (s : State) : s.finish.initialized = s.initialized := rfl
@[simp] theorem State.finish_constructed (s : State) : s.finish.constructed = s.constructed := rfl
@[simp] theorem State.finish_saved (s : State) : s.finish.saved = .unwritten := rfl
@[simp] theorem State.finish_cs (s : State) : s.finish.cs = s.cs := rfl
@[simp] theorem State.finish_dc (s : State) : s.finish.dc = s.dc := rfl
@[simp] theorem State.finish_rst (s : State) : s.finish.rst = s.rst := rfl
@[simp] theorem State.finish_seq (s : State) : s.finish.seq = .idle := rfl
@[simp] theorem State.finish_bufs (s : State) : s.finish.bufs = s.bufs := rfl
@[simp] theorem State.finish_requests (s : State) : s.finish.requests = s.requests := rfl
@[simp] theorem State.finish_response (s : State) : s.finish.response = some .ok := rfl
@[simp] theorem State.finish_busyIn (s : State) : s.finish.busyIn = s.busyIn := rfl
@[simp] theorem State.finish_busIn (s : State) : s.finish.busIn = s.busIn := rfl
@[simp] theorem State.finish_polls (s : State) : s.finish.polls = s.polls := rfl
@[simp] theorem State.finish_sent (s : State) : s.finish.sent = s.sent := rfl
@[simp] theorem State.finish_trace (s : State) : s.finish.trace = s.trace := rfl

/-! ### `raise` -/

@[simp] theorem State.raise_cfg (s : State) (e : Error) : (s.raise e).cfg = s.cfg := rfl
@[simp] theorem State.raise_partialMode (s : State) (e : Error) : (s.raise e).partialMode = s.partialMode := rfl
@[simp] theorem State.raise_initialized (s : State) (e : Error) : (s.raise e).initialized = s.initialized := rfl
@[simp] theorem State.raise_constructed (s : State) (e : Error) : (s.raise e).constructed = s.constructed := rfl
@[simp] theorem State.raise_saved (s : State) (e : Error) : (s.raise e).saved = .unwritten := rfl
@[simp] theorem State.raise_cs (s : State) (e : Error) : (s.raise e).cs = s.cs := rfl
@[simp] theorem State.raise_dc (s : State) (e : Error) : (s.raise e).dc = s.dc := rfl
@[simp] theorem State.raise_rst (s : State) (e : Error) : (s.raise e).rst = s.rst := rfl
@[simp] theorem State.raise_seq (s : State) (e : Error) : (s.raise e).seq = .idle := rfl
@[simp] theorem State.raise_bufs (s : State) (e : Error) : (s.raise e).bufs = s.bufs := rfl
@[simp] theorem State.raise_requests (s : State) (e : Error) : (s.raise e).requests = s.requests := rfl
@[simp] theorem State.raise_response (s : State) (e : Error) : (s.raise e).response = some (.err e) := rfl
@[simp] theorem State.raise_busyIn (s : State) (e : Error) : (s.raise e).busyIn = s.busyIn := rfl
@[simp] theorem State.raise_busIn (s : State) (e : Error) : (s.raise e).busIn = s.busIn := rfl
@[simp] theorem State.raise_polls (s : State) (e : Error) : (s.raise e).polls = s.polls := rfl
@[simp] theorem State.raise_sent (s : State) (e : Error) : (s.raise e).sent = s.sent := rfl
@[simp] theorem State.raise_trace (s : State) (e : Error) : (s.raise e).trace = s.trace := rfl

/-! ### `construct` -/

@[simp] theorem State.construct_cfg (s : State) : s.construct.cfg = s.cfg := rfl
@[simp] theorem State.construct_partialMode (s : State) : s.construct.partialMode = .holds true := rfl
@[simp] theorem State.construct_initialized (s : State) : s.construct.initialized = .holds false := rfl
@[simp] theorem State.construct_constructed (s : State) : s.construct.constructed = true := rfl
@[simp] theorem State.construct_saved (s : State) : s.construct.saved = s.saved := rfl
@[simp] theorem State.construct_cs (s : State) : s.construct.cs = s.cs := rfl
@[simp] theorem State.construct_dc (s : State) : s.construct.dc = s.dc := rfl
@[simp] theorem State.construct_rst (s : State) : s.construct.rst = s.rst := rfl
@[simp] theorem State.construct_seq (s : State) : s.construct.seq = s.seq := rfl
@[simp] theorem State.construct_bufs (s : State) : s.construct.bufs = s.bufs := rfl
@[simp] theorem State.construct_requests (s : State) : s.construct.requests = s.requests := rfl
@[simp] theorem State.construct_response (s : State) : s.construct.response = s.response := rfl
@[simp] theorem State.construct_busyIn (s : State) : s.construct.busyIn = s.busyIn := rfl
@[simp] theorem State.construct_busIn (s : State) : s.construct.busIn = s.busIn := rfl
@[simp] theorem State.construct_polls (s : State) : s.construct.polls = s.polls := rfl
@[simp] theorem State.construct_sent (s : State) : s.construct.sent = s.sent := rfl
@[simp] theorem State.construct_trace (s : State) : s.construct.trace = s.trace := rfl

/-! ### `resetFlag` -/

@[simp] theorem State.resetFlag_cfg (s : State) : s.resetFlag.cfg = s.cfg := rfl
@[simp] theorem State.resetFlag_partialMode (s : State) : s.resetFlag.partialMode = s.partialMode := rfl
@[simp] theorem State.resetFlag_initialized (s : State) :
    s.resetFlag.initialized = if s.cfg.resetClearsInitialized then .holds false else s.initialized := rfl
@[simp] theorem State.resetFlag_constructed (s : State) : s.resetFlag.constructed = s.constructed := rfl
@[simp] theorem State.resetFlag_saved (s : State) : s.resetFlag.saved = s.saved := rfl
@[simp] theorem State.resetFlag_cs (s : State) : s.resetFlag.cs = s.cs := rfl
@[simp] theorem State.resetFlag_dc (s : State) : s.resetFlag.dc = s.dc := rfl
@[simp] theorem State.resetFlag_rst (s : State) : s.resetFlag.rst = s.rst := rfl
@[simp] theorem State.resetFlag_seq (s : State) : s.resetFlag.seq = s.seq := rfl
@[simp] theorem State.resetFlag_bufs (s : State) : s.resetFlag.bufs = s.bufs := rfl
@[simp] theorem State.resetFlag_requests (s : State) : s.resetFlag.requests = s.requests := rfl
@[simp] theorem State.resetFlag_response (s : State) : s.resetFlag.response = s.response := rfl
@[simp] theorem State.resetFlag_busyIn (s : State) : s.resetFlag.busyIn = s.busyIn := rfl
@[simp] theorem State.resetFlag_busIn (s : State) : s.resetFlag.busIn = s.busIn := rfl
@[simp] theorem State.resetFlag_polls (s : State) : s.resetFlag.polls = s.polls := rfl
@[simp] theorem State.resetFlag_sent (s : State) : s.resetFlag.sent = s.sent := rfl
@[simp] theorem State.resetFlag_trace (s : State) : s.resetFlag.trace = s.trace := rfl

/-! ### `markInitialized` -/

@[simp] theorem State.markInitialized_cfg (s : State) : s.markInitialized.cfg = s.cfg := rfl
@[simp] theorem State.markInitialized_partialMode (s : State) : s.markInitialized.partialMode = s.partialMode := rfl
@[simp] theorem State.markInitialized_initialized (s : State) : s.markInitialized.initialized = .holds true := rfl
@[simp] theorem State.markInitialized_constructed (s : State) : s.markInitialized.constructed = s.constructed := rfl
@[simp] theorem State.markInitialized_saved (s : State) : s.markInitialized.saved = s.saved := rfl
@[simp] theorem State.markInitialized_cs (s : State) : s.markInitialized.cs = s.cs := rfl
@[simp] theorem State.markInitialized_dc (s : State) : s.markInitialized.dc = s.dc := rfl
@[simp] theorem State.markInitialized_rst (s : State) : s.markInitialized.rst = s.rst := rfl
@[simp] theorem State.markInitialized_seq (s : State) : s.markInitialized.seq = s.seq := rfl
@[simp] theorem State.markInitialized_bufs (s : State) : s.markInitialized.bufs = s.bufs := rfl
@[simp] theorem State.markInitialized_requests (s : State) : s.markInitialized.requests = s.requests := rfl
@[simp] theorem State.markInitialized_response (s : State) : s.markInitialized.response = s.response := rfl
@[simp] theorem State.markInitialized_busyIn (s : State) : s.markInitialized.busyIn = s.busyIn := rfl
@[simp] theorem State.markInitialized_busIn (s : State) : s.markInitialized.busIn = s.busIn := rfl
@[simp] theorem State.markInitialized_polls (s : State) : s.markInitialized.polls = s.polls := rfl
@[simp] theorem State.markInitialized_sent (s : State) : s.markInitialized.sent = s.sent := rfl
@[simp] theorem State.markInitialized_trace (s : State) : s.markInitialized.trace = s.trace := rfl

/-! ### `markUninitialized` -/

@[simp] theorem State.markUninitialized_cfg (s : State) : s.markUninitialized.cfg = s.cfg := rfl
@[simp] theorem State.markUninitialized_partialMode (s : State) : s.markUninitialized.partialMode = s.partialMode := rfl
@[simp] theorem State.markUninitialized_initialized (s : State) : s.markUninitialized.initialized = .holds false := rfl
@[simp] theorem State.markUninitialized_constructed (s : State) : s.markUninitialized.constructed = s.constructed := rfl
@[simp] theorem State.markUninitialized_saved (s : State) : s.markUninitialized.saved = s.saved := rfl
@[simp] theorem State.markUninitialized_cs (s : State) : s.markUninitialized.cs = s.cs := rfl
@[simp] theorem State.markUninitialized_dc (s : State) : s.markUninitialized.dc = s.dc := rfl
@[simp] theorem State.markUninitialized_rst (s : State) : s.markUninitialized.rst = s.rst := rfl
@[simp] theorem State.markUninitialized_seq (s : State) : s.markUninitialized.seq = s.seq := rfl
@[simp] theorem State.markUninitialized_bufs (s : State) : s.markUninitialized.bufs = s.bufs := rfl
@[simp] theorem State.markUninitialized_requests (s : State) : s.markUninitialized.requests = s.requests := rfl
@[simp] theorem State.markUninitialized_response (s : State) : s.markUninitialized.response = s.response := rfl
@[simp] theorem State.markUninitialized_busyIn (s : State) : s.markUninitialized.busyIn = s.busyIn := rfl
@[simp] theorem State.markUninitialized_busIn (s : State) : s.markUninitialized.busIn = s.busIn := rfl
@[simp] theorem State.markUninitialized_polls (s : State) : s.markUninitialized.polls = s.polls := rfl
@[simp] theorem State.markUninitialized_sent (s : State) : s.markUninitialized.sent = s.sent := rfl
@[simp] theorem State.markUninitialized_trace (s : State) : s.markUninitialized.trace = s.trace := rfl

/-! ### `saveMode` -/

@[simp] theorem State.saveMode_cfg (s : State) : s.saveMode.cfg = s.cfg := rfl
@[simp] theorem State.saveMode_partialMode (s : State) : s.saveMode.partialMode = s.partialMode := rfl
@[simp] theorem State.saveMode_initialized (s : State) : s.saveMode.initialized = s.initialized := rfl
@[simp] theorem State.saveMode_constructed (s : State) : s.saveMode.constructed = s.constructed := rfl
@[simp] theorem State.saveMode_saved (s : State) : s.saveMode.saved = .holds s.isPartial := rfl
@[simp] theorem State.saveMode_cs (s : State) : s.saveMode.cs = s.cs := rfl
@[simp] theorem State.saveMode_dc (s : State) : s.saveMode.dc = s.dc := rfl
@[simp] theorem State.saveMode_rst (s : State) : s.saveMode.rst = s.rst := rfl
@[simp] theorem State.saveMode_seq (s : State) : s.saveMode.seq = s.seq := rfl
@[simp] theorem State.saveMode_bufs (s : State) : s.saveMode.bufs = s.bufs := rfl
@[simp] theorem State.saveMode_requests (s : State) : s.saveMode.requests = s.requests := rfl
@[simp] theorem State.saveMode_response (s : State) : s.saveMode.response = s.response := rfl
@[simp] theorem State.saveMode_busyIn (s : State) : s.saveMode.busyIn = s.busyIn := rfl
@[simp] theorem State.saveMode_busIn (s : State) : s.saveMode.busIn = s.busIn := rfl
@[simp] theorem State.saveMode_polls (s : State) : s.saveMode.polls = s.polls := rfl
@[simp] theorem State.saveMode_sent (s : State) : s.saveMode.sent = s.sent := rfl
@[simp] theorem State.saveMode_trace (s : State) : s.saveMode.trace = s.trace := rfl

/-! ### `take` -/

@[simp] theorem State.take_cfg (s : State) (rest : List Request) : (s.take rest).cfg = s.cfg := rfl
@[simp] theorem State.take_partialMode (s : State) (rest : List Request) : (s.take rest).partialMode = s.partialMode := rfl
@[simp] theorem State.take_initialized (s : State) (rest : List Request) : (s.take rest).initialized = s.initialized := rfl
@[simp] theorem State.take_constructed (s : State) (rest : List Request) : (s.take rest).constructed = s.constructed := rfl
@[simp] theorem State.take_saved (s : State) (rest : List Request) : (s.take rest).saved = s.saved := rfl
@[simp] theorem State.take_cs (s : State) (rest : List Request) : (s.take rest).cs = s.cs := rfl
@[simp] theorem State.take_dc (s : State) (rest : List Request) : (s.take rest).dc = s.dc := rfl
@[simp] theorem State.take_rst (s : State) (rest : List Request) : (s.take rest).rst = s.rst := rfl
@[simp] theorem State.take_seq (s : State) (rest : List Request) : (s.take rest).seq = s.seq := rfl
@[simp] theorem State.take_bufs (s : State) (rest : List Request) : (s.take rest).bufs = s.bufs := rfl
@[simp] theorem State.take_requests (s : State) (rest : List Request) : (s.take rest).requests = rest := rfl
@[simp] theorem State.take_response (s : State) (rest : List Request) : (s.take rest).response = none := rfl
@[simp] theorem State.take_busyIn (s : State) (rest : List Request) : (s.take rest).busyIn = s.busyIn := rfl
@[simp] theorem State.take_busIn (s : State) (rest : List Request) : (s.take rest).busIn = s.busIn := rfl
@[simp] theorem State.take_polls (s : State) (rest : List Request) : (s.take rest).polls = s.polls := rfl
@[simp] theorem State.take_sent (s : State) (rest : List Request) : (s.take rest).sent = s.sent := rfl
@[simp] theorem State.take_trace (s : State) (rest : List Request) : (s.take rest).trace = s.trace := rfl

/-! ### `answered` -/

@[simp] theorem State.answered_cfg (s : State) (n m : Nat) : (s.answered n m).cfg = s.cfg := rfl
@[simp] theorem State.answered_partialMode (s : State) (n m : Nat) : (s.answered n m).partialMode = s.partialMode := rfl
@[simp] theorem State.answered_initialized (s : State) (n m : Nat) : (s.answered n m).initialized = s.initialized := rfl
@[simp] theorem State.answered_constructed (s : State) (n m : Nat) : (s.answered n m).constructed = s.constructed := rfl
@[simp] theorem State.answered_saved (s : State) (n m : Nat) : (s.answered n m).saved = s.saved := rfl
@[simp] theorem State.answered_cs (s : State) (n m : Nat) : (s.answered n m).cs = s.cs := rfl
@[simp] theorem State.answered_dc (s : State) (n m : Nat) : (s.answered n m).dc = s.dc := rfl
@[simp] theorem State.answered_rst (s : State) (n m : Nat) : (s.answered n m).rst = s.rst := rfl
@[simp] theorem State.answered_seq (s : State) (n m : Nat) : (s.answered n m).seq = s.seq := rfl
@[simp] theorem State.answered_bufs (s : State) (n m : Nat) : (s.answered n m).bufs = s.bufs := rfl
@[simp] theorem State.answered_requests (s : State) (n m : Nat) : (s.answered n m).requests = s.requests := rfl
@[simp] theorem State.answered_response (s : State) (n m : Nat) : (s.answered n m).response = s.response := rfl
@[simp] theorem State.answered_busyIn (s : State) (n m : Nat) : (s.answered n m).busyIn = s.busyIn.drop n := rfl
@[simp] theorem State.answered_busIn (s : State) (n m : Nat) : (s.answered n m).busIn = s.busIn.drop m := rfl
@[simp] theorem State.answered_polls (s : State) (n m : Nat) : (s.answered n m).polls = s.polls + n := rfl
@[simp] theorem State.answered_sent (s : State) (n m : Nat) : (s.answered n m).sent = s.sent + m := rfl
@[simp] theorem State.answered_trace (s : State) (n m : Nat) : (s.answered n m).trace = s.trace := rfl

/-! ### `sentFrames` -/

@[simp] theorem State.sentFrames_cfg (s : State) (fs : List (List Byte)) (d : DcLevel) : (s.sentFrames fs d).cfg = s.cfg := rfl
@[simp] theorem State.sentFrames_partialMode (s : State) (fs : List (List Byte)) (d : DcLevel) : (s.sentFrames fs d).partialMode = s.partialMode := rfl
@[simp] theorem State.sentFrames_initialized (s : State) (fs : List (List Byte)) (d : DcLevel) : (s.sentFrames fs d).initialized = s.initialized := rfl
@[simp] theorem State.sentFrames_constructed (s : State) (fs : List (List Byte)) (d : DcLevel) : (s.sentFrames fs d).constructed = s.constructed := rfl
@[simp] theorem State.sentFrames_saved (s : State) (fs : List (List Byte)) (d : DcLevel) : (s.sentFrames fs d).saved = s.saved := rfl
@[simp] theorem State.sentFrames_cs (s : State) (fs : List (List Byte)) (d : DcLevel) : (s.sentFrames fs d).cs = .holds .inact := rfl
@[simp] theorem State.sentFrames_dc (s : State) (fs : List (List Byte)) (d : DcLevel) : (s.sentFrames fs d).dc = .holds d := rfl
@[simp] theorem State.sentFrames_rst (s : State) (fs : List (List Byte)) (d : DcLevel) : (s.sentFrames fs d).rst = s.rst := rfl
@[simp] theorem State.sentFrames_seq (s : State) (fs : List (List Byte)) (d : DcLevel) : (s.sentFrames fs d).seq = s.seq := rfl
@[simp] theorem State.sentFrames_bufs (s : State) (fs : List (List Byte)) (d : DcLevel) : (s.sentFrames fs d).bufs = s.bufs := rfl
@[simp] theorem State.sentFrames_requests (s : State) (fs : List (List Byte)) (d : DcLevel) : (s.sentFrames fs d).requests = s.requests := rfl
@[simp] theorem State.sentFrames_response (s : State) (fs : List (List Byte)) (d : DcLevel) : (s.sentFrames fs d).response = s.response := rfl
@[simp] theorem State.sentFrames_busyIn (s : State) (fs : List (List Byte)) (d : DcLevel) : (s.sentFrames fs d).busyIn = s.busyIn.drop fs.length := rfl
@[simp] theorem State.sentFrames_busIn (s : State) (fs : List (List Byte)) (d : DcLevel) : (s.sentFrames fs d).busIn = s.busIn.drop fs.flatten.length := rfl
@[simp] theorem State.sentFrames_polls (s : State) (fs : List (List Byte)) (d : DcLevel) : (s.sentFrames fs d).polls = s.polls + fs.length := rfl
@[simp] theorem State.sentFrames_sent (s : State) (fs : List (List Byte)) (d : DcLevel) : (s.sentFrames fs d).sent = s.sent + fs.flatten.length := rfl
@[simp] theorem State.sentFrames_trace (s : State) (fs : List (List Byte)) (d : DcLevel) : (s.sentFrames fs d).trace = s.trace ++ framesTrace fs := rfl

/-! ### `pulsed` -/

@[simp] theorem State.pulsed_cfg (s : State) : s.pulsed.cfg = s.cfg := rfl
@[simp] theorem State.pulsed_partialMode (s : State) : s.pulsed.partialMode = s.partialMode := rfl
@[simp] theorem State.pulsed_initialized (s : State) : s.pulsed.initialized = s.initialized := rfl
@[simp] theorem State.pulsed_constructed (s : State) : s.pulsed.constructed = s.constructed := rfl
@[simp] theorem State.pulsed_saved (s : State) : s.pulsed.saved = s.saved := rfl
@[simp] theorem State.pulsed_cs (s : State) : s.pulsed.cs = s.cs := rfl
@[simp] theorem State.pulsed_dc (s : State) : s.pulsed.dc = s.dc := rfl
@[simp] theorem State.pulsed_rst (s : State) : s.pulsed.rst = .holds .high := rfl
@[simp] theorem State.pulsed_seq (s : State) : s.pulsed.seq = s.seq := rfl
@[simp] theorem State.pulsed_bufs (s : State) : s.pulsed.bufs = s.bufs := rfl
@[simp] theorem State.pulsed_requests (s : State) : s.pulsed.requests = s.requests := rfl
@[simp] theorem State.pulsed_response (s : State) : s.pulsed.response = s.response := rfl
@[simp] theorem State.pulsed_busyIn (s : State) : s.pulsed.busyIn = s.busyIn := rfl
@[simp] theorem State.pulsed_busIn (s : State) : s.pulsed.busIn = s.busIn := rfl
@[simp] theorem State.pulsed_polls (s : State) : s.pulsed.polls = s.polls := rfl
@[simp] theorem State.pulsed_sent (s : State) : s.pulsed.sent = s.sent := rfl
@[simp] theorem State.pulsed_trace (s : State) :
    s.pulsed.trace = s.trace ++ [.rst .low, .delay s.cfg.resetLowMs, .rst .high, .delay s.cfg.resetWaitMs] := rfl

/-! ### `toPartial`, which writes the two flags at most -/

@[simp] theorem State.toPartial_cfg (s : State) : s.toPartial.cfg = s.cfg := by
  unfold State.toPartial; split <;> rfl
@[simp] theorem State.toPartial_constructed (s : State) : s.toPartial.constructed = s.constructed := by
  unfold State.toPartial; split <;> rfl
@[simp] theorem State.toPartial_saved (s : State) : s.toPartial.saved = s.saved := by
  unfold State.toPartial; split <;> rfl
@[simp] theorem State.toPartial_cs (s : State) : s.toPartial.cs = s.cs := by
  unfold State.toPartial; split <;> rfl
@[simp] theorem State.toPartial_dc (s : State) : s.toPartial.dc = s.dc := by
  unfold State.toPartial; split <;> rfl
@[simp] theorem State.toPartial_rst (s : State) : s.toPartial.rst = s.rst := by
  unfold State.toPartial; split <;> rfl
@[simp] theorem State.toPartial_seq (s : State) : s.toPartial.seq = s.seq := by
  unfold State.toPartial; split <;> rfl
@[simp] theorem State.toPartial_bufs (s : State) : s.toPartial.bufs = s.bufs := by
  unfold State.toPartial; split <;> rfl
@[simp] theorem State.toPartial_requests (s : State) : s.toPartial.requests = s.requests := by
  unfold State.toPartial; split <;> rfl
@[simp] theorem State.toPartial_response (s : State) : s.toPartial.response = s.response := by
  unfold State.toPartial; split <;> rfl
@[simp] theorem State.toPartial_busyIn (s : State) : s.toPartial.busyIn = s.busyIn := by
  unfold State.toPartial; split <;> rfl
@[simp] theorem State.toPartial_busIn (s : State) : s.toPartial.busIn = s.busIn := by
  unfold State.toPartial; split <;> rfl
@[simp] theorem State.toPartial_polls (s : State) : s.toPartial.polls = s.polls := by
  unfold State.toPartial; split <;> rfl
@[simp] theorem State.toPartial_sent (s : State) : s.toPartial.sent = s.sent := by
  unfold State.toPartial; split <;> rfl
@[simp] theorem State.toPartial_trace (s : State) : s.toPartial.trace = s.trace := by
  unfold State.toPartial; split <;> rfl

/-! ### `toFull`, which writes the two flags at most -/

@[simp] theorem State.toFull_cfg (s : State) : s.toFull.cfg = s.cfg := by
  unfold State.toFull; split <;> rfl
@[simp] theorem State.toFull_constructed (s : State) : s.toFull.constructed = s.constructed := by
  unfold State.toFull; split <;> rfl
@[simp] theorem State.toFull_saved (s : State) : s.toFull.saved = s.saved := by
  unfold State.toFull; split <;> rfl
@[simp] theorem State.toFull_cs (s : State) : s.toFull.cs = s.cs := by
  unfold State.toFull; split <;> rfl
@[simp] theorem State.toFull_dc (s : State) : s.toFull.dc = s.dc := by
  unfold State.toFull; split <;> rfl
@[simp] theorem State.toFull_rst (s : State) : s.toFull.rst = s.rst := by
  unfold State.toFull; split <;> rfl
@[simp] theorem State.toFull_seq (s : State) : s.toFull.seq = s.seq := by
  unfold State.toFull; split <;> rfl
@[simp] theorem State.toFull_bufs (s : State) : s.toFull.bufs = s.bufs := by
  unfold State.toFull; split <;> rfl
@[simp] theorem State.toFull_requests (s : State) : s.toFull.requests = s.requests := by
  unfold State.toFull; split <;> rfl
@[simp] theorem State.toFull_response (s : State) : s.toFull.response = s.response := by
  unfold State.toFull; split <;> rfl
@[simp] theorem State.toFull_busyIn (s : State) : s.toFull.busyIn = s.busyIn := by
  unfold State.toFull; split <;> rfl
@[simp] theorem State.toFull_busIn (s : State) : s.toFull.busIn = s.busIn := by
  unfold State.toFull; split <;> rfl
@[simp] theorem State.toFull_polls (s : State) : s.toFull.polls = s.polls := by
  unfold State.toFull; split <;> rfl
@[simp] theorem State.toFull_sent (s : State) : s.toFull.sent = s.sent := by
  unfold State.toFull; split <;> rfl
@[simp] theorem State.toFull_trace (s : State) : s.toFull.trace = s.trace := by
  unfold State.toFull; split <;> rfl

/-! ### `restoreMode`, which writes the two flags at most -/

@[simp] theorem State.restoreMode_cfg (s : State) : s.restoreMode.cfg = s.cfg := by
  unfold State.restoreMode; split <;> simp
@[simp] theorem State.restoreMode_constructed (s : State) : s.restoreMode.constructed = s.constructed := by
  unfold State.restoreMode; split <;> simp
@[simp] theorem State.restoreMode_saved (s : State) : s.restoreMode.saved = s.saved := by
  unfold State.restoreMode; split <;> simp
@[simp] theorem State.restoreMode_cs (s : State) : s.restoreMode.cs = s.cs := by
  unfold State.restoreMode; split <;> simp
@[simp] theorem State.restoreMode_dc (s : State) : s.restoreMode.dc = s.dc := by
  unfold State.restoreMode; split <;> simp
@[simp] theorem State.restoreMode_rst (s : State) : s.restoreMode.rst = s.rst := by
  unfold State.restoreMode; split <;> simp
@[simp] theorem State.restoreMode_seq (s : State) : s.restoreMode.seq = s.seq := by
  unfold State.restoreMode; split <;> simp
@[simp] theorem State.restoreMode_bufs (s : State) : s.restoreMode.bufs = s.bufs := by
  unfold State.restoreMode; split <;> simp
@[simp] theorem State.restoreMode_requests (s : State) : s.restoreMode.requests = s.requests := by
  unfold State.restoreMode; split <;> simp
@[simp] theorem State.restoreMode_response (s : State) : s.restoreMode.response = s.response := by
  unfold State.restoreMode; split <;> simp
@[simp] theorem State.restoreMode_busyIn (s : State) : s.restoreMode.busyIn = s.busyIn := by
  unfold State.restoreMode; split <;> simp
@[simp] theorem State.restoreMode_busIn (s : State) : s.restoreMode.busIn = s.busIn := by
  unfold State.restoreMode; split <;> simp
@[simp] theorem State.restoreMode_polls (s : State) : s.restoreMode.polls = s.polls := by
  unfold State.restoreMode; split <;> simp
@[simp] theorem State.restoreMode_sent (s : State) : s.restoreMode.sent = s.sent := by
  unfold State.restoreMode; split <;> simp
@[simp] theorem State.restoreMode_trace (s : State) : s.restoreMode.trace = s.trace := by
  unfold State.restoreMode; split <;> simp

/-! ### Positions and readers -/

@[simp] theorem Seq.tick_idle : Seq.tick .idle = .idle := rfl
@[simp] theorem Seq.tick_run (op : Instr) (k : Nat) (ts : List Task) : Seq.tick (.run op k ts) = .run op (k + 1) ts := rfl
@[simp] theorem Seq.push_run (op : Instr) (k : Nat) (ts us : List Task) :
    Seq.push us (.run op k ts) = .run op k (us ++ ts) := rfl

/-- A read of a written flag gives its value (R16). -/
theorem State.isPartial_of (s : State) (b : Bool) (h : s.partialMode = .holds b) : s.isPartial = b := by
  simp [State.isPartial, h, Latch.read]

/-- A read of a written flag gives its value (R17). -/
theorem State.isInitialized_of (s : State) (b : Bool) (h : s.initialized = .holds b) : s.isInitialized = b := by
  simp [State.isInitialized, h, Latch.read]

/-- A read of `saved` where it holds a value gives it (R27). -/
theorem State.savedMode_of (s : State) (b : Bool) (h : s.saved = .holds b) : s.savedMode = b := by
  simp [State.savedMode, h, Latch.read]

end Sys2Proof.Machine
end

