-- ==== Sys2Proof/Laws/Encoding.lean ====
section
/-! SUPPORT. Splitting a 16-bit value over two payload bytes (R7, R35, R57), and a command as its frame: what `exec` does
with it is what `send` does with the frame's bytes; a frame that decodes is sent as it stands. -/

namespace Sys2Proof.Machine

/-- The bits of a 16-bit value put together from its bytes (R35). -/
theorem ofLoHi_getLsbD (lo hi : Byte) (i : Nat) :
    (ofLoHi lo hi).getLsbD i = if i < 8 then lo.getLsbD i else hi.getLsbD (i - 8) := by
  have : (hi ++ lo : BitVec (8 + 8)).getLsbD i = _ := BitVec.getLsbD_append
  exact this

theorem lo8_getLsbD (v : Half) (i : Nat) : (lo8 v).getLsbD i = (decide (i < 8) && v.getLsbD i) := by
  simp [lo8]

theorem hi8_getLsbD (v : Half) (i : Nat) : (hi8 v).getLsbD i = (decide (i < 8) && v.getLsbD (8 + i)) := by
  simp [hi8]

/-- `lo8(v) = v mod 256` (R7). -/
theorem lo8_toNat (v : Half) : (lo8 v).toNat = v.toNat % 256 := by
  simp [lo8]

/-- `hi8(v) = (v / 256) mod 256` (R7). -/
theorem hi8_toNat (v : Half) : (hi8 v).toNat = v.toNat / 256 % 256 := by
  simp [hi8, Nat.shiftRight_eq_div_pow]

/-- The two bytes of a value give it back. -/
@[simp] theorem ofLoHi_lo8_hi8 (v : Half) : ofLoHi (lo8 v) (hi8 v) = v := by
  apply BitVec.eq_of_getLsbD_eq
  intro i hi
  rw [ofLoHi_getLsbD, lo8_getLsbD, hi8_getLsbD]
  split
  · simp [*]
  · rw [show 8 + (i - 8) = i by omega]
    simp
    omega

@[simp] theorem lo8_ofLoHi (lo hi : Byte) : lo8 (ofLoHi lo hi) = lo := by
  apply BitVec.eq_of_getLsbD_eq
  intro i h
  rw [lo8_getLsbD, ofLoHi_getLsbD, if_pos h, decide_eq_true h, Bool.true_and]

@[simp] theorem hi8_ofLoHi (lo hi : Byte) : hi8 (ofLoHi lo hi) = hi := by
  apply BitVec.eq_of_getLsbD_eq
  intro i h
  rw [hi8_getLsbD, ofLoHi_getLsbD, if_neg (by omega), decide_eq_true h, Bool.true_and, Nat.add_sub_cancel_left]

/-- A command is executed by sending its frame (R94 to R108). -/
theorem exec_command (i : Instr) (s : State) (op : Byte) (payload : List Byte) (h : frameBytes i = op :: payload) :
    exec i s = .next (s.send op payload) := by
  cases i <;> simp [frameBytes, encode] at h <;> obtain ⟨rfl, rfl⟩ := h <;> rfl

/-- A command has a frame. -/
theorem frameBytes_of_isCommand (i : Instr) (h : isCommand i = true) : ∃ op payload, frameBytes i = op :: payload := by
  cases i <;> simp [isCommand] at h <;> exact ⟨_, _, rfl⟩

/-! ### Payloads of fixed length -/

theorem payload0_ok {op : Byte} {p : List Byte} {j i : Instr} (h : payload0 op p j = .ok i) : p = [] ∧ i = j := by
  unfold payload0 at h; split at h <;> simp_all

theorem payload1_ok {op : Byte} {p : List Byte} {f : Byte → Instr} {i : Instr} (h : payload1 op p f = .ok i) :
    ∃ a, p = [a] ∧ i = f a := by
  unfold payload1 at h; split at h <;> simp_all

theorem payload2_ok {op : Byte} {p : List Byte} {f : Byte → Byte → Instr} {i : Instr} (h : payload2 op p f = .ok i) :
    ∃ a b, p = [a, b] ∧ i = f a b := by
  unfold payload2 at h; split at h <;> simp_all

theorem payload3_ok {op : Byte} {p : List Byte} {f : Byte → Byte → Byte → Instr} {i : Instr}
    (h : payload3 op p f = .ok i) : ∃ a b c, p = [a, b, c] ∧ i = f a b c := by
  unfold payload3 at h; split at h <;> simp_all

theorem payload4_ok {op : Byte} {p : List Byte} {f : Byte → Byte → Byte → Byte → Instr} {i : Instr}
    (h : payload4 op p f = .ok i) : ∃ a b c d, p = [a, b, c, d] ∧ i = f a b c d := by
  unfold payload4 at h; split at h <;> simp_all

/-- A frame that decodes is sent as it stands, by a running operation only (R22, R92). -/
theorem exec_decoded {bytes : List Byte} {i : Instr} (s : State) (h : decodeFrame bytes = .ok i) :
    exec i s = .next (if s.seq = .idle then s else (runFrame bytes s).state) := by
  cases bytes with
  | nil => cases h
  | cons op payload =>
    refine exec_command i s op payload ?_
    by_cases hop : op ∈ [0x01#8, 0x0C#8, 0x11#8, 0x20#8, 0x22#8, 0x24#8, 0x2C#8, 0x32#8, 0x3A#8, 0x3B#8, 0x44#8, 0x45#8,
      0x4E#8, 0x4F#8, 0xFF#8]
    · simp only [List.mem_cons, List.not_mem_nil, or_false] at hop
      rcases hop with rfl | rfl | rfl | rfl | rfl | rfl | rfl | rfl | rfl | rfl | rfl | rfl | rfl | rfl | rfl
      all_goals simp [decodeFrame, decodePayload] at h
      all_goals
        first
        | (obtain ⟨rfl, rfl⟩ := payload0_ok h; rfl)
        | (obtain ⟨a, rfl, rfl⟩ := payload1_ok h; rfl)
        | (obtain ⟨a, b, rfl, rfl⟩ := payload2_ok h; simp [frameBytes, encode])
        | (obtain ⟨a, b, c, rfl, rfl⟩ := payload3_ok h; simp [frameBytes, encode])
        | (obtain ⟨a, b, c, d, rfl, rfl⟩ := payload4_ok h; simp [frameBytes, encode])
        | (subst h; rfl)
        | (split at h <;> first | (injection h with h; subst h; rfl) | cases h)
    · simp only [List.mem_cons, List.not_mem_nil, or_false, not_or] at hop
      simp [decodeFrame, decodePayload, hop] at h

/-- The host can request no command (R67). -/
theorem decodeRequest_not_command {r : Request} {i : Instr} (h : decodeRequest r = .ok i) : isCommand i = false := by
  unfold decodeRequest at h
  split at h <;> first | (injection h with h; subst h; rfl) | cases h

end Sys2Proof.Machine
end

