-- ==== Sys2Proof/Laws/Memory.lean ====
section
/-! SUPPORT. The laws of the framebuffer space: a read after a write gives the value written, a write leaves every other
address alone, and every write keeps the canonical form (R31, R39). -/

namespace Sys2Proof.Machine

/-- A canonical form that starts at a higher address is one that starts at a lower one. -/
theorem Memory.wfFrom_mono {m : Memory} {lo lo' : Nat} (h : lo' ≤ lo) (hm : m.wfFrom lo = true) :
    m.wfFrom lo' = true := by
  cases m with
  | nil => rfl
  | cons c m =>
    simp only [Memory.wfFrom, Bool.and_eq_true, decide_eq_true_eq] at hm ⊢
    exact ⟨⟨⟨h.trans hm.1.1.1, hm.1.1.2⟩, hm.1.2⟩, hm.2⟩

/-- No entry stands below the start of a canonical form. -/
theorem Memory.get_below {m : Memory} {lo a : Nat} (hm : m.wfFrom lo = true) (h : a < lo) :
    m.get a = blankByte := by
  induction m generalizing lo with
  | nil => rfl
  | cons c m ih =>
    simp only [Memory.wfFrom, Bool.and_eq_true, decide_eq_true_eq] at hm
    have hne : c.1 ≠ a := by omega
    rw [Memory.get, if_neg hne]
    exact ih hm.2 (by omega)

/-- A read after a write: the value at the address written, the old byte elsewhere. -/
theorem Memory.get_set {m : Memory} {lo : Nat} (hm : m.wfFrom lo = true) (a a' : Nat) (v : Byte) :
    (m.set a v).get a' = if a' = a then v else m.get a' := by
  induction m generalizing lo with
  | nil =>
    simp only [Memory.set]
    by_cases h : a' = a
    · subst h
      split <;> simp_all [Memory.get]
    · split <;> simp [Memory.get, Ne.symm h]
  | cons c m ih =>
    obtain ⟨b, u⟩ := c
    simp only [Memory.wfFrom, Bool.and_eq_true, decide_eq_true_eq] at hm
    have below := fun (x : Nat) (hx : x < b + 1) => Memory.get_below hm.2 hx
    simp only [Memory.set]
    split
    · split
      · by_cases h : a' = a
        · subst h
          simp [Memory.get, show b ≠ a' by omega, below a' (by omega), *]
        · simp [h]
      · by_cases h : a' = a
        · simp [Memory.get, h]
        · simp [Memory.get, h, Ne.symm h]
    · split
      · split
        · by_cases h : a' = a
          · subst h
            simp [below a' (by omega), *]
          · simp [Memory.get, h, show b ≠ a' by omega]
        · by_cases h : a' = a
          · simp [Memory.get, h]
          · simp [Memory.get, h, Ne.symm h, show b ≠ a' by omega]
      · by_cases hb : b = a'
        · simp [Memory.get, hb, show a' ≠ a by omega]
        · simp [Memory.get, hb, ih hm.2]

/-- A write inside `0..4735` keeps the canonical form. -/
theorem Memory.wfFrom_set {m : Memory} {lo : Nat} (hm : m.wfFrom lo = true) {a : Nat} (hlo : lo ≤ a) (ha : a < fbBytes)
    (v : Byte) : (m.set a v).wfFrom lo = true := by
  induction m generalizing lo with
  | nil =>
    simp only [Memory.set]
    split
    · rfl
    · simp_all [Memory.wfFrom]
  | cons c m ih =>
    obtain ⟨b, u⟩ := c
    simp only [Memory.wfFrom, Bool.and_eq_true, decide_eq_true_eq] at hm
    obtain ⟨⟨⟨h1, h2⟩, h3⟩, h4⟩ := hm
    simp only [Memory.set]
    split
    · split
      · simp_all [Memory.wfFrom]
      · simp_all [Memory.wfFrom]
    · split
      · split
        · exact Memory.wfFrom_mono (by omega) h4
        · simp_all [Memory.wfFrom]
      · simp only [Memory.wfFrom, Bool.and_eq_true, decide_eq_true_eq]
        exact ⟨⟨⟨h1, h2⟩, h3⟩, ih h4 (by omega)⟩

/-- A write of the block keeps the canonical form (R31). -/
theorem memWrite_wf {m : Memory} (hm : m.wf = true) {a : Nat} (ha : a < fbBytes) (v : Byte) :
    (memWrite m a v).wf = true :=
  Memory.wfFrom_set hm (Nat.zero_le a) ha v

/-- A read after a write of the block (R39). -/
theorem memWrite_get {m : Memory} (hm : m.wf = true) (a a' : Nat) (v : Byte) :
    (memWrite m a v).get a' = if a' = a then v else m.get a' :=
  Memory.get_set hm a a' v

/-- `MemRead` answers exactly inside `0..4735` (R31). -/
theorem memRead_eq (m : Memory) (a : Nat) : memRead m a = if a < fbBytes then some (m.get a) else none := rfl

/-- The bitmap has 4736 bytes (R77). -/
@[simp] theorem memBytes_length (m : Memory) : (memBytes m).length = fbBytes := by
  simp [memBytes]

/-- Byte `a` of the bitmap is byte `a` of the framebuffer space (R77). -/
theorem memBytes_get (m : Memory) (a : Nat) (h : a < fbBytes) : (memBytes m)[a]? = some (m.get a) := by
  simp [memBytes, h]

/-- A new FrameBuffer is in its canonical form (R70). -/
theorem blank_wf (o : Orientation) : (FrameBuffer.blank o).mem.wf = true := rfl

/-- A new FrameBuffer reads `0xFF` at every address (R70). -/
@[simp] theorem blank_get (o : Orientation) (a : Nat) : (FrameBuffer.blank o).mem.get a = blankByte := rfl

end Sys2Proof.Machine
end

