-- ==== Sys2Proof/Laws/PerInstr.lean ====
section
/-! SUPPORT. Statements about every instruction as it is written: its port and the length of its encoding (R51 to R53,
R56, R60), one lemma per constructor. -/

namespace Sys2Proof.Laws.EncodingForm

/-- A well-formed command is encoded as a frame whose opcode is one of the fifteen and whose payload has the length R53
gives that opcode; a host operation is encoded as a request whose code is not reserved. -/
def Statement (i : Instr) : Prop :=
  i.wellFormed = true →
    match encode i with
    | .frame [] => False
    | .frame (op :: payload) => Machine.isCommand i = true ∧ payloadLength op = some payload.length
    | .request r => Machine.isCommand i = false ∧ r.code.toNat ≤ 0xA

theorem driverOutputControl (h : Half) (f : Byte) : Statement (.driverOutputControl h f) := fun _ => ⟨rfl, rfl⟩

theorem boosterSoftStart (a b c : Byte) : Statement (.boosterSoftStart a b c) := fun _ => ⟨rfl, rfl⟩

theorem dataEntryMode (a : Byte) : Statement (.dataEntryMode a) := fun _ => ⟨rfl, rfl⟩

theorem masterActivation : Statement .masterActivation := fun _ => ⟨rfl, by decide⟩

theorem displayUpdateControl2 (a : Byte) : Statement (.displayUpdateControl2 a) := fun _ => ⟨rfl, rfl⟩

theorem writeRam (bs : List Byte) : Statement (.writeRam bs) := by
  intro h
  simp only [Instr.wellFormed, beq_iff_eq] at h
  exact ⟨rfl, by rw [h]; rfl⟩

theorem writeVcom (a : Byte) : Statement (.writeVcom a) := fun _ => ⟨rfl, rfl⟩

theorem writeLut (bs : List Byte) : Statement (.writeLut bs) := by
  intro h
  simp only [Instr.wellFormed, beq_iff_eq] at h
  exact ⟨rfl, by rw [h]; rfl⟩

theorem dummyLinePeriod (a : Byte) : Statement (.dummyLinePeriod a) := fun _ => ⟨rfl, rfl⟩

theorem gateLineWidth (a : Byte) : Statement (.gateLineWidth a) := fun _ => ⟨rfl, rfl⟩

theorem setRamXWindow (a b : Byte) : Statement (.setRamXWindow a b) := fun _ => ⟨rfl, rfl⟩

theorem setRamYWindow (a b : Half) : Statement (.setRamYWindow a b) := fun _ => ⟨rfl, rfl⟩

theorem setRamXCounter (a : Byte) : Statement (.setRamXCounter a) := fun _ => ⟨rfl, rfl⟩

theorem setRamYCounter (a : Half) : Statement (.setRamYCounter a) := fun _ => ⟨rfl, rfl⟩

theorem terminator : Statement .terminator := fun _ => ⟨rfl, by decide⟩

theorem new : Statement .new := fun _ => ⟨rfl, by decide⟩

theorem reset : Statement .reset := fun _ => ⟨rfl, by decide⟩

theorem setPartial : Statement .setPartial := fun _ => ⟨rfl, by decide⟩

theorem setFull : Statement .setFull := fun _ => ⟨rfl, by decide⟩

theorem clear : Statement .clear := fun _ => ⟨rfl, by decide⟩

theorem setDisplay (a : Nat) : Statement (.setDisplay a) := fun _ => ⟨rfl, by simp [plainRequest]⟩

theorem update : Statement .update := fun _ => ⟨rfl, by decide⟩

theorem powerOff : Statement .powerOff := fun _ => ⟨rfl, by decide⟩

theorem fbNew (o : Orientation) : Statement (.fbNew o) := fun _ => ⟨rfl, by simp [plainRequest]⟩

theorem fbDrawPixel (b : Nat) (x y c : Int) : Statement (.fbDrawPixel b x y c) := fun _ => ⟨rfl, by simp [plainRequest]⟩

theorem fbGetBuffer (b : Nat) : Statement (.fbGetBuffer b) := fun _ => ⟨rfl, by simp [plainRequest]⟩

end Sys2Proof.Laws.EncodingForm
end

