-- ==== Sys2Proof/Laws/Sequencer.lean ====
section
/-! SUPPORT. What the shared operations of the sequencer can do: the environment's answers, a run of bus bytes, a whole
frame (sent, failed, waiting), a row of frames, and the run of an operation's tasks. -/

namespace Sys2Proof.Machine

/-! ### The environment's answers -/

/-- The answers after `n` questions are the answers from number `n` on. -/
theorem Answers.answer_drop {α : Type} (p : Answers α) (n i : Nat) : (p.drop n).answer i = p.answer (n + i) := by
  simp [Answers.answer, Answers.drop]

@[simp] theorem Answers.drop_zero {α : Type} (p : Answers α) : p.drop 0 = p := by
  simp [Answers.drop]

@[simp] theorem Answers.drop_drop {α : Type} (p : Answers α) (n m : Nat) : (p.drop n).drop m = p.drop (n + m) := by
  simp [Answers.drop]

/-- Where `n` polls have been made, poll `i` is the former poll `n + i`. -/
theorem busyAnswer_shift {s t : State} {n : Nat} (h1 : t.busyIn = s.busyIn.drop n) (h2 : t.polls = s.polls + n)
    (i : Nat) : t.busyAnswer i = s.busyAnswer (n + i) := by
  simp [State.busyAnswer, h1, h2, Answers.answer_drop, Nat.add_assoc]

/-- Where `n` bytes have been attempted, byte `i` is the former byte `n + i`. -/
theorem busAnswer_shift {s t : State} {n : Nat} (h1 : t.busIn = s.busIn.drop n) (h2 : t.sent = s.sent + n)
    (i : Nat) : t.busAnswer i = s.busAnswer (n + i) := by
  simp [State.busAnswer, h1, h2, Answers.answer_drop, Nat.add_assoc]

/-- What `BUSY_BOUND` allows it allows of fewer busy answers (R89). -/
theorem boundReached_mono {c : Config} {n m : Nat} (h : n ≤ m) (hm : boundReached c m = false) :
    boundReached c n = false := by
  unfold boundReached at *
  split at hm
  · rfl
  · simp only [decide_eq_false_iff_not] at hm ⊢; omega

/-! ### Positions -/

@[simp] theorem Seq.advance_zero (q : Seq) : q.advance 0 = q := by
  cases q <;> rfl

@[simp] theorem Seq.advance_advance (q : Seq) (n m : Nat) : (q.advance n).advance m = q.advance (n + m) := by
  cases q <;> simp [Seq.advance, Nat.add_assoc]

theorem Seq.tick_eq (q : Seq) : q.tick = q.advance 1 := by
  cases q <;> rfl

@[simp] theorem Seq.advance_run (n : Nat) (op : Instr) (k : Nat) (ts : List Task) :
    Seq.advance n (.run op k ts) = .run op (k + n) ts := rfl

/-! ### Bus bytes -/

/-- `s` with these bytes out (R83, R87). -/
def State.bytesOut (s : State) (bs : List Byte) : State :=
  { s with
    trace := s.trace ++ bs.map .tx
    busIn := s.busIn.drop bs.length
    sent := s.sent + bs.length
    seq := s.seq.advance bs.length }

theorem bytesOut_cons (s : State) (b : Byte) (bs : List Byte) :
    (s.afterTx b none).bytesOut bs = s.bytesOut (b :: bs) := by
  simp [State.bytesOut, State.afterTx, Seq.tick_eq, Nat.add_assoc, Nat.add_comm 1]

/-- Bytes that all go out, one `BusWrite` each in list order (R37, R87). -/
theorem runMicros_bytes (bs : List Byte) (ms : List Micro) (s : State) (h : ∀ i < bs.length, s.busAnswer i = none) :
    runMicros (bs.map .tx ++ ms) s = runMicros ms (s.bytesOut bs) := by
  induction bs generalizing s with
  | nil => simp [State.bytesOut]
  | cons b bs ih =>
    have h0 : s.busAnswer 0 = none := h 0 (by simp)
    have hs : ∀ i < bs.length, (s.afterTx b none).busAnswer i = none := fun i hi => by
      rw [busAnswer_shift (s := s) (n := 1) rfl rfl, Nat.add_comm]
      exact h (i + 1) (by simpa using hi)
    simp only [List.map_cons, List.cons_append, runMicros, h0, ih _ hs, bytesOut_cons]

/-- The first byte that fails ends the operation; the bytes before it went out, none after it is tried (R88, R131, R138). -/
theorem runMicros_bytes_fail (bs : List Byte) (b : Byte) (ms : List Micro) (s : State) (e : TransportErr)
    (h : ∀ i < bs.length, s.busAnswer i = none) (hb : s.busAnswer bs.length = some e) :
    runMicros (bs.map .tx ++ .tx b :: ms) s
      = .on (((s.bytesOut bs).afterTx b (some e)).raise (.transport e)) := by
  have hb' : (s.bytesOut bs).busAnswer 0 = some e := by
    rw [busAnswer_shift (s := s) (n := bs.length) rfl rfl, Nat.add_zero, hb]
  rw [runMicros_bytes bs _ s h, runMicros]
  simp [hb']

/-! ### Frames -/

/-- `s` inside a frame: selected, ready at the first poll, the data/command line at command (R86 steps 1 to 3). -/
def State.opened (s : State) : State :=
  { s with
    cs := .holds .act
    dc := .holds .cmd
    trace := s.trace ++ [.cs .act, .busy false, .dc .cmd]
    busyIn := s.busyIn.drop 1
    polls := s.polls + 1
    seq := s.seq.advance 3 }

/-- The first three steps of a frame, with the controller ready at the first poll (R86, R87). -/
theorem runMicros_open (ms : List Micro) (s : State) (h : s.busyAnswer 0 = false) :
    runMicros (.cs .act :: .poll 0 :: .dc .cmd :: ms) s = runMicros ms s.opened := by
  have hs : (s.pinCs .act).busyAnswer 0 = false := h
  simp only [runMicros, hs, Bool.false_eq_true, if_false]
  congr 1
  simp [State.opened, State.pinCs, State.afterPoll, State.tick, State.pinDc, Seq.tick_eq]

theorem frameMicros_cons (op : Byte) (payload : List Byte) :
    frameMicros op payload = .cs .act :: .poll 0 :: .dc .cmd :: .tx op ::
      ((if payload = [] then [] else .dc .data :: payload.map .tx) ++ [.cs .inact]) := by
  unfold frameMicros; split <;> simp

theorem frameTrace_cons (op : Byte) (payload : List Byte) :
    frameTrace (op :: payload) = [.cs .act, .busy false, .dc .cmd, .tx op]
      ++ (if payload = [] then [] else .dc .data :: payload.map .tx) ++ [.cs .inact] := by
  simp [frameTrace, frameTraceAfter]

/-- The number of events of a frame: 5 without payload, `6 + N` with one (R93). -/
theorem frameTrace_length (op : Byte) (payload : List Byte) :
    (frameTrace (op :: payload)).length = if payload = [] then 5 else 6 + payload.length := by
  rw [frameTrace_cons]; split
  · rfl
  · simp; omega

/-- A frame that is ready at its first poll and whose bytes all go out (R86, R87, R91, R93). -/
theorem runMicros_frame (op : Byte) (payload : List Byte) (s : State) (h : s.readyFor [op :: payload]) :
    runMicros (frameMicros op payload) s = .on
      { s.sentFrames [op :: payload] (dcAfter (op :: payload)) with
        seq := s.seq.advance (frameTrace (op :: payload)).length } := by
  obtain ⟨hp, hb⟩ := h
  simp only [List.length_cons, List.length_nil, List.flatten_cons, List.flatten_nil, List.append_nil] at hp hb
  have h0 : s.opened.busAnswer 0 = none := by
    rw [busAnswer_shift (s := s) (n := 0) (by simp [State.opened]) (by simp [State.opened])]
    exact hb 0 (by omega)
  rw [frameMicros_cons, runMicros_open _ s (hp 0 (by omega)), runMicros, h0]
  by_cases hpl : payload = []
  · subst hpl
    simp [runMicros, State.opened, State.afterTx, State.pinCs, State.sentFrames, State.answered, framesTrace,
      frameTrace, frameTraceAfter, dcAfter, Seq.tick_eq]
  · have hs : ∀ i < payload.length, ((s.opened.afterTx op none).pinDc .data).busAnswer i = none := fun i hi => by
      rw [busAnswer_shift (s := s) (n := 1) (by simp [State.opened]) (by simp [State.opened])]
      exact hb (1 + i) (by omega)
    simp only [hpl, if_false, List.cons_append, runMicros, runMicros_bytes payload _ _ hs]
    simp [State.bytesOut, State.opened, State.afterTx, State.pinCs, State.pinDc, State.sentFrames, State.answered,
      framesTrace, frameTrace_cons, dcAfter, Seq.tick_eq, hpl]
    exact ⟨by congr 1; omega, by rw [Nat.add_comm], by omega⟩

/-- The opcode byte of a frame fails: it is the last micro-operation, chip-select stays active, the data/command line is at
command (R88, R141). -/
theorem runMicros_frame_opcode_fails (op : Byte) (payload : List Byte) (s : State) (e : TransportErr)
    (hp : s.busyAnswer 0 = false) (hb : s.busAnswer 0 = some e) :
    runMicros (frameMicros op payload) s = .on ((s.opened.afterTx op (some e)).raise (.transport e)) := by
  have h0 : s.opened.busAnswer 0 = some e := by
    rw [busAnswer_shift (s := s) (n := 0) (by simp [State.opened]) (by simp [State.opened])]
    exact hb
  rw [frameMicros_cons, runMicros_open _ s hp, runMicros, h0]

/-- Payload byte `j` of a frame fails, those before it went out (R87, R88, R141). -/
theorem runMicros_frame_payload_fails (op : Byte) (pre : List Byte) (b : Byte) (post : List Byte) (s : State)
    (e : TransportErr) (hp : s.busyAnswer 0 = false) (hb : ∀ i < 1 + pre.length, s.busAnswer i = none)
    (hf : s.busAnswer (1 + pre.length) = some e) :
    runMicros (frameMicros op (pre ++ b :: post)) s = .on
      (((((s.opened.afterTx op none).pinDc .data).bytesOut pre).afterTx b (some e)).raise (.transport e)) := by
  have h0 : s.opened.busAnswer 0 = none := by
    rw [busAnswer_shift (s := s) (n := 0) (by simp [State.opened]) (by simp [State.opened])]
    exact hb 0 (by omega)
  have shift (i : Nat) : ((s.opened.afterTx op none).pinDc .data).busAnswer i = s.busAnswer (1 + i) :=
    busAnswer_shift (s := s) (n := 1) (by simp [State.opened]) (by simp [State.opened]) i
  have := runMicros_bytes_fail pre b (post.map .tx ++ [.cs .inact]) ((s.opened.afterTx op none).pinDc .data) e
    (fun i hi => by rw [shift]; exact hb _ (by omega)) (by rw [shift]; exact hf)
  rw [frameMicros_cons, runMicros_open _ s hp, runMicros, h0]
  simpa [runMicros] using this

/-- A frame whose first poll is answered busy waits, chip-select active, and the poll is what the next step repeats (R85). -/
theorem runMicros_frame_waits (op : Byte) (payload : List Byte) (s : State) (h : s.busyAnswer 0 = true)
    (hn : boundReached s.cfg 1 = false) :
    ∃ ms, frameMicros op payload = .cs .act :: .poll 0 :: ms ∧ runMicros (frameMicros op payload) s
      = .waiting (((s.pinCs .act).afterPoll true).push [.micros (.poll 1 :: ms)]) := by
  have h0 : (s.pinCs .act).busyAnswer 0 = true := h
  refine ⟨_, frameMicros_cons op payload, ?_⟩
  rw [frameMicros_cons, runMicros, runMicros]
  simp [h0, hn]

/-! ### Rows of frames and the run of an operation -/

/-- One frame in a running operation. -/
theorem nextTask_frame (s : State) (op : Instr) (k : Nat) (b : Byte) (bs : List Byte) (todo : List Task)
    (hs : s.seq = .run op k (.frame (b :: bs) :: todo)) (h : s.readyFor [b :: bs]) :
    nextTask s = .on { s.sentFrames [b :: bs] (dcAfter (b :: bs)) with
      seq := .run op (k + (frameTrace (b :: bs)).length) todo } := by
  have h' : (s.popTo op k todo).readyFor [b :: bs] := h
  simp only [nextTask, hs, perform, runFrame, runMicros_frame b bs _ h']
  simp [State.sentFrames, State.answered, State.popTo]

/-- Frames sent after frames sent are all those frames sent. -/
theorem sentFrames_append (s : State) (fs gs : List (List Byte)) (d d' : DcLevel) (q : Seq) :
    ({ s.sentFrames fs d with seq := q } : State).sentFrames gs d'
      = { s.sentFrames (fs ++ gs) d' with seq := q } := by
  simp [State.sentFrames, State.answered, framesTrace, Nat.add_assoc]

/-- The environment that is ready for some frames and then some more is ready for the first. -/
theorem readyFor_left {s : State} {fs gs : List (List Byte)} (h : s.readyFor (fs ++ gs)) : s.readyFor fs := by
  obtain ⟨hp, hb⟩ := h
  simp only [List.length_append, List.flatten_append] at hp hb
  exact ⟨fun i hi => hp i (by omega), fun i hi => hb i (by omega)⟩

/-- Once the first frames are sent the environment is ready for the rest. -/
theorem readyFor_right {s t : State} {fs gs : List (List Byte)} (h : s.readyFor (fs ++ gs))
    (h1 : t.busyIn = s.busyIn.drop fs.length) (h2 : t.polls = s.polls + fs.length)
    (h3 : t.busIn = s.busIn.drop fs.flatten.length) (h4 : t.sent = s.sent + fs.flatten.length) : t.readyFor gs := by
  obtain ⟨hp, hb⟩ := h
  simp only [List.length_append, List.flatten_append] at hp hb
  refine ⟨fun i hi => ?_, fun i hi => ?_⟩
  · rw [busyAnswer_shift h1 h2]; exact hp _ (by omega)
  · rw [busAnswer_shift h3 h4]; exact hb _ (by omega)

/-- A row of frames of a running operation, each in its own chip-select window (R43, R90). -/
theorem drive_frames (fs : List (List Byte)) (f : List Byte) (n : Nat) (s : State) (op : Instr) (k : Nat)
    (todo : List Task) (hne : ∀ g ∈ fs ++ [f], g ≠ [])
    (hs : s.seq = .run op k ((fs ++ [f]).map .frame ++ todo)) (h : s.readyFor (fs ++ [f])) :
    drive (n + (fs.length + 1)) s = drive n { s.sentFrames (fs ++ [f]) (dcAfter f) with
      seq := .run op (k + (framesTrace (fs ++ [f])).length) todo } := by
  induction fs generalizing s k with
  | nil =>
    cases f with
    | nil => exact absurd rfl (hne [] (by simp))
    | cons b bs =>
      simp only [List.length_nil, drive]
      rw [nextTask_frame s op k b bs todo (by simpa using hs) (by simpa using h)]
      simp [framesTrace]
  | cons g fs ih =>
    cases g with
    | nil => exact absurd rfl (hne [] (by simp))
    | cons b bs =>
      have h1 : s.readyFor [b :: bs] := readyFor_left (gs := fs ++ [f]) (by simpa using h)
      have e : n + ((b :: bs) :: fs).length + 1 = (n + (fs.length + 1)) + 1 := rfl
      rw [← Nat.add_assoc, e, drive,
        nextTask_frame s op k b bs ((fs ++ [f]).map .frame ++ todo) (by simpa using hs) h1]
      dsimp only
      rw [ih _ _ (fun g hg => hne g (by simp_all)) rfl
        (readyFor_right (fs := [b :: bs]) h rfl rfl rfl rfl)]
      congr 1
      simp only [State.sentFrames, State.answered, framesTrace, List.length_cons, List.length_nil, List.length_append,
        List.flatten_cons, List.flatten_nil, List.flatten_append, List.flatMap_cons, List.flatMap_nil, List.flatMap_append,
        List.append_nil, List.append_assoc, List.cons_append, Answers.drop_drop, State.mk.injEq, Seq.run.injEq, true_and,
        and_true]
      exact ⟨by omega, by congr 1; omega, by congr 1; omega, by omega, by omega⟩

/-- Nothing is left of an idle block's run. -/
@[simp] theorem drive_idle (n : Nat) (s : State) (h : s.seq = .idle) : drive n s = s := by
  induction n with
  | zero => rfl
  | succ n ih => simp [drive, nextTask, h, ih]

/-- The end of an operation (R22, R120). -/
theorem drive_end (n : Nat) (s : State) (op : Instr) (k : Nat) (h : s.seq = .run op k []) :
    drive (n + 1) s = s.finish := by
  simp [drive, nextTask, h, drive_idle n s.finish rfl]

/-- A task that neither waits nor ends the operation. -/
theorem drive_task (n : Nat) (s t : State) (op : Instr) (k : Nat) (x : Task) (todo : List Task)
    (hs : s.seq = .run op k (x :: todo)) (h : perform x (s.popTo op k todo) = .on t) :
    drive (n + 1) s = drive n t := by
  simp [drive, nextTask, hs, h]

/-- An accepted operation runs (R120, R133). -/
theorem operate_accepted (s : State) (op : Instr) (ts : List Task) (h : s.accepts) :
    s.operate op ts = drive driveFuel (s.start op ts) := by
  simp [State.operate, h.1, h.2]

/-- A running block refuses every host operation (R62, R120; V48). -/
theorem operate_running (s : State) (op : Instr) (ts : List Task) (h : s.seq ≠ .idle) : s.operate op ts = s := by
  simp [State.operate, h]

/-- Before NEW every other CTL operation is refused (R62, R133; V46). -/
theorem operate_unconstructed (s : State) (op : Instr) (ts : List Task) (h : s.constructed = false) :
    s.operate op ts = s := by
  simp [State.operate, h]

end Sys2Proof.Machine
end

