-- ==== Sys2Proof/Laws/Runs.lean ====
section
/-! SUPPORT. What every run keeps, whatever the environment answers: a relation that each primitive operation keeps is
kept by a run of micro-operations, by a task, by a whole operation and by `exec`; two such relations. -/

namespace Sys2Proof.Machine

/-- A relation between a state and a later one that the primitives of a run of micro-operations keep. -/
structure KeptByMicros (R : State → State → Prop) : Prop where
  refl : ∀ s, R s s
  trans : ∀ {s t u}, R s t → R t u → R s u
  pinCs : ∀ s l, R s (s.pinCs l)
  pinDc : ∀ s l, R s (s.pinDc l)
  pinRst : ∀ s l, R s (s.pinRst l)
  delayMs : ∀ s n, R s (s.delayMs n)
  afterPoll : ∀ s b, R s (s.afterPoll b)
  tick : ∀ s, R s s.tick
  afterTx : ∀ s b r, R s (s.afterTx b r)
  raise : ∀ s e, R s (s.raise e)
  wait : ∀ s ms, R s (s.push [.micros ms])

/-- A run of micro-operations keeps what its primitives keep. -/
theorem KeptByMicros.runMicros {R : State → State → Prop} (h : KeptByMicros R) (ms : List Micro) (s : State) :
    R s (runMicros ms s).state := by
  induction ms generalizing s with
  | nil => exact h.refl s
  | cons m ms ih =>
    cases m <;> simp only [Machine.runMicros]
    case cs l => exact h.trans (h.pinCs s l) (ih _)
    case dc l => exact h.trans (h.pinDc s l) (ih _)
    case rst l => exact h.trans (h.pinRst s l) (ih _)
    case delay n => exact h.trans (h.delayMs s n) (ih _)
    case poll n =>
      split
      · split
        · exact h.trans (h.afterPoll s true) (h.raise _ _)
        · exact h.trans (h.afterPoll s true) (h.wait _ _)
      · exact h.trans (h.trans (h.afterPoll s false) (h.tick _)) (ih _)
    case tx b =>
      split
      · exact h.trans (h.afterTx s b none) (ih _)
      · exact h.trans (h.afterTx s b _) (h.raise _ _)

/-- A frame keeps what its primitives keep. -/
theorem KeptByMicros.runFrame {R : State → State → Prop} (h : KeptByMicros R) (bytes : List Byte) (s : State) :
    R s (runFrame bytes s).state := by
  unfold Machine.runFrame
  split
  · exact h.refl s
  · exact h.runMicros _ s

/-- A command keeps what the primitives of its frame keep. -/
theorem KeptByMicros.exec_command {R : State → State → Prop} (h : KeptByMicros R) {i : Instr} {s t : State}
    (hc : isCommand i = true) (he : exec i s = .next t) : R s t := by
  obtain ⟨op, payload, hf⟩ := frameBytes_of_isCommand i hc
  rw [Machine.exec_command i s op payload hf] at he
  injection he with he
  subst he
  unfold State.send
  split
  · exact h.refl s
  · exact h.runMicros _ s

/-- A relation that everything a task can do keeps. -/
structure KeptByTasks (R : State → State → Prop) : Prop extends KeptByMicros R where
  push : ∀ s ts, R s (s.push ts)
  popTo : ∀ s op k ts, R s (s.popTo op k ts)
  finish : ∀ s, R s s.finish
  markInitialized : ∀ s, R s s.markInitialized
  markUninitialized : ∀ s, R s s.markUninitialized
  resetFlag : ∀ s, R s s.resetFlag
  construct : ∀ s, R s s.construct
  toPartial : ∀ s, R s s.toPartial
  toFull : ∀ s, R s s.toFull
  saveMode : ∀ s, R s s.saveMode

/-- A task keeps what its operations keep. -/
theorem KeptByTasks.perform {R : State → State → Prop} (h : KeptByTasks R) (x : Task) (s : State) :
    R s (perform x s).state := by
  cases x <;> simp only [Machine.perform, Progress.state]
  case frame bytes => exact h.runFrame bytes s
  case micros ms => exact h.runMicros ms s
  case lutFrame => exact h.push s _
  case init => exact h.push s _
  case ensureInit => split <;> first | exact h.refl s | exact h.push s _
  case markInitialized => exact h.markInitialized s
  case markUninitialized => exact h.markUninitialized s
  case resetFlag => exact h.resetFlag s
  case construct => exact h.construct s
  case setPartial => exact h.toPartial s
  case setFull => exact h.toFull s
  case saveMode => exact h.saveMode s
  case restoreMode => unfold State.restoreMode; split <;> first | exact h.toPartial s | exact h.refl s

/-- The next task of an operation keeps it. -/
theorem KeptByTasks.nextTask {R : State → State → Prop} (h : KeptByTasks R) (s : State) : R s (nextTask s).state := by
  unfold Machine.nextTask
  split
  · exact h.refl s
  · exact h.finish s
  · exact h.trans (h.popTo s _ _ _) (h.perform _ _)

/-- A run of tasks keeps it. -/
theorem KeptByTasks.drive {R : State → State → Prop} (h : KeptByTasks R) (n : Nat) (s : State) : R s (drive n s) := by
  induction n generalizing s with
  | zero => exact h.refl s
  | succ n ih =>
    have h1 := h.nextTask s
    unfold Machine.drive
    split <;> rename_i h2 <;> rw [h2] at h1
    · exact h.trans h1 (ih _)
    · exact h1

/-- A property of the running operation that each of its tasks keeps. -/
theorem drive_induction {P : State → Prop} (hP : ∀ s, P s → P (nextTask s).state) (n : Nat) (s : State) (h : P s) :
    P (drive n s) := by
  induction n generalizing s with
  | zero => exact h
  | succ n ih =>
    have h1 := hP s h
    unfold drive
    split <;> rename_i h2 <;> rw [h2] at h1
    · exact ih _ h1
    · exact h1

/-- What `exec` does with a host operation of the ControllerDriver: nothing, or it runs its lines (R120, R133). -/
theorem exec_controllerOp {i : Instr} {s t : State} (hi : isControllerOp i = true) (h : exec i s = .next t) :
    t = s ∨ (s.seq = .idle ∧ (i = .new ∨ s.constructed = true) ∧ t = drive driveFuel (s.start i (linesOf i s))) := by
  cases i <;> simp [isControllerOp, isCommand, isFramebufferOp] at hi <;> simp only [exec] at h
  case new =>
    injection h with h; subst h
    unfold State.operateNew
    split
    · rename_i h1; exact .inr ⟨h1, .inl rfl, rfl⟩
    · exact .inl rfl
  case setDisplay fb =>
    injection h with h; subst h
    split
    · rename_i b hb
      unfold State.operate
      split
      · rename_i h1; exact .inr ⟨h1.1, .inr h1.2, by simp [linesOf, hb]⟩
      · exact .inl rfl
    · exact .inl rfl
  all_goals
    injection h with h; subst h
    unfold State.operate
    split
    · rename_i h1; exact .inr ⟨h1.1, .inr h1.2, rfl⟩
    · exact .inl rfl

/-- What `exec` does with an operation of the FrameBuffer packer (R80): `bufs` and `response` at most change. -/
theorem exec_framebufferOp {i : Instr} {s t : State} (hi : isFramebufferOp i = true) (h : exec i s = .next t) :
    t = { s with bufs := t.bufs, response := t.response } := by
  cases i <;> simp [isFramebufferOp] at hi <;> simp only [exec] at h
  case fbNew o => injection h with h; subst h; split <;> rfl
  case fbGetBuffer fb => injection h with h; subst h; split <;> rfl
  case fbDrawPixel fb x y c =>
    unfold execFbDrawPixel at h
    split at h
    · split at h
      · injection h with h; subst h; rfl
      · cases h
    · injection h with h; subst h; rfl

/-- Every instruction is a command, an operation of the ControllerDriver or one of the FrameBuffer packer (R9). -/
theorem instr_classes (i : Instr) : isCommand i = true ∨ isControllerOp i = true ∨ isFramebufferOp i = true := by
  cases i <;> simp [isCommand, isControllerOp, isFramebufferOp]

/-! ### What a step can do -/

/-- A step of a running operation that answers a next state performs the next task. -/
theorem step_running {s t : State} (hs : s.seq ≠ .idle) (h : step s = .next t) : t = (nextTask s).state := by
  unfold step at h
  split at h
  · contradiction
  · rename_i op k bytes todo hq
    split at h
    · rename_i i hd
      rw [exec_decoded _ hd] at h
      injection h with h
      rw [← h, nextTask, hq]
      rfl
    · cases h
  · injection h with h; exact h.symm

/-- A running operation always steps, unless its next line is a frame that does not decode (R61). -/
theorem step_of_decodes {s : State} (hs : s.seq ≠ .idle) (h : ∀ x rest, s.seq.todo = x :: rest → x.decodes = true) :
    step s = .next (nextTask s).state := by
  unfold step
  split
  · contradiction
  · rename_i op k bytes todo hq
    have hx := h (.frame bytes) todo (by rw [hq]; rfl)
    split
    · rename_i i hd
      rw [exec_decoded _ hd, nextTask, hq]
      rfl
    · rename_i hd
      simp [Task.decodes, hd, Except.toBool] at hx
  · rfl

/-- Everything a step can do: wait for a request, execute one, refuse one, or perform the next task of the operation. -/
theorem step_cases {s t : State} (h : step s = .next t) :
    (s.seq = .idle ∧ s.requests = [] ∧ t = s)
      ∨ (∃ r rest i, s.seq = .idle ∧ s.requests = r :: rest ∧ decodeRequest r = .ok i ∧ isCommand i = false
          ∧ exec i (s.take rest) = .next t)
      ∨ (∃ r rest, s.seq = .idle ∧ s.requests = r :: rest ∧ t = s.take rest)
      ∨ (s.seq ≠ .idle ∧ t = (nextTask s).state) := by
  by_cases hs : s.seq = .idle
  · unfold step at h
    rw [hs] at h
    cases hr : s.requests with
    | nil => simp only [hr] at h; injection h with h; exact .inl ⟨hs, rfl, h.symm⟩
    | cons r rest =>
      simp only [hr] at h
      split at h
      · rename_i i hd
        exact .inr (.inl ⟨r, rest, i, hs, rfl, hd, decodeRequest_not_command hd, h⟩)
      · injection h with h; exact .inr (.inr (.inl ⟨r, rest, hs, rfl, h.symm⟩))
  · exact .inr (.inr (.inr ⟨hs, step_running hs h⟩))

/-! ### Several steps -/

/-- A step and then `n` more. -/
theorem steps_succ {n : Nat} {s t : State} (h : step s = .next t) : steps (n + 1) s = steps n t := by
  simp [steps, h]

/-- One step. -/
theorem steps_one {s t : State} (h : step s = .next t) : steps 1 s = .next t := by
  simp [steps, h]

/-- `n` steps and then `m` more. -/
theorem steps_add {n : Nat} (m : Nat) {s t : State} (h : steps n s = .next t) : steps (n + m) s = steps m t := by
  induction n generalizing s with
  | zero => simp only [steps, Host.Outcome.next.injEq] at h; simp [h]
  | succ n ih =>
    cases hs : step s with
    | next u => rw [Nat.add_right_comm, steps_succ hs, ih (by rw [← h, steps_succ hs])]
    | fault r => simp [steps, hs] at h
    | refused r => simp [steps, hs] at h

/-- One step of the host's run. -/
theorem coreRun_succ (M : Host.Core) (n : Nat) (s : M.State) :
    M.run (n + 1) s = match M.step s with
      | .next t => M.run n t
      | .fault r => .fault r
      | .refused r => .refused r := rfl

/-- `steps` is the host's run of the machine. -/
theorem steps_eq_run (n : Nat) (s : State) : steps n s = Host.Core.run core n s := by
  induction n generalizing s with
  | zero => rfl
  | succ n ih =>
    refine Eq.trans ?_ (coreRun_succ core n s).symm
    have h : core.step s = step s := rfl
    rw [steps, h]
    cases step s with
    | next t => exact ih t
    | fault r => rfl
    | refused r => rfl

/-! ### What micro-operations leave alone -/

/-- The flags, the FrameBuffers, the parameters and the further requests are the same. -/
structure SameFlags (s t : State) : Prop where
  cfg : t.cfg = s.cfg
  partialMode : t.partialMode = s.partialMode
  initialized : t.initialized = s.initialized
  constructed : t.constructed = s.constructed
  bufs : t.bufs = s.bufs
  requests : t.requests = s.requests

/-- No micro-operation touches them (R86, R87: "Flags written: none"). -/
theorem SameFlags.kept : KeptByMicros SameFlags where
  refl _ := ⟨rfl, rfl, rfl, rfl, rfl, rfl⟩
  trans h g := ⟨g.1.trans h.1, g.2.trans h.2, g.3.trans h.3, g.4.trans h.4, g.5.trans h.5, g.6.trans h.6⟩
  pinCs _ _ := ⟨rfl, rfl, rfl, rfl, rfl, rfl⟩
  pinDc _ _ := ⟨rfl, rfl, rfl, rfl, rfl, rfl⟩
  pinRst _ _ := ⟨rfl, rfl, rfl, rfl, rfl, rfl⟩
  delayMs _ _ := ⟨rfl, rfl, rfl, rfl, rfl, rfl⟩
  afterPoll _ _ := ⟨rfl, rfl, rfl, rfl, rfl, rfl⟩
  tick _ := ⟨rfl, rfl, rfl, rfl, rfl, rfl⟩
  afterTx _ _ _ := ⟨rfl, rfl, rfl, rfl, rfl, rfl⟩
  raise _ _ := ⟨rfl, rfl, rfl, rfl, rfl, rfl⟩
  wait _ _ := ⟨rfl, rfl, rfl, rfl, rfl, rfl⟩

/-- The FrameBuffers, the parameters and the further requests are the same. -/
structure SameHost (s t : State) : Prop where
  cfg : t.cfg = s.cfg
  bufs : t.bufs = s.bufs
  requests : t.requests = s.requests

/-- No task touches them (R30, R127). -/
theorem SameHost.kept : KeptByTasks SameHost where
  refl _ := ⟨rfl, rfl, rfl⟩
  trans h g := ⟨g.1.trans h.1, g.2.trans h.2, g.3.trans h.3⟩
  pinCs _ _ := ⟨rfl, rfl, rfl⟩
  pinDc _ _ := ⟨rfl, rfl, rfl⟩
  pinRst _ _ := ⟨rfl, rfl, rfl⟩
  delayMs _ _ := ⟨rfl, rfl, rfl⟩
  afterPoll _ _ := ⟨rfl, rfl, rfl⟩
  tick _ := ⟨rfl, rfl, rfl⟩
  afterTx _ _ _ := ⟨rfl, rfl, rfl⟩
  raise _ _ := ⟨rfl, rfl, rfl⟩
  wait _ _ := ⟨rfl, rfl, rfl⟩
  push _ _ := ⟨rfl, rfl, rfl⟩
  popTo _ _ _ _ := ⟨rfl, rfl, rfl⟩
  finish _ := ⟨rfl, rfl, rfl⟩
  markInitialized _ := ⟨rfl, rfl, rfl⟩
  markUninitialized _ := ⟨rfl, rfl, rfl⟩
  resetFlag _ := ⟨rfl, rfl, rfl⟩
  construct _ := ⟨rfl, rfl, rfl⟩
  toPartial _ := ⟨by simp, by simp, by simp⟩
  toFull _ := ⟨by simp, by simp, by simp⟩
  saveMode _ := ⟨rfl, rfl, rfl⟩

/-! ### The trace and the latches -/

@[simp] theorem lastCs_append (l : Latch CsLevel) (es fs : List Event) :
    lastCs l (es ++ fs) = lastCs (lastCs l es) fs := by
  induction es generalizing l with
  | nil => rfl
  | cons e es ih => cases e <;> simp [lastCs, ih]

@[simp] theorem lastDc_append (l : Latch DcLevel) (es fs : List Event) :
    lastDc l (es ++ fs) = lastDc (lastDc l es) fs := by
  induction es generalizing l with
  | nil => rfl
  | cons e es ih => cases e <;> simp [lastDc, ih]

@[simp] theorem lastRst_append (l : Latch Level) (es fs : List Event) :
    lastRst l (es ++ fs) = lastRst (lastRst l es) fs := by
  induction es generalizing l with
  | nil => rfl
  | cons e es ih => cases e <;> simp [lastRst, ih]

/-- Between two states the trace has only grown, and each latch holds what the events since then drove last (R20, R81). -/
def Follows (s t : State) : Prop :=
  ∃ es, t.trace = s.trace ++ es ∧ t.cs = lastCs s.cs es ∧ t.dc = lastDc s.dc es ∧ t.rst = lastRst s.rst es

/-- No event, no latch driven. -/
theorem Follows.same {s t : State} (h : t.trace = s.trace) (h1 : t.cs = s.cs) (h2 : t.dc = s.dc) (h3 : t.rst = s.rst) :
    Follows s t :=
  ⟨[], by simp [h], h1, h2, h3⟩

theorem Follows.trans {s t u : State} : Follows s t → Follows t u → Follows s u := by
  rintro ⟨es, a, b, c, d⟩ ⟨es', a', b', c', d'⟩
  exact ⟨es ++ es', by simp [a', a], by simp [b', b], by simp [c', c], by simp [d', d]⟩

/-- Every run follows its trace. -/
theorem Follows.kept : KeptByTasks Follows where
  refl _ := .same rfl rfl rfl rfl
  trans := Follows.trans
  pinCs _ l := ⟨[.cs l], rfl, rfl, rfl, rfl⟩
  pinDc _ l := ⟨[.dc l], rfl, rfl, rfl, rfl⟩
  pinRst _ l := ⟨[.rst l], rfl, rfl, rfl, rfl⟩
  delayMs _ n := ⟨[.delay n], rfl, rfl, rfl, rfl⟩
  afterPoll _ b := ⟨[.busy b], rfl, rfl, rfl, rfl⟩
  tick _ := .same rfl rfl rfl rfl
  afterTx _ b r := match r with
    | none => ⟨[.tx b], rfl, rfl, rfl, rfl⟩
    | some e => ⟨[.txFailed b e], rfl, rfl, rfl, rfl⟩
  raise _ _ := .same rfl rfl rfl rfl
  wait _ _ := .same rfl rfl rfl rfl
  push _ _ := .same rfl rfl rfl rfl
  popTo _ _ _ _ := .same rfl rfl rfl rfl
  finish _ := .same rfl rfl rfl rfl
  markInitialized _ := .same rfl rfl rfl rfl
  markUninitialized _ := .same rfl rfl rfl rfl
  resetFlag _ := .same rfl rfl rfl rfl
  construct _ := .same rfl rfl rfl rfl
  toPartial _ := .same (by simp) (by simp) (by simp) (by simp)
  toFull _ := .same (by simp) (by simp) (by simp) (by simp)
  saveMode _ := .same rfl rfl rfl rfl

end Sys2Proof.Machine
end

