-- ==== Sys2Proof/Laws/Sequences.lean ====
section
/-! SUPPORT. The run of an operation's lines with the controller ready and the bus ok, composed line by line: frames,
INIT, ENSURE_INIT, UPDATE_SEQ (R110 to R118). A state of a running operation is written `x.popTo op k todo`. -/

namespace Sys2Proof.Machine

/-- From `s`, `n` tasks lead to `t`, whatever comes after. -/
def Drives (n : Nat) (s t : State) : Prop := ∀ m, drive (m + n) s = drive m t

theorem Drives.trans {n m : Nat} {s t u : State} (h : Drives n s t) (h' : Drives m t u) : Drives (m + n) s u :=
  fun k => by rw [← Nat.add_assoc, h, h']

@[simp] theorem popTo_popTo (s : State) (op op' : Instr) (k k' : Nat) (ts ts' : List Task) :
    (s.popTo op k ts).popTo op' k' ts' = s.popTo op' k' ts' := rfl

/-- One task that goes on to its end. -/
theorem Drives.task {x : Task} {s t : State} {op : Instr} {k : Nat} {todo : List Task}
    (h : perform x (s.popTo op k todo) = .on t) : Drives 1 (s.popTo op k (x :: todo)) t :=
  fun m => drive_task m _ t op k x todo rfl h

/-- A row of frames. -/
theorem Drives.frames (fs : List (List Byte)) (f : List Byte) (s : State) (op : Instr) (k : Nat) (todo : List Task)
    (hne : ∀ g ∈ fs ++ [f], g ≠ []) (h : s.readyFor (fs ++ [f])) :
    Drives (fs.length + 1) (s.popTo op k ((fs ++ [f]).map .frame ++ todo))
      ((s.sentFrames (fs ++ [f]) (dcAfter f)).popTo op (k + (framesTrace (fs ++ [f])).length) todo) :=
  fun m => drive_frames fs f m _ op k todo hne rfl h

/-- Frames of INIT in one row (R110). -/
theorem initFrames_eq (c : Config) (m : Bool) :
    initFrames c m = initConfigFrames c ++ ([lutFrameBytes c m] ++ powerFrames) := by
  simp [initFrames]

/-- Frames after frames (R43). -/
theorem sentFrames_sentFrames (s : State) (fs gs : List (List Byte)) (d d' : DcLevel) :
    (s.sentFrames fs d).sentFrames gs d' = s.sentFrames (fs ++ gs) d' := by
  simp [State.sentFrames, State.answered, framesTrace, Nat.add_assoc]

@[simp] theorem framesTrace_append (fs gs : List (List Byte)) :
    framesTrace (fs ++ gs) = framesTrace fs ++ framesTrace gs := by
  simp [framesTrace]

/-- Once the first frames are sent the environment is ready for the rest. -/
theorem readyFor_after {s : State} {fs gs : List (List Byte)} (h : s.readyFor (fs ++ gs)) (d : DcLevel) :
    (s.sentFrames fs d).readyFor gs :=
  readyFor_right h rfl rfl rfl rfl

/-- INIT (R110, R112): thirteen frames with the table of the mode, then `initialized` is true. -/
theorem Drives.init (s : State) (op : Instr) (k : Nat) (todo : List Task) (h : s.readyFor (initFrames s.cfg s.isPartial)) :
    Drives 16 (s.popTo op k (.init :: todo))
      ((s.sentFrames (initFrames s.cfg s.isPartial) .cmd).markInitialized.popTo op
        (k + (framesTrace (initFrames s.cfg s.isPartial)).length) todo) := by
  rw [initFrames_eq] at h ⊢
  have e (x : Config) : initTasks x = (initConfigFrames x).map .frame
      ++ .lutFrame :: (powerFrames.map .frame ++ [.markInitialized]) := by simp [initTasks]
  have h1 : Drives 1 (s.popTo op k (.init :: todo)) (s.popTo op k ((initConfigFrames s.cfg).map .frame
      ++ .lutFrame :: (powerFrames.map .frame ++ .markInitialized :: todo))) :=
    Drives.task (by simp only [perform, State.push, e]; simp [State.popTo])
  obtain ⟨d, h2⟩ : ∃ d, Drives 10 (s.popTo op k ((initConfigFrames s.cfg).map .frame
      ++ .lutFrame :: (powerFrames.map .frame ++ .markInitialized :: todo)))
      ((s.sentFrames (initConfigFrames s.cfg) d).popTo op (k + (framesTrace (initConfigFrames s.cfg)).length)
        (.lutFrame :: (powerFrames.map .frame ++ .markInitialized :: todo))) :=
    ⟨_, Drives.frames [_, _, _, _, _, _, _, _, _] _ s op k _ (by simp [frameBytes, encode]) (readyFor_left h)⟩
  have h3 : Drives 1 ((s.sentFrames (initConfigFrames s.cfg) d).popTo op
      (k + (framesTrace (initConfigFrames s.cfg)).length)
        (.lutFrame :: (powerFrames.map .frame ++ .markInitialized :: todo)))
      ((s.sentFrames (initConfigFrames s.cfg) d).popTo op (k + (framesTrace (initConfigFrames s.cfg)).length)
        ((([lutFrameBytes s.cfg s.isPartial] ++ powerFrames).map .frame) ++ .markInitialized :: todo)) :=
    Drives.task (by rfl)
  have h4 := Drives.frames [lutFrameBytes s.cfg s.isPartial, frameBytes (.displayUpdateControl2 selectPower)]
    (frameBytes .masterActivation) (s.sentFrames (initConfigFrames s.cfg) d) op
    (k + (framesTrace (initConfigFrames s.cfg)).length) (.markInitialized :: todo)
    (by simp [frameBytes, encode, lutFrameBytes]) (readyFor_after h d)
  rw [sentFrames_sentFrames, Nat.add_assoc, ← List.length_append, ← framesTrace_append] at h4
  exact (((h1.trans h2).trans h3).trans h4).trans (Drives.task rfl)

/-- ENSURE_INIT where it finds the block initialised: nothing (R111). -/
theorem Drives.ensureInit_initialized (s : State) (op : Instr) (k : Nat) (todo : List Task)
    (h : s.isInitialized = true) : Drives 1 (s.popTo op k (.ensureInit :: todo)) (s.popTo op k todo) :=
  Drives.task (by
    have h' : (s.popTo op k todo).isInitialized = true := h
    simp [perform, h'])

/-- ENSURE_INIT where it does not: INIT (R111). -/
theorem Drives.ensureInit_uninitialized (s : State) (op : Instr) (k : Nat) (todo : List Task)
    (h : s.isInitialized = false) : Drives 1 (s.popTo op k (.ensureInit :: todo)) (s.popTo op k (.init :: todo)) :=
  Drives.task (by
    have h' : (s.popTo op k todo).isInitialized = false := h
    simp [perform, h']
    rfl)

/-- UPDATE_SEQ (R118). -/
theorem Drives.updateSeq (s : State) (op : Instr) (k : Nat) (todo : List Task) (h : s.readyFor updateFrames) :
    Drives 3 (s.popTo op k (updateFrames.map .frame ++ todo))
      ((s.sentFrames updateFrames .cmd).popTo op (k + (framesTrace updateFrames).length) todo) :=
  Drives.frames [_, _] _ s op k todo (by simp [frameBytes, encode]) h

/-- POWER_ON (R117). -/
theorem Drives.powerSeq (s : State) (op : Instr) (k : Nat) (todo : List Task) (h : s.readyFor powerFrames) :
    Drives 2 (s.popTo op k (powerFrames.map .frame ++ todo))
      ((s.sentFrames powerFrames .cmd).popTo op (k + (framesTrace powerFrames).length) todo) :=
  Drives.frames [_] _ s op k todo (by simp [frameBytes, encode]) h

/-- One frame of a RAM write with a bitmap that is not empty (R99). -/
theorem Drives.ramWrite (s : State) (op : Instr) (k : Nat) (todo : List Task) (bitmap : List Byte) (hne : bitmap ≠ [])
    (h : s.readyFor [ramFrame bitmap]) :
    Drives 1 (s.popTo op k (.frame (ramFrame bitmap) :: todo))
      ((s.sentFrames [ramFrame bitmap] .data).popTo op (k + (framesTrace [ramFrame bitmap]).length) todo) := by
  have hd : dcAfter (ramFrame bitmap) = .data := by simp [dcAfter, ramFrame, frameBytes, encode, hne]
  have := Drives.frames [] (ramFrame bitmap) s op k todo (by simp [ramFrame, frameBytes, encode]) h
  rwa [hd] at this

/-- The end of an operation: what is left of the fuel does nothing (R22, R120). -/
theorem Drives.ends {n : Nat} {s x : State} {op : Instr} {k : Nat} (h : Drives n s (x.popTo op k []))
    (hn : n < driveFuel) : drive driveFuel s = x.finish := by
  obtain ⟨m, hm⟩ : ∃ m, driveFuel = (m + 1) + n := ⟨driveFuel - n - 1, by omega⟩
  rw [hm, h, drive_end m (x.popTo op k []) op k rfl]
  rfl

end Sys2Proof.Machine
end

