-- ==== Sys2Proof/Laws/Traces.lean ====
section
/-! SUPPORT. The views of a trace (R10, R11): transport, pins, frames, the waveform table sent last; and what a run of
micro-operations adds to the trace. -/

namespace Sys2Proof.Machine

@[simp] theorem bytesSent_append (es fs : List Event) : bytesSent (es ++ fs) = bytesSent es ++ bytesSent fs := by
  induction es with
  | nil => rfl
  | cons e es ih => cases e <;> simp [bytesSent, ih]

@[simp] theorem transport_append (es fs : List Event) : transport (es ++ fs) = transport es ++ transport fs := by
  simp [transport]

/-- The latches after one event and then others. -/
theorem lastCs_cons (l : Latch CsLevel) (e : Event) (es : List Event) : lastCs l (e :: es) = lastCs (lastCs l [e]) es :=
  lastCs_append l [e] es

theorem lastDc_cons (l : Latch DcLevel) (e : Event) (es : List Event) : lastDc l (e :: es) = lastDc (lastDc l [e]) es :=
  lastDc_append l [e] es

theorem lastRst_cons (l : Latch Level) (e : Event) (es : List Event) : lastRst l (e :: es) = lastRst (lastRst l [e]) es :=
  lastRst_append l [e] es

/-- A redundant write leaves every latch as it was (R81). -/
theorem redundant_latches {cs : Latch CsLevel} {dc : Latch DcLevel} {rst : Latch Level} {e : Event}
    (h : e.redundant cs dc rst = true) : lastCs cs [e] = cs ∧ lastDc dc [e] = dc ∧ lastRst rst [e] = rst := by
  cases e <;> simp_all [Event.redundant, lastCs, lastDc, lastRst]

/-- The pin view of a trace and then another. -/
theorem pinView_append (cs : Latch CsLevel) (dc : Latch DcLevel) (rst : Latch Level) (es fs : List Event) :
    pinView cs dc rst (es ++ fs)
      = pinView cs dc rst es ++ pinView (lastCs cs es) (lastDc dc es) (lastRst rst es) fs := by
  induction es generalizing cs dc rst with
  | nil => rfl
  | cons e es ih =>
    rw [List.cons_append, pinView, ih, pinView, List.append_assoc, ← lastCs_cons, ← lastDc_cons, ← lastRst_cons]


/-! ### Frames and tables of a trace -/

/-- The bytes of the frame a trace leaves open. -/
def openFrame (current : Option (List Byte)) : List Event → Option (List Byte)
  | [] => current
  | .cs .act :: es => openFrame (some []) es
  | .cs .inact :: es => openFrame none es
  | .tx b :: es => openFrame (current.map (· ++ [b])) es
  | _ :: es => openFrame current es

theorem framesFrom_append (c : Option (List Byte)) (es fs : List Event) :
    framesFrom c (es ++ fs) = framesFrom c es ++ framesFrom (openFrame c es) fs := by
  induction es generalizing c with
  | nil => rfl
  | cons e es ih =>
    cases e with
    | cs l => cases l <;> simp [framesFrom, openFrame, ih]
    | _ => simp [framesFrom, openFrame, ih]

theorem lastTableOf_append (t : Option (List Byte)) (fs gs : List (List Byte)) :
    lastTableOf t (fs ++ gs) = lastTableOf (lastTableOf t fs) gs := by
  induction fs generalizing t with
  | nil => rfl
  | cons f fs ih => exact ih _

/-- The table sent last in a trace and then another. -/
theorem lastTable_append (es fs : List Event) :
    lastTable (es ++ fs) = lastTableOf (lastTable es) (framesFrom (openFrame none es) fs) := by
  rw [lastTable, frameView, framesFrom_append, lastTableOf_append]; rfl

/-- An event that is neither chip-select nor a byte that went out is in no frame. -/
theorem framesFrom_skip (c : Option (List Byte)) (e : Event) (fs : List Event) (h1 : ∀ l, e ≠ .cs l) (h2 : ∀ b, e ≠ .tx b) :
    framesFrom c (e :: fs) = framesFrom c fs := by
  cases e <;> simp_all [framesFrom]

/-- Such an event changes no table. -/
theorem lastTable_skip (es fs : List Event) (e : Event) (h1 : ∀ l, e ≠ .cs l) (h2 : ∀ b, e ≠ .tx b) :
    lastTable (es ++ e :: fs) = lastTable (es ++ fs) := by
  rw [lastTable_append, lastTable_append, framesFrom_skip _ e fs h1 h2]

/-- Busy answers are in no frame (R93). -/
theorem framesFrom_filter (c : Option (List Byte)) (es : List Event) :
    framesFrom c (es.filter (· ≠ .busy true)) = framesFrom c es := by
  induction es generalizing c with
  | nil => rfl
  | cons e es ih =>
    by_cases h : e = .busy true
    · subst h; simpa [framesFrom] using ih c
    · rw [List.filter_cons_of_pos (by simpa using h)]
      cases e with
      | cs l => cases l <;> simp only [framesFrom, ih]
      | _ => simp only [framesFrom, ih]

/-- Without `CS=inact` no frame ends. -/
theorem framesFrom_open (c : Option (List Byte)) (es : List Event) (h : Event.cs .inact ∉ es) : framesFrom c es = [] := by
  induction es generalizing c with
  | nil => rfl
  | cons e es ih =>
    have hs : Event.cs .inact ∉ es := fun h' => h (List.mem_cons_of_mem _ h')
    cases e with
    | cs l => cases l <;> simp_all [framesFrom]
    | _ => simpa [framesFrom] using ih _ hs

theorem framesFrom_tx (c : List Byte) (bs : List Byte) (es : List Event) :
    framesFrom (some c) (bs.map .tx ++ es) = framesFrom (some (c ++ bs)) es := by
  induction bs generalizing c with
  | nil => simp
  | cons b bs ih => simp [framesFrom, ih]

/-- The frame view of a frame's events is that frame, whatever was open before (R11). -/
theorem framesFrom_frameTrace (c : Option (List Byte)) (op : Byte) (payload : List Byte) :
    framesFrom c (frameTrace (op :: payload)) = [op :: payload] := by
  rw [frameTrace_cons]
  by_cases h : payload = []
  · simp [h, framesFrom]
  · simp [h, framesFrom, framesFrom_tx]

theorem openFrame_append (c : Option (List Byte)) (es fs : List Event) :
    openFrame c (es ++ fs) = openFrame (openFrame c es) fs := by
  induction es generalizing c with
  | nil => rfl
  | cons e es ih =>
    cases e with
    | cs l => cases l <;> simp [openFrame, ih]
    | _ => simp [openFrame, ih]

/-- The frame view of the events of frames is those frames (R11). -/
theorem framesFrom_framesTrace (c : Option (List Byte)) (fs : List (List Byte)) (h : ∀ f ∈ fs, f ≠ []) :
    framesFrom c (framesTrace fs) = fs := by
  induction fs generalizing c with
  | nil => rfl
  | cons f fs ih =>
    cases f with
    | nil => exact absurd rfl (h [] (by simp))
    | cons op payload =>
      have : framesTrace ((op :: payload) :: fs) = frameTrace (op :: payload) ++ framesTrace fs := rfl
      rw [this, framesFrom_append, framesFrom_frameTrace, ih _ (fun f hf => h f (by simp [hf]))]
      rfl

/-- The events of a frame are those of its micro-operations. -/
theorem frameMicros_events (op : Byte) (payload : List Byte) :
    (frameMicros op payload).map Micro.event = frameTrace (op :: payload) := by
  rw [frameMicros_cons, frameTrace_cons]
  by_cases h : payload = []
  · simp [h, Micro.event]
  · have : (payload.map Micro.tx).map Micro.event = payload.map Event.tx := by simp [Micro.event, Function.comp_def]
    simp only [h, if_false, List.map_cons, List.map_append, this]; simp [Micro.event]

/-- INIT's events load the table of its mode (R110, R113). -/
theorem lastTable_isInit (pre es : List Event) (c : Config) (m : Bool) (h : isInit c m es) :
    lastTable (pre ++ es) = some (lutOf c m) := by
  rw [lastTable_append, ← framesFrom_filter, h, framesFrom_framesTrace _ _ (by
    simp [initFrames, initConfigFrames, lutFrameBytes, powerFrames, frameBytes, encode])]
  simp [initFrames, initConfigFrames, lutFrameBytes, powerFrames, frameBytes, encode, lastTableOf]

/-- A frame that gets so far gives that frame or none. -/
theorem framesFrom_take_frame (c : Option (List Byte)) (op : Byte) (payload : List Byte) (n : Nat) :
    framesFrom c ((frameTrace (op :: payload)).take n) = [] ∨
      framesFrom c ((frameTrace (op :: payload)).take n) = [op :: payload] := by
  have h := framesFrom_append c ((frameTrace (op :: payload)).take n) ((frameTrace (op :: payload)).drop n)
  rw [List.take_append_drop, framesFrom_frameTrace] at h
  rcases List.append_eq_singleton_iff.1 h.symm with ⟨h, -⟩ | ⟨h, -⟩
  · exact .inl h
  · exact .inr h

/-- A line that sends no table of its own keeps the table of the mode, however far it gets. -/
theorem lastTable_sendsNoTable (tr : List Event) (c : Config) (m : Bool) (x : Task) (n : Nat)
    (h : x.sendsNoTable = true) (ht : lastTable tr = some (lutOf c m)) :
    lastTable (tr ++ (x.events c m).take n) = some (lutOf c m) := by
  cases x <;> simp only [Task.events, List.take_nil, List.append_nil] <;> try exact ht
  case lutFrame =>
    rw [lastTable_append, ht]
    obtain ⟨op, payload, e⟩ : ∃ op payload, lutFrameBytes c m = op :: payload := ⟨_, _, rfl⟩
    rcases framesFrom_take_frame (openFrame none tr) op payload n with h | h <;> rw [e, h]
    · rfl
    · rw [← e]; simp [lastTableOf, lutFrameBytes, frameBytes, encode]
  case frame b =>
    cases b with
    | nil => simpa [frameTrace, frameTraceAfter] using ht
    | cons op payload =>
      have hop : op ≠ 0x32#8 := by simpa [Task.sendsNoTable] using h
      rw [lastTable_append, ht]
      rcases framesFrom_take_frame (openFrame none tr) op payload n with h | h <;> simp [h, lastTableOf, hop]
  case micros ms =>
    rw [lastTable_append, framesFrom_open, ht]
    · rfl
    intro hm
    obtain ⟨y, hy, e⟩ := List.mem_map.1 (List.mem_of_mem_take hm)
    cases y <;> simp [Micro.event] at e
    subst e
    simp [Task.sendsNoTable] at h
    exact h hy

/-! ### What a run of micro-operations can do -/

/-- Everything a run of micro-operations of an operation can do: come to its end; stop at a byte that failed or at a wait
that gave up, which ends the operation; or wait, with the poll and what comes after it left to do (R22, R85, R88, R89). -/
theorem runMicros_cases (ms : List Micro) (s : State) (op : Instr) (k : Nat) (todo : List Task)
    (hs : s.seq = .run op k todo) :
    ((runMicros ms s).state.trace = s.trace ++ ms.map Micro.event ∧ ∃ k', (runMicros ms s).state.seq = .run op k' todo)
    ∨ (∃ n e, (runMicros ms s).state.trace = s.trace ++ (ms.map Micro.event).take n ++ [e]
        ∧ ((∃ b x, e = .txFailed b x) ∨ e = .busy true) ∧ (runMicros ms s).state.seq = .idle)
    ∨ (∃ n k' p ms', (runMicros ms s).state.trace = s.trace ++ (ms.map Micro.event).take n ++ [.busy true]
        ∧ (Micro.poll p :: ms').map Micro.event = (ms.map Micro.event).drop n
        ∧ (runMicros ms s).state.seq = .run op k' (.micros (.poll p :: ms') :: todo)) := by
  induction ms generalizing s k with
  | nil => exact .inl ⟨by simp [runMicros, Progress.state], k, hs⟩
  | cons m ms ih =>
    -- one micro-operation that went well, then the others
    have go (u : State) (k' : Nat) (hu : u.seq = .run op k' todo) (ht : u.trace = s.trace ++ [m.event]) :
        ((runMicros ms u).state.trace = s.trace ++ (m :: ms).map Micro.event ∧ ∃ k', (runMicros ms u).state.seq = .run op k' todo)
        ∨ (∃ n e, (runMicros ms u).state.trace = s.trace ++ ((m :: ms).map Micro.event).take n ++ [e]
            ∧ ((∃ b x, e = .txFailed b x) ∨ e = .busy true) ∧ (runMicros ms u).state.seq = .idle)
        ∨ (∃ n k' p ms', (runMicros ms u).state.trace = s.trace ++ ((m :: ms).map Micro.event).take n ++ [.busy true]
            ∧ (Micro.poll p :: ms').map Micro.event = ((m :: ms).map Micro.event).drop n
            ∧ (runMicros ms u).state.seq = .run op k' (.micros (.poll p :: ms') :: todo)) := by
      rcases ih u k' hu with ⟨a, b⟩ | ⟨n, e, a, b, c⟩ | ⟨n, k', p, ms', a, b, c⟩
      · exact .inl ⟨by simp [a, ht], b⟩
      · exact .inr (.inl ⟨n + 1, e, by simp [a, ht], b, c⟩)
      · exact .inr (.inr ⟨n + 1, k', p, ms', by simp [a, ht], by simpa using b, c⟩)
    cases m with
    | cs l => exact go (s.pinCs l) (k + 1) (by simp [hs, Seq.tick]) rfl
    | dc l => exact go (s.pinDc l) (k + 1) (by simp [hs, Seq.tick]) rfl
    | rst l => exact go (s.pinRst l) (k + 1) (by simp [hs, Seq.tick]) rfl
    | delay n => exact go (s.delayMs n) (k + 1) (by simp [hs, Seq.tick]) rfl
    | poll n =>
      simp only [runMicros]
      split
      · split
        · exact .inr (.inl ⟨0, .busy true, by simp [Progress.state, State.afterPoll], .inr rfl, rfl⟩)
        · exact .inr (.inr ⟨0, k, n + 1, ms, by simp [Progress.state, State.afterPoll], rfl,
            by simp [Progress.state, State.push, State.afterPoll, hs, Seq.push]⟩)
      · exact go (s.afterPoll false).tick (k + 1) (by simp [State.tick, State.afterPoll, hs, Seq.tick]) rfl
    | tx b =>
      simp only [runMicros]
      split
      · exact go (s.afterTx b none) (k + 1) (by simp [hs, Seq.tick]) rfl
      · rename_i x _
        exact .inr (.inl ⟨0, .txFailed b x, by simp [Progress.state, State.afterTx], .inl ⟨b, x, rfl⟩, rfl⟩)

end Sys2Proof.Machine
end

