-- ==== Sys2Proof/Tests/Slice0.lean ====
section
/-! SUPPORT. The model's own tests: ill-formed terms refused, words written out from the encodings of R53 and R56, vectors of
95_test_vectors (named at each), and for each statement with hypotheses a state and operands that meet them. -/

namespace Sys2Proof.Tests

open Sys2Proof.Machine

/-! ### Well-formedness: each check refuses an ill-formed term -/

/-- A selector other than C3 and C4 (R63, R68). -/
theorem test_illformed_selector : (Instr.displayUpdateControl2 0xC5#8).wellFormed = false := by decide

/-- A waveform table of 31 bytes (R53). -/
theorem test_illformed_table : (Instr.writeLut (List.replicate 31 0x00#8)).wellFormed = false := by decide

/-- A bitmap of one byte (R53). -/
theorem test_illformed_bitmap : (Instr.writeRam [0xFF#8]).wellFormed = false := by decide

/-- The two selectors of R68 are well formed. -/
theorem test_wellformed_selectors :
    (Instr.displayUpdateControl2 0xC3#8).wellFormed = true ∧ (Instr.displayUpdateControl2 0xC4#8).wellFormed = true := by
  decide

/-! ### Decoding, by words written out from R53, R60 and R56 -/

theorem test_decode_01 : decodeFrame [0x01#8, 0x27#8, 0x01#8, 0x00#8] = .ok (.driverOutputControl 295#16 0x00#8) := by decide
theorem test_decode_0C : decodeFrame [0x0C#8, 0xD7#8, 0xD6#8, 0x9D#8] = .ok (.boosterSoftStart 0xD7#8 0xD6#8 0x9D#8) := by decide
theorem test_decode_11 : decodeFrame [0x11#8, 0x03#8] = .ok (.dataEntryMode 0x03#8) := by decide
theorem test_decode_20 : decodeFrame [0x20#8] = .ok .masterActivation := by decide
theorem test_decode_22 : decodeFrame [0x22#8, 0xC3#8] = .ok (.displayUpdateControl2 0xC3#8) := by decide
theorem test_decode_24 : decodeFrame [0x24#8, 0xFE#8, 0x7F#8] = .ok (.writeRam [0xFE#8, 0x7F#8]) := by decide
theorem test_decode_2C : decodeFrame [0x2C#8, 0xA8#8] = .ok (.writeVcom 0xA8#8) := by decide
theorem test_decode_32 : decodeFrame (0x32#8 :: lutPartial) = .ok (.writeLut lutPartial) := by decide
theorem test_decode_3A : decodeFrame [0x3A#8, 0x1A#8] = .ok (.dummyLinePeriod 0x1A#8) := by decide
theorem test_decode_3B : decodeFrame [0x3B#8, 0x08#8] = .ok (.gateLineWidth 0x08#8) := by decide
theorem test_decode_44 : decodeFrame [0x44#8, 0x00#8, 0x0F#8] = .ok (.setRamXWindow 0x00#8 0x0F#8) := by decide
theorem test_decode_45 : decodeFrame [0x45#8, 0x02#8, 0x00#8, 0x27#8, 0x01#8] = .ok (.setRamYWindow 2#16 295#16) := by decide
theorem test_decode_4E : decodeFrame [0x4E#8, 0x05#8] = .ok (.setRamXCounter 0x05#8) := by decide
theorem test_decode_4F : decodeFrame [0x4F#8, 0x00#8, 0x01#8] = .ok (.setRamYCounter 256#16) := by decide
theorem test_decode_FF : decodeFrame [0xFF#8] = .ok .terminator := by decide

/-- A payload that is not as long as R53 says, an opcode that R60 does not list, and no byte at all. -/
theorem test_decode_rejects :
    decodeFrame [0x20#8, 0x00#8] = .error (.badPayloadLength 0x20#8 1) ∧ decodeFrame [0x12#8] = .error (.unknownOpcode 0x12#8)
      ∧ decodeFrame [] = .error .emptyFrame := by decide

/-- A request: code, FrameBuffer number, variant, x, y, colour. -/
def req (code : BitVec 4) (fb : Nat := 0) (orient : Orientation := .direct) (x y color : Int := 0) : Request :=
  { code, fb, orient, x, y, color }

theorem test_decode_NEW : decodeRequest (req 0x0#4) = .ok .new := by decide
theorem test_decode_RESET : decodeRequest (req 0x1#4) = .ok .reset := by decide
theorem test_decode_SET_PARTIAL : decodeRequest (req 0x2#4) = .ok .setPartial := by decide
theorem test_decode_SET_FULL : decodeRequest (req 0x3#4) = .ok .setFull := by decide
theorem test_decode_CLEAR : decodeRequest (req 0x4#4) = .ok .clear := by decide
theorem test_decode_SET_DISPLAY : decodeRequest (req 0x5#4 3) = .ok (.setDisplay 3) := by decide
theorem test_decode_UPDATE : decodeRequest (req 0x6#4) = .ok .update := by decide
theorem test_decode_POWER_OFF : decodeRequest (req 0x7#4) = .ok .powerOff := by decide
theorem test_decode_FB_NEW : decodeRequest (req 0x8#4 0 .rotatedLeft) = .ok (.fbNew .rotatedLeft) := by decide
theorem test_decode_FB_DRAW_PIXEL :
    decodeRequest (req 0x9#4 1 .direct 100 50 (-3)) = .ok (.fbDrawPixel 1 100 50 (-3)) := by decide
theorem test_decode_FB_GET_BUFFER : decodeRequest (req 0xA#4 2) = .ok (.fbGetBuffer 2) := by decide

/-- The words of the opcode table: the opcode in the low byte, the payload above it; a 4-bit host code. -/
theorem test_decode_table_words :
    decodeTableWord 8 0x20 = some .masterActivation
      ∧ decodeTableWord 8 0x22 = some (.displayUpdateControl2 0x00#8)
      ∧ decodeTableWord 16 0xC422 = some (.displayUpdateControl2 0xC4#8)
      ∧ decodeTableWord 32 0x00012701 = some (.driverOutputControl 295#16 0x00#8)
      ∧ decodeTableWord 4 0x1 = some .reset
      ∧ decodeTableWord 8 0x6 = some .update
      ∧ decodeTableWord 8 0xB = none ∧ decodeTableWord 8 0x12 = none := by decide

/-! ### Small states -/

/-- A constructed, idle block with these flags; the controller is ready at every poll and the bus ok. -/
def ready (isPartial isInitialized : Bool) : State :=
  { State.reset with
    partialMode := .holds isPartial
    initialized := .holds isInitialized
    constructed := true
    rst := .holds .high
    busyIn := { first := [], thereafter := some false }
    busIn := { first := [], thereafter := some none } }

/-- The same, but bus byte number `k` from now fails with error 7. -/
def failing (isPartial isInitialized : Bool) (k : Nat) : State :=
  { ready isPartial isInitialized with
    busIn := { first := List.replicate k none ++ [some 7], thereafter := some none } }

/-- The same, but the controller is busy for ever. -/
def busy (bound : Option Nat) : State :=
  { ready true true with
    cfg := { defaultConfig with busyBound := bound }
    busyIn := { first := [], thereafter := some true } }

/-- An UPDATE under way of which these tasks are left. -/
def running (s : State) (todo : List Machine.Task) : State := { s with seq := .run .update 0 todo }

/-- One FrameBuffer in hand. -/
def holding (s : State) (b : FrameBuffer) : State := { s with bufs := [b] }

/-- A buffer of the variant whose listed bytes differ from background. -/
def buffer (o : Orientation) (m : Memory) : FrameBuffer := { orient := o, mem := m }

/-- What a field of the next state is, if there is one. -/
def after {α : Type} (r : Host.Outcome State Fault Refusal) (f : State → α) : Option α :=
  match r with
  | .next t => some (f t)
  | .fault _ => none
  | .refused _ => none

/-- The two flags. -/
def flags (s : State) : Latch Bool × Latch Bool := (s.partialMode, s.initialized)

/-! ### Frames (95_test_vectors 2.4) -/

/-- V20. -/
theorem test_masterActivation : after (exec .masterActivation (running (ready true true) [])) (fun t => (t.trace, t.cs, t.dc))
    = some ([.cs .act, .busy false, .dc .cmd, .tx 0x20#8, .cs .inact], .holds .inact, .holds .cmd) := by decide

/-- V21. -/
theorem test_displayUpdateControl2 :
    after (exec (.displayUpdateControl2 0xC4#8) (running (ready true true) [])) (fun t => (t.trace, t.dc))
      = some ([.cs .act, .busy false, .dc .cmd, .tx 0x22#8, .dc .data, .tx 0xC4#8, .cs .inact], .holds .data) := by decide

/-- V22. -/
theorem test_setRamYWindow :
    after (exec (.setRamYWindow 0#16 295#16) (running (ready true true) [])) (·.trace)
      = some [.cs .act, .busy false, .dc .cmd, .tx 0x45#8, .dc .data, .tx 0x00#8, .tx 0x00#8, .tx 0x27#8, .tx 0x01#8,
          .cs .inact] := by decide

/-- V23, its first step: chip-select on, one busy answer, no byte, and the wait goes on. -/
theorem test_terminator_waits :
    after (exec .terminator (running (busy none) [])) (fun t => (t.trace, t.cs, t.response))
      = some ([.cs .act, .busy true], .holds .act, none) := by decide

/-- V24: the opcode byte fails. -/
theorem test_opcode_fails :
    after (exec (.displayUpdateControl2 0xC3#8) (running (failing true true 0) [])) (fun t => (t.trace, t.cs, t.dc, t.response))
      = some ([.cs .act, .busy false, .dc .cmd, .txFailed 0x22#8 7], .holds .act, .holds .cmd, some (.err (.transport 7))) := by
  decide

/-- V24a: the payload byte fails. -/
theorem test_payload_fails :
    after (exec (.displayUpdateControl2 0xC3#8) (running (failing true true 1) [])) (fun t => (t.trace, t.cs, t.dc, t.seq))
      = some ([.cs .act, .busy false, .dc .cmd, .tx 0x22#8, .dc .data, .txFailed 0xC3#8 7], .holds .act, .holds .data, .idle) := by
  decide

/-- The transport bytes of the other commands, in the bus order of R53. -/
theorem test_driverOutputControl : after (exec (.driverOutputControl 295#16 0x00#8) (running (ready true true) []))
    (fun t => bytesSent t.trace) = some [0x01#8, 0x27#8, 0x01#8, 0x00#8] := by decide
theorem test_boosterSoftStart : after (exec (.boosterSoftStart 0xD7#8 0xD6#8 0x9D#8) (running (ready true true) []))
    (fun t => bytesSent t.trace) = some [0x0C#8, 0xD7#8, 0xD6#8, 0x9D#8] := by decide
theorem test_dataEntryMode : after (exec (.dataEntryMode 0x03#8) (running (ready true true) []))
    (fun t => bytesSent t.trace) = some [0x11#8, 0x03#8] := by decide
theorem test_writeRam : after (exec (.writeRam [0xFE#8, 0x7F#8]) (running (ready true true) []))
    (fun t => bytesSent t.trace) = some [0x24#8, 0xFE#8, 0x7F#8] := by decide
theorem test_writeVcom : after (exec (.writeVcom 0xA8#8) (running (ready true true) []))
    (fun t => bytesSent t.trace) = some [0x2C#8, 0xA8#8] := by decide
theorem test_writeLut : after (exec (.writeLut [0x10#8, 0x18#8]) (running (ready true true) []))
    (fun t => bytesSent t.trace) = some [0x32#8, 0x10#8, 0x18#8] := by decide
theorem test_dummyLinePeriod : after (exec (.dummyLinePeriod 0x1A#8) (running (ready true true) []))
    (fun t => bytesSent t.trace) = some [0x3A#8, 0x1A#8] := by decide
theorem test_gateLineWidth : after (exec (.gateLineWidth 0x08#8) (running (ready true true) []))
    (fun t => bytesSent t.trace) = some [0x3B#8, 0x08#8] := by decide
theorem test_setRamXWindow : after (exec (.setRamXWindow 0x00#8 0x0F#8) (running (ready true true) []))
    (fun t => bytesSent t.trace) = some [0x44#8, 0x00#8, 0x0F#8] := by decide
theorem test_setRamXCounter : after (exec (.setRamXCounter 0x00#8) (running (ready true true) []))
    (fun t => bytesSent t.trace) = some [0x4E#8, 0x00#8] := by decide
theorem test_setRamYCounter : after (exec (.setRamYCounter 256#16) (running (ready true true) []))
    (fun t => bytesSent t.trace) = some [0x4F#8, 0x00#8, 0x01#8] := by decide

/-! ### Host operations of the ControllerDriver (95_test_vectors 2.5 to 2.8) -/

/-- V25. -/
theorem test_new : after (exec .new State.reset) (fun t => (t.trace, flags t, t.rst, t.cs, t.constructed))
    = some ([.rst .low, .delay 1, .rst .high, .delay 1], (.holds true, .holds false), .holds .high, .unwritten, true) := by
  rfl

/-- V26. -/
theorem test_new_again : after (exec .new (ready false true)) flags = some (.holds true, .holds false) := by decide

/-- V27. -/
theorem test_reset : after (exec .reset (ready false true)) (fun t => (t.trace, flags t))
    = some ([.rst .low, .delay 1, .rst .high, .delay 1], (.holds false, .holds false)) := by decide

/-- V27a. -/
theorem test_reset_partial : after (exec .reset (ready true true)) flags = some (.holds true, .holds false) := by decide

/-- V28. -/
theorem test_setPartial : after (exec .setPartial (ready false true)) (fun t => (t.trace, flags t))
    = some ([], (.holds true, .holds false)) := by decide

/-- V28a. -/
theorem test_setPartial_again : after (exec .setPartial (ready true true)) flags = some (.holds true, .holds true) := by decide

/-- V29a. -/
theorem test_setFull_again : after (exec .setFull (ready false true)) flags = some (.holds false, .holds true) := by decide

/-- V29b. -/
theorem test_setFull : after (exec .setFull (ready true true)) (fun t => (t.trace, flags t))
    = some ([], (.holds false, .holds false)) := by decide

/-- V32. -/
theorem test_update : after (exec .update (ready true true)) (fun t => (frameView t.trace, t.trace.length, flags t))
    = some ([[0x22#8, 0xC4#8], [0x20#8], [0xFF#8]], 17, (.holds true, .holds true)) := by decide

/-- V41. -/
theorem test_update_fails : after (exec .update (failing true true 1)) (fun t => (t.trace.length, flags t, t.dc))
    = some (6, (.holds true, .holds true), .holds .data) := by decide

/-- V33. -/
theorem test_powerOff : after (exec .powerOff (ready false true)) (fun t => (frameView t.trace, t.trace.length, flags t))
    = some ([[0x22#8, 0xC3#8], [0x20#8]], 12, (.holds false, .holds false)) := by decide

/-- V42. -/
theorem test_powerOff_fails : after (exec .powerOff (failing false true 2)) (fun t => (t.trace.length, flags t, t.dc))
    = some (11, (.holds false, .holds true), .holds .cmd) := by decide

/-- V36. -/
theorem test_setDisplay_fails : after (exec (.setDisplay 0) (holding (failing true false 0) (buffer .direct [])))
    (fun t => (t.trace.length, flags t, t.dc)) = some (4, (.holds true, .holds false), .holds .cmd) := by decide

/-- V43a. -/
theorem test_clear_fails : after (exec .clear (failing true true 10)) (fun t => (t.trace.length, flags t, t.dc))
    = some (29, (.holds false, .holds false), .holds .cmd) := by decide

/-- V43b. -/
theorem test_clear_fails_full : after (exec .clear (failing false true 10)) (fun t => (t.trace.length, flags t, t.dc))
    = some (29, (.holds false, .holds true), .holds .cmd) := by decide

/-- V46: before NEW, UPDATE is refused. -/
theorem test_refused_before_new : step { State.reset with requests := [req 0x6#4] }
    = .next { State.reset with requests := [] } := by rfl

/-- V47: a reserved code is refused. -/
theorem test_refused_reserved : after (step { ready true true with requests := [req 0xB#4] }) (fun t => (t.trace, t.requests, t.response))
    = some ([], [], none) := by decide

/-! ### The FrameBuffer packer (95_test_vectors 2.1 to 2.3) -/

/-- V1 to V5b. -/
theorem test_direct_transform :
    pixelAddress defaultConfig .direct 0 0 = some (0, 7) ∧ pixelAddress defaultConfig .direct 7 0 = some (0, 0)
      ∧ pixelAddress defaultConfig .direct 8 0 = some (1, 7) ∧ pixelAddress defaultConfig .direct 127 0 = some (15, 0)
      ∧ pixelAddress defaultConfig .direct 0 1 = some (16, 7) ∧ pixelAddress defaultConfig .direct 127 295 = some (4735, 0)
      ∧ pixelAddress defaultConfig .direct 10 2 = some (33, 5) ∧ pixelAddress defaultConfig .direct 100 200 = some (3212, 3) := by
  decide

/-- V6 to V12b. -/
theorem test_rotated_transform :
    pixelAddress defaultConfig .rotatedLeft 0 0 = some (4720, 7) ∧ pixelAddress defaultConfig .rotatedLeft 295 127 = some (15, 0)
      ∧ pixelAddress defaultConfig .rotatedLeft 295 0 = some (0, 7) ∧ pixelAddress defaultConfig .rotatedLeft 0 127 = some (4735, 0)
      ∧ pixelAddress defaultConfig .rotatedLeft 0 8 = some (4721, 7) ∧ pixelAddress defaultConfig .rotatedLeft 100 50 = some (3126, 5)
      ∧ pixelAddress defaultConfig .rotatedLeft 294 1 = some (16, 6) := by
  decide

/-- V13 to V17b. -/
theorem test_out_of_bounds :
    pixelAddress defaultConfig .direct 128 0 = none ∧ pixelAddress defaultConfig .direct 0 296 = none
      ∧ pixelAddress defaultConfig .direct (-1) 0 = none ∧ pixelAddress defaultConfig .direct 0 (-1) = none
      ∧ pixelAddress defaultConfig .rotatedLeft 296 0 = none ∧ pixelAddress defaultConfig .rotatedLeft 0 128 = none
      ∧ pixelAddress defaultConfig .direct 200 100 = none ∧ pixelAddress defaultConfig .rotatedLeft 100 200 = none
      ∧ pixelAddress defaultConfig .direct 2147483648 0 = none ∧ pixelAddress defaultConfig .direct (-2147483649) 5 = none := by
  decide

/-- S3, and the number that names the new buffer. -/
theorem test_fbNew : after (exec (.fbNew .rotatedLeft) (holding State.reset (buffer .direct []))) (fun t => (t.bufs, t.response))
    = some ([buffer .direct [], buffer .rotatedLeft []], some (.frameBuffer 1)) := by decide

/-- V5b, V18: colour -3 is foreground. -/
theorem test_fbDrawPixel : after (exec (.fbDrawPixel 0 10 2 (-3)) (holding State.reset (buffer .direct []))) (·.bufs)
    = some [buffer .direct [(33, 0xDF#8)]] := by decide

/-- V19: background again, and the memory is the blank one as data. -/
theorem test_fbDrawPixel_background :
    after (exec (.fbDrawPixel 0 10 2 0) (holding State.reset (buffer .direct [(33, 0xDF#8)]))) (·.bufs)
      = some [buffer .direct []] := by decide

/-- V19b: only bit 4 is set. -/
theorem test_paint : paint 0x00#8 4 0 = 0x10#8 := by decide

/-- V19c: the order of a list matters. -/
theorem test_draw_list : (buffer .direct []).drawAll defaultConfig [(10, 2, 1), (11, 2, 255), (10, 2, 0)]
    = .ok (buffer .direct [(33, 0xEF#8)]) := by rfl

/-- FB_GET_BUFFER: 4736 bytes, byte 33 as drawn (R77). -/
theorem test_fbGetBuffer :
    exec (.fbGetBuffer 0) (holding State.reset (buffer .direct [(33, 0xDF#8)]))
        = .next { holding State.reset (buffer .direct [(33, 0xDF#8)]) with
            response := some (.bytes (memBytes [(33, 0xDF#8)])) }
      ∧ (memBytes [(33, 0xDF#8)]).length = 4736 ∧ (memBytes [(33, 0xDF#8)])[33]? = some 0xDF#8 :=
  ⟨rfl, memBytes_length _, memBytes_get _ 33 (by decide)⟩

/-- V5a, its memory in canonical form; an entry equal to what an unlisted byte reads, one out of order, one out of range are not. -/
theorem test_memory_form :
    Memory.wf [(33, 0xDF#8), (4735, 0xFE#8)] = true ∧ Memory.wf [(33, 0xFF#8)] = false
      ∧ Memory.wf [(33, 0xDF#8), (33, 0xFE#8)] = false ∧ Memory.wf [(4736, 0xFE#8)] = false := by decide

/-! ### Parameters -/

/-- The defaults meet R6 and R116; the transposed geometry does too; a table of the 31 bytes of S10 and `BUSY_BOUND = some(0)`
do not (R89, R116). -/
theorem test_config :
    defaultConfig.valid = true ∧ { defaultConfig with rowBytes := 37, rows := 128 }.valid = true
      ∧ { defaultConfig with rowBytes := 37 }.valid = false ∧ { defaultConfig with busyBound := some 0 }.valid = false
      ∧ { defaultConfig with lutFull := lutFullDefault ++ [0x00#8] }.valid = false := by decide

/-! ### Views of a trace -/

/-- V24a at the transport level: the byte that went out and the one that failed (R10). -/
theorem test_transport : transport [.cs .act, .busy false, .dc .cmd, .tx 0x22#8, .dc .data, .txFailed 0xC3#8 7]
    = [.tx 0x22#8, .txFailed 0xC3#8 7] := by decide

/-- P4: after a failed frame `CS=act` comes on a line already active; the pins show nothing of it (R10, D20). -/
theorem test_pinView : pinView (.holds .act) (.holds .data) (.holds .high) (frameTrace [0x20#8])
    = [.busy false, .dc .cmd, .tx 0x20#8, .cs .inact] := by decide

/-- The model's choice (log entry 20): the frame view after a failed frame. -/
theorem test_frameView_broken :
    frameView ([.cs .act, .busy false, .dc .cmd, .tx 0x22#8, .dc .data, .txFailed 0xC3#8 7] ++ frameTrace [0x20#8])
      = [[0x20#8]] := by decide

/-- The first frame after power-on on the lines, chip-select and data/command active low (R6, D4). -/
theorem test_lineView : lineView defaultConfig .unwritten .unwritten .unwritten (frameTrace [0x20#8])
    = [(.cs, .low), (.busy, .low), (.dc, .low), (.cs, .high)] := by decide

/-- Chip-select is active low, the data/command line low for a command, busy high (R6, D4). -/
theorem test_electrical :
    electrical defaultConfig (.cs .act) = some (.cs, .low) ∧ electrical defaultConfig (.dc .data) = some (.dc, .high)
      ∧ electrical defaultConfig (.busy true) = some (.busy, .high) ∧ electrical defaultConfig (.tx 0x20#8) = none := by decide

/-! ### Hypotheses that are met -/

/-- The ready environment answers everything. -/
theorem ready_answers (s : State) (h1 : s.busyIn = { first := [], thereafter := some false })
    (h2 : s.busIn = { first := [], thereafter := some none }) (n m : Nat) : s.willAnswer n m :=
  ⟨fun i _ => by simp [State.busyAnswer, Answers.answer, h1], fun i _ => by simp [State.busAnswer, Answers.answer, h2]⟩

/-- The busy controller answers every poll busy. -/
theorem busy_answers (s : State) (h1 : s.busyIn = { first := [], thereafter := some true }) (i : Nat) :
    s.busyAnswer i = true := by
  simp [State.busyAnswer, Answers.answer, h1]

theorem test_meets_EncodedInstructionDecodesToItself : (Instr.writeLut lutPartial).wellFormed = true := by decide

theorem test_meets_DecodedFrameEncodesBack : decodeFrame [0x4F#8, 0xFF#8, 0x7F#8] = .ok (.setRamYCounter 0x7FFF#16) := by decide

theorem test_meets_IdleStepExecutesTheRequest :
    (State.reset.seq = .idle ∧ State.reset.requests = [])
      ∧ ∃ s : State, s.seq = .idle ∧ s.requests = [req 0xA#4, req 0x0#4] ∧ decodeRequest (req 0xA#4) = .ok (.fbGetBuffer 0) :=
  ⟨⟨rfl, rfl⟩, { State.reset with requests := [req 0xA#4, req 0x0#4] }, rfl, rfl, rfl⟩

theorem test_meets_RunningStepExecutesTheFrame :
    (running (ready true true) [.frame [0x20#8]]).seq = .run .update 0 [.frame [0x20#8]]
      ∧ decodeFrame [0x20#8] = .ok .masterActivation := by decide

theorem test_meets_ReservedCodeIsRefused : ∃ s : State, s.seq = .idle ∧ s.requests = [req 0xB#4, req 0xF#4]
    ∧ 0xB ≤ (req 0xB#4).code.toNat ∧ 0xB ≤ (req 0xF#4).code.toNat :=
  ⟨{ State.reset with requests := [req 0xB#4, req 0xF#4] }, rfl, rfl, by decide, by decide⟩

/-- One witness for each of the three reasons. -/
theorem test_meets_RefusedOperationChangesNothing :
    ((running (ready true true) []).seq ≠ .idle ∧ isCommand .new = false)
      ∧ (isControllerOp .update = true ∧ Instr.update ≠ .new ∧ State.reset.constructed = false ∧ isCommand .update = false)
      ∧ ((ready true true).bufs[0]? = none ∧ isCommand (.fbDrawPixel 0 0 0 0) = false) := by decide

theorem test_meets_IdleBlockSendsNoCommand : isCommand .terminator = true ∧ State.reset.seq = .idle := by decide

/-- The four statements about the commands: a running operation whose environment is ready for any frames. -/
theorem test_meets_CommandsSendTheirFrame : (running (ready true true) [.markInitialized]).seq = .run .update 0 [.markInitialized]
    ∧ ∀ fs, (running (ready true true) [.markInitialized]).readyFor fs :=
  ⟨rfl, fun _ => ready_answers _ rfl rfl _ _⟩

/-- A command; the rest of a frame at its wait. -/
theorem test_meets_CommandsWriteNoFlag : (isCommand .terminator = true
    ∧ ∃ t, exec .terminator (running (busy none) []) = .next t)
    ∧ (running (busy none) [.micros [.poll 1, .dc .cmd]]).seq = .run .update 0 [.micros [.poll 1, .dc .cmd]]
    ∧ Task.isMicros (.micros [.poll 1, .dc .cmd]) = true ∧ Task.drivesReset (.micros [.poll 1, .dc .cmd]) = false
    ∧ ∃ t, step (running (busy none) [.micros [.poll 1, .dc .cmd]]) = .next t := ⟨⟨rfl, _, rfl⟩, rfl, rfl, rfl, _, rfl⟩

theorem test_meets_FailedOpcodeByteEndsTheOperation :
    frameBytes .masterActivation = [0x20#8] ∧ (running (failing true true 0) []).seq = .run .update 0 []
      ∧ (running (failing true true 0) []).busyAnswer 0 = false
      ∧ (running (failing true true 0) []).busAnswer 0 = some 7 := ⟨rfl, rfl, rfl, rfl⟩

/-- The first payload byte of one frame, and the last of another. -/
theorem test_meets_FailedPayloadByteEndsTheOperation :
    (frameBytes (.displayUpdateControl2 0xC3#8) = 0x22#8 :: ([] ++ 0xC3#8 :: [])
      ∧ (running (failing true true 1) []).busyAnswer 0 = false
      ∧ (∀ j < 1, (running (failing true true 1) []).busAnswer j = none)
      ∧ (running (failing true true 1) []).busAnswer 1 = some 7)
    ∧ (frameBytes (.setRamXWindow 0x00#8 0x0F#8) = 0x44#8 :: ([0x00#8] ++ 0x0F#8 :: [])
      ∧ (∀ j < 2, (running (failing true true 2) []).busAnswer j = none)
      ∧ (running (failing true true 2) []).busAnswer 2 = some 7) := by
  refine ⟨⟨rfl, rfl, fun j hj => ?_, rfl⟩, ⟨rfl, fun j hj => ?_, rfl⟩⟩
  · obtain rfl : j = 0 := by omega
    rfl
  · obtain rfl | rfl : j = 0 ∨ j = 1 := by omega
    · rfl
    · rfl

theorem test_meets_BusyControllerHoldsTheBlock : (busy none).cfg.busyBound = none
    ∧ (running (busy none) [.micros [.poll 0, .dc .cmd]]).seq = .run .update 0 [.micros [.poll 0, .dc .cmd]]
    ∧ ∀ i < 5, (running (busy none) [.micros [.poll 0, .dc .cmd]]).busyAnswer i = true :=
  ⟨rfl, rfl, fun i _ => busy_answers _ rfl i⟩

/-- V23: busy three times, then ready; and ready at once. -/
theorem test_meets_FrameGoesOutAfterTheWait : ∃ s : State,
    Instr.terminator.wellFormed = true ∧ frameBytes .terminator = [0xFF#8] ∧ s.seq = .run .update 0 [.frame [0xFF#8]]
      ∧ boundReached s.cfg 3 = false ∧ (∀ j < 3, s.busyAnswer j = true) ∧ s.busyAnswer 3 = false
      ∧ (∀ j < 1, s.busAnswer j = none) := by
  refine ⟨{ running (ready true true) [.frame [0xFF#8]] with
    busyIn := { first := [true, true, true], thereafter := some false } }, rfl, rfl, rfl, rfl, fun j hj => ?_, rfl, fun j hj => ?_⟩
  · obtain rfl | rfl | rfl : j = 0 ∨ j = 1 ∨ j = 2 := by omega
    · rfl
    · rfl
    · rfl
  · obtain rfl : j = 0 := by omega
    rfl

/-- V45, and the smallest bound. -/
theorem test_meets_BoundedWaitGivesUp :
    ((busy (some 3)).cfg.busyBound = some 3 ∧ (busy (some 1)).cfg.busyBound = some 1)
      ∧ Instr.terminator.wellFormed = true ∧ frameBytes .terminator = [0xFF#8]
      ∧ (running (busy (some 3)) [.frame [0xFF#8]]).seq = .run .update 0 [.frame [0xFF#8]]
      ∧ ∀ j < 3, (running (busy (some 3)) [.frame [0xFF#8]]).busyAnswer j = true :=
  ⟨⟨rfl, rfl⟩, rfl, rfl, rfl, fun j _ => busy_answers _ rfl j⟩

theorem test_meets_NewPulsesResetAndConstructs : State.reset.seq = .idle := rfl

theorem test_meets_ResetPulsesAndKeepsTheMode : (ready false true).accepts := ⟨rfl, rfl⟩

/-- SET_PARTIAL, SET_FULL: all four columns of R130. -/
theorem test_meets_SetPartialWritesOnlyOnAChange (m i : Bool) : (ready m i).accepts ∧ (ready m i).inMode m i :=
  ⟨⟨rfl, rfl⟩, rfl, rfl⟩

theorem test_meets_SetFullWritesOnlyOnAChange : (ready true false).accepts ∧ (ready true false).inMode true false :=
  test_meets_SetPartialWritesOnlyOnAChange true false

/-- With and without INIT. -/
theorem test_meets_UpdateInitialisesIfNeededAndRefreshes (i : Bool) :
    (ready true i).accepts ∧ (ready true i).inMode true i ∧ ∀ fs, (ready true i).readyFor fs :=
  ⟨⟨rfl, rfl⟩, ⟨rfl, rfl⟩, fun _ => ready_answers _ rfl rfl _ _⟩

theorem test_meets_SetDisplayInitialisesIfNeededAndStreams (i : Bool) :
    (holding (ready true i) (buffer .direct [])).accepts ∧ (holding (ready true i) (buffer .direct [])).inMode true i
      ∧ (holding (ready true i) (buffer .direct [])).bufs[0]? = some (buffer .direct [])
      ∧ ∀ fs, (holding (ready true i) (buffer .direct [])).readyFor fs :=
  ⟨⟨rfl, rfl⟩, ⟨rfl, rfl⟩, rfl, fun _ => ready_answers _ rfl rfl _ _⟩

theorem test_meets_PowerOffSendsThePowerSequence :
    (ready false true).accepts ∧ (ready false true).readyFor [[0x22#8, 0xC3#8], [0x20#8]] :=
  ⟨⟨rfl, rfl⟩, ready_answers _ rfl rfl _ _⟩

/-- CLEAR in partial and in full mode. -/
theorem test_meets_ClearBlanksAndRestoresTheMode (m : Bool) :
    (ready m true).accepts ∧ (ready m true).inMode m true ∧ ∀ fs, (ready m true).readyFor fs :=
  ⟨⟨rfl, rfl⟩, ⟨rfl, rfl⟩, fun _ => ready_answers _ rfl rfl _ _⟩

/-- With a FrameBuffer, and without one. -/
theorem test_meets_TransitionTable (m i : Bool) :
    ((ready m i).accepts ∧ (ready m i).inMode m i ∧ (ready m i).bufs = [] ∧ ∀ n k, (ready m i).willAnswer n k) ∧
    (holding (ready m i) (buffer .direct [])).accepts ∧ (holding (ready m i) (buffer .direct [])).inMode m i
      ∧ (holding (ready m i) (buffer .direct [])).bufs[0]? = some (buffer .direct [])
      ∧ (holding (ready m i) (buffer .direct [])).cfg.resetClearsInitialized = true
      ∧ ∀ n k, (holding (ready m i) (buffer .direct [])).willAnswer n k :=
  ⟨⟨⟨rfl, rfl⟩, ⟨rfl, rfl⟩, rfl, fun n k => ready_answers _ rfl rfl n k⟩,
    ⟨rfl, rfl⟩, ⟨rfl, rfl⟩, rfl, rfl, fun n k => ready_answers _ rfl rfl n k⟩

theorem test_meets_ModeChangesOnlyTheTable : defaultConfig.valid = true := by decide

theorem test_meets_EventCounts : defaultConfig.valid = true := by decide

/-- The environment of `failing` fails byte `k` of any frames that hold it. -/
theorem failing_failsAt (s : State) (k : Nat) (h1 : s.busyIn = { first := [], thereafter := some false })
    (h2 : s.busIn = { first := List.replicate k none ++ [some 7], thereafter := some none }) (fs : List (List Byte)) :
    s.failsAt fs k 7 := by
  refine ⟨⟨fun i _ => by simp [State.busyAnswer, Answers.answer, h1], fun i hi => ?_⟩, ?_⟩
  · simp [State.busAnswer, Answers.answer, h2, List.getElem?_append, hi]
  · simp [State.busAnswer, Answers.answer, h2]

/-- The first byte of an operation and, for UPDATE after INIT, the byte after the 63 of INIT. -/
theorem test_meets_FlagsAfterAFailure (m i : Bool) :
    (holding (failing m i 0) (buffer .direct [])).accepts ∧ (holding (failing m i 63) (buffer .direct [])).inMode m i
      ∧ (holding (failing m i 0) (buffer .direct [])).bufs[0]? = some (buffer .direct [])
      ∧ (failing m i 0).cfg.valid = true
      ∧ 0 < updateFrames.flatten.length ∧ 63 < (initFrames defaultConfig false ++ updateFrames).flatten.length
      ∧ (∀ fs, (holding (failing m i 0) (buffer .direct [])).failsAt fs 0 7)
      ∧ ∀ fs, (holding (failing m i 63) (buffer .direct [])).failsAt fs 63 7 :=
  ⟨⟨rfl, rfl⟩, ⟨rfl, rfl⟩, rfl, test_meets_EventCounts, by decide, by decide, fun fs => failing_failsAt _ 0 rfl rfl fs,
    fun fs => failing_failsAt _ 63 rfl rfl fs⟩

theorem test_meets_FailureIsPrecise :
    (holding (failing true true 2) (buffer .direct [])).accepts ∧ (holding (failing true true 2) (buffer .direct [])).inMode true true
      ∧ (holding (failing true true 2) (buffer .direct [])).bufs[0]? = some (buffer .direct [])
      ∧ 2 < powerFrames.flatten.length ∧ ∀ fs, (holding (failing true true 2) (buffer .direct [])).failsAt fs 2 7 :=
  ⟨⟨rfl, rfl⟩, ⟨rfl, rfl⟩, rfl, by decide, fun fs => failing_failsAt _ 2 rfl rfl fs⟩

theorem test_meets_FbNewGivesABlankCanvas : State.reset.seq = .idle := rfl

theorem test_meets_OutOfBoundsPixelIsDiscarded : (holding State.reset (buffer .direct [])).seq = .idle
    ∧ (holding State.reset (buffer .direct [])).bufs[0]? = some (buffer .direct [])
    ∧ pixelAddress (holding State.reset (buffer .direct [])).cfg .direct 128 295 = none := by decide

theorem test_meets_DirectTransform : pixelAddress defaultConfig .direct 127 295 = some (4735, 0) := by decide

theorem test_meets_RotatedLeftTransform : pixelAddress defaultConfig .rotatedLeft 0 127 = some (4735, 0) := by decide

/-- A geometry other than the default meets R6 too. -/
theorem test_meets_TransformIsABijection : { defaultConfig with rowBytes := 37, rows := 128 }.valid = true
    ∧ pixelAddress { defaultConfig with rowBytes := 37, rows := 128 } .direct 295 127 = some (4735, 0) := by decide

theorem test_meets_DrawPixelWritesOneBit : (holding State.reset (buffer .rotatedLeft [(0, 0x00#8)])).seq = .idle
    ∧ (holding State.reset (buffer .rotatedLeft [(0, 0x00#8)])).cfg.valid = true
    ∧ (holding State.reset (buffer .rotatedLeft [(0, 0x00#8)])).bufs[0]? = some (buffer .rotatedLeft [(0, 0x00#8)])
    ∧ (buffer .rotatedLeft [(0, 0x00#8)]).mem.wf = true
    ∧ pixelAddress defaultConfig .rotatedLeft 295 0 = some (0, 7) := by decide

theorem test_meets_GetBufferReadsInScanOrder : (holding State.reset (buffer .direct [])).seq = .idle
    ∧ (holding State.reset (buffer .direct [])).bufs[0]? = some (buffer .direct []) := by decide

/-- Two different pixels of one byte, and the same pixel twice. -/
theorem test_meets_DrawOrderMattersOnlyOnTheSamePixel : defaultConfig.valid = true ∧ (buffer .direct [(33, 0xDF#8)]).mem.wf = true
    ∧ pixelAddress defaultConfig .direct 10 2 ≠ pixelAddress defaultConfig .direct 11 2
    ∧ pixelAddress defaultConfig .direct 10 2 = pixelAddress defaultConfig .direct 10 2 := by decide

theorem test_meets_FramebufferOperationsLeaveTheControllerAlone : isFramebufferOp (.fbNew .direct) = true
    ∧ ∃ t, exec (.fbNew .direct) State.reset = .next t := ⟨rfl, _, rfl⟩

/-- An operation in one go; a step of a running one; the operation with NEW's flag writes. -/
theorem test_meets_ControllerOperationsKeepTheFramebuffers : (isFramebufferOp .update = false ∧ Instr.update ≠ .new
    ∧ ∃ t, exec .update (failing true true 1) = .next t)
    ∧ ((running (ready true true) [.setFull]).seq ≠ .idle ∧ Task.construct ∉ (running (ready true true) [.setFull]).seq.todo
      ∧ ∃ t, step (running (ready true true) [.setFull]) = .next t)
    ∧ .construct ∈ linesOf .new State.reset :=
  ⟨⟨rfl, by decide, _, rfl⟩, ⟨by decide, by decide, _, rfl⟩, by decide⟩

/-- An operation in one go; a step of a running one; an operation with a line on the reset line. -/
theorem test_meets_OnlyNewAndResetDriveTheResetLine : (Instr.setFull ≠ .new ∧ Instr.setFull ≠ .reset
    ∧ ∃ t, exec .setFull (ready true true) = .next t)
    ∧ ((running (ready true true) [.frame [0x20#8]]).seq ≠ .idle
      ∧ (running (ready true true) [.frame [0x20#8]]).seq.todo.any Task.drivesReset = false
      ∧ ∃ t, step (running (ready true true) [.frame [0x20#8]]) = .next t)
    ∧ (linesOf .reset State.reset).any Task.drivesReset = true :=
  ⟨⟨by decide, by decide, _, rfl⟩, ⟨by decide, rfl, _, rfl⟩, rfl⟩

/-- Found true (SET_PARTIAL in partial mode); made true by INIT (UPDATE). -/
theorem test_meets_InitializedOnlyByInit :
    after (exec .setPartial (ready true true)) (·.initialized) = some (.holds true)
      ∧ after (exec .update (ready true false)) (·.initialized) = some (.holds true) := by decide

theorem test_meets_LatchesHoldTheLevelLastDriven :
    ∃ t, step { State.reset with requests := [req 0x0#4] } = .next t ∧ t.rst = .holds .high := ⟨_, rfl, rfl⟩

/-- The two statements about the invariant, at power-on with a request on the port. -/
theorem test_meets_EveryStepKeepsTheInvariant : State.Inv { State.reset with requests := [req 0x0#4] }
    ∧ ∃ t, step { State.reset with requests := [req 0x0#4] } = .next t :=
  ⟨⟨by decide, rfl, by decide, by decide, fun _ => ⟨rfl, by decide⟩, rfl, rfl, .closed, rfl, rfl⟩, _, rfl⟩

theorem test_meets_SafeStateAlwaysSteps : State.Inv { State.reset with requests := [req 0x0#4] } :=
  test_meets_EveryStepKeepsTheInvariant.1

/-- NEW at power-on, and an operation of a constructed block. -/
theorem test_meets_BigStepAgreesWithSmallSteps :
    (isControllerOp .new = true ∧ State.reset.cfg.valid = true ∧ State.reset.seq = .idle ∧ ∃ t, exec .new State.reset = .next t)
      ∧ (isControllerOp (.setDisplay 0) = true ∧ (holding (failing true false 0) (buffer .direct [])).constructed = true
        ∧ (holding (failing true false 0) (buffer .direct [])).bufs[0]?.isSome = true
        ∧ ∃ t, exec (.setDisplay 0) (holding (failing true false 0) (buffer .direct [])) = .next t) :=
  ⟨⟨rfl, test_meets_EventCounts, rfl, _, rfl⟩, ⟨rfl, rfl, rfl, _, rfl⟩⟩

/-- INIT's frames are in the trace and line 14 is due: `initialized` is false before the step and true after it. -/
theorem test_meets_EveryStepKeepsWhatInitializedPromises :
    State.InitInv { running (ready true false) [.markInitialized] with trace := framesTrace (initFrames defaultConfig true) }
      ∧ ∃ t, step { running (ready true false) [.markInitialized] with trace := framesTrace (initFrames defaultConfig true) }
        = .next t ∧ t.initialized = .holds true := by
  have h : (ready true false).initialized ≠ .holds true := by decide
  refine ⟨⟨fun g => absurd g h, fun g => absurd g h, fun g => absurd g h, fun _ => ?_, rfl⟩, _, rfl, rfl⟩
  refine ⟨[], [], [], framesTrace (initFrames defaultConfig true), rfl, by simp, rfl, rfl, ?_⟩
  show isInit defaultConfig true _
  rw [isInit, List.flatMap_nil, List.append_nil]
  decide

/-- Busy twice, once, and not at all before the three frames of UPDATE; with a bound, less often than it allows. -/
theorem test_meets_WaitingChangesOnlyTheTrace (bound : Option Nat) (hb : bound = none ∨ bound = some 3) : ∃ s : State,
    s.cfg.valid = true ∧ s.seq = .idle ∧ s.accepts ∧ s.endsEveryWait ∧ s.busyAnswer 0 = true ∧ s.busyAnswer 3 = true
      ∧ ∃ t', exec .update s.readyAtOnce = .next t' := by
  refine ⟨{ ready true true with
      cfg := { defaultConfig with busyBound := bound }
      busyIn := { first := [true, true, false, true], thereafter := some false } }, ?_, rfl, ⟨rfl, rfl⟩, fun i => ?_, rfl, rfl, _, rfl⟩
  · rcases hb with rfl | rfl <;> decide
  · have hc (n : Nat) (hn : n < 3) : boundReached { defaultConfig with busyBound := bound } n = false := by
      rcases hb with rfl | rfl
      · rfl
      · simpa [boundReached] using hn
    match i with
    | 0 => exact ⟨2, rfl, hc 2 (by omega)⟩
    | 1 => exact ⟨1, rfl, hc 1 (by omega)⟩
    | 2 => exact ⟨0, rfl, hc 0 (by omega)⟩
    | 3 => exact ⟨1, rfl, hc 1 (by omega)⟩
    | n + 4 => exact ⟨0, by simp [State.busyAnswer, Answers.answer], hc 0 (by omega)⟩

/-- A redundant write after a trace, and the witness of its first clause at the level of the latches. -/
theorem test_meets_RedundantPinWritesDoNotShow :
    Event.redundant (lastCs .unwritten [.cs .act]) (lastDc .unwritten [.cs .act]) (lastRst .unwritten [.cs .act]) (.cs .act) = true := by
  decide

end Sys2Proof.Tests
end

