-- ==== Sys2Proof/Proofs/DrawPixel.lean ====
section
/-! PROOFS. FB_DRAW_PIXEL in bounds: where a pixel lies, the one bit that `paint` writes, and the byte that is stored
(R59, R71, R75). -/

namespace Sys2Proof.Machine

/-! ### Where a pixel lies -/

/-- The two geometries that R6 leaves open: rows of 16 bytes, 296 of them, or rows of 37 bytes, 128 of them. -/
theorem Config.valid_geometry {c : Config} (h : c.valid = true) :
    (c.rowBytes = 16 ∧ c.rows = 296) ∨ (c.rowBytes = 37 ∧ c.rows = 128) := by
  simp only [Config.valid, Bool.and_eq_true, Bool.or_eq_true, beq_iff_eq] at h
  obtain ⟨⟨⟨-, hgeo⟩, -⟩, -⟩ := h
  omega

/-- A pixel has the address `p` exactly if it is on the canvas and the transform takes it to `p` (R74). -/
theorem pixelAddress_eq_some_iff {c : Config} {o : Orientation} {x y : Int} {p : Nat × Nat} :
    pixelAddress c o x y = some p ↔
      (0 ≤ x ∧ x < canvasWidth c o ∧ 0 ≤ y ∧ y < canvasHeight c o) ∧ transform c o x.toNat y.toNat = p := by
  simp [pixelAddress, inBounds, and_assoc]

/-- A pixel of the canvas lies inside the framebuffer space (R31, R32). -/
theorem transform_byte_lt {c : Config} (hc : c.valid = true) {o : Orientation} {x y : Nat}
    (hx : x < canvasWidth c o) (hy : y < canvasHeight c o) : (transform c o x y).1 < fbBytes := by
  cases o with
  | direct =>
    simp only [canvasWidth, canvasHeight, transform, fbBytes] at hx hy ⊢
    rcases Config.valid_geometry hc with ⟨hb, hr⟩ | ⟨hb, hr⟩ <;> rw [hb] at hx ⊢ <;> omega
  | rotatedLeft =>
    simp only [canvasWidth, canvasHeight, transform, fbBytes] at hx hy ⊢
    rcases Config.valid_geometry hc with ⟨hb, hr⟩ | ⟨hb, hr⟩ <;> rw [hb] at hy ⊢ <;> omega

/-- The address of a pixel is one that `MemRead` answers (R31). -/
theorem pixelAddress_byte_lt {c : Config} (hc : c.valid = true) {o : Orientation} {x y : Int} {a bit : Nat}
    (h : pixelAddress c o x y = some (a, bit)) : a < fbBytes := by
  obtain ⟨⟨hx0, hx, hy0, hy⟩, hp⟩ := pixelAddress_eq_some_iff.mp h
  have hlt := transform_byte_lt hc (o := o) (x := x.toNat) (y := y.toNat) (by omega) (by omega)
  rwa [hp] at hlt

/-! ### The bit that is written -/

/-- The mask of bit `bit` has that bit and no other. -/
theorem getLsbD_mask {bit j : Nat} (hj : j < 8) : (1#8 <<< bit).getLsbD j = decide (j = bit) := by
  rw [← BitVec.twoPow_eq, BitVec.getLsbD_twoPow]
  by_cases h : j = bit
  · simp [h, h ▸ hj]
  · simp [h, Ne.symm h]

/-- `paint` writes one bit, 1 for the colour zero and 0 for every other, and leaves the other seven (R59, R71). -/
theorem paint_getLsbD (v : Byte) (bit : Nat) (color : Int) {j : Nat} (hj : j < 8) :
    (paint v bit color).getLsbD j = if j = bit then decide (color = 0) else v.getLsbD j := by
  by_cases hcolor : color = 0
  · simp only [paint, hcolor, ne_eq, not_true_eq_false, if_false, BitVec.getLsbD_or, getLsbD_mask hj]
    by_cases h : j = bit <;> simp [h]
  · simp only [paint, hcolor, ne_eq, not_false_eq_true, if_true, BitVec.getLsbD_and, BitVec.getLsbD_not,
      getLsbD_mask hj]
    by_cases h : j = bit <;> simp [h, hj]

/-- The byte at `byte` painted and stored: one bit of the framebuffer space is written (R75). -/
theorem memWrite_paint_getLsbD {m : Memory} (hm : m.wf = true) (byte bit : Nat) (color : Int) (a : Nat) {j : Nat}
    (hj : j < 8) :
    ((memWrite m byte (paint (m.get byte) bit color)).get a).getLsbD j
      = if a = byte ∧ j = bit then decide (color = 0) else (m.get a).getLsbD j := by
  rw [memWrite_get hm]
  by_cases ha : a = byte
  · simp [ha, paint_getLsbD _ _ _ hj]
  · simp [ha]

/-! ### The operation -/

/-- A pixel in bounds is drawn by storing its byte with its bit painted (R75). -/
theorem FrameBuffer.draw_of_address {c : Config} (hc : c.valid = true) {b : FrameBuffer} {x y : Int} {a bit : Nat}
    (h : pixelAddress c b.orient x y = some (a, bit)) (color : Int) :
    b.draw c x y color = .ok { b with mem := memWrite b.mem a (paint (b.mem.get a) bit color) } := by
  simp [FrameBuffer.draw, h, memRead_eq, pixelAddress_byte_lt hc h]

/-- FB_DRAW_PIXEL of an idle block on an existing FrameBuffer stores what drawing on that FrameBuffer answers (R75). -/
theorem exec_fbDrawPixel_of_draw {s : State} {fb : Nat} {b b' : FrameBuffer} {x y color : Int} (hidle : s.seq = .idle)
    (hb : s.bufs[fb]? = some b) (hdraw : b.draw s.cfg x y color = .ok b') :
    exec (.fbDrawPixel fb x y color) s
      = .next { s with bufs := s.bufs.set fb b', response := some .nothing } := by
  simp [exec, execFbDrawPixel, hidle, hb, hdraw]

/-- Settles O39: in bounds the operation stores the pixel's byte painted, and that differs from the memory before in the
pixel's bit alone. -/
theorem drawPixelWritesOneBit : Obligations.DrawPixelWritesOneBit := by
  intro s fb b x y color a bit hidle hvalid hb hwf haddr
  have hdraw := FrameBuffer.draw_of_address hvalid haddr color
  exact ⟨_, exec_fbDrawPixel_of_draw hidle hb hdraw, rfl, fun _ _ hj => memWrite_paint_getLsbD hwf a bit color _ hj⟩

end Sys2Proof.Machine
end

