-- ==== Sys2Proof/Proofs/DefaultTransforms.lean ====
section
/-! PROOFS. The two orientation transforms at the default geometry (R72, R73, R78). -/

namespace Sys2Proof.Machine

/-- The parameters of R6's table meet R6's constraints. -/
theorem defaultConfig_valid : defaultConfig.valid = true := by decide

/-- On the canvas a pixel's address is what the transform makes of its coordinates (R74, R78). -/
theorem pixelAddress_natCast {c : Config} {o : Orientation} {x y : Nat} (hx : x < canvasWidth c o)
    (hy : y < canvasHeight c o) : pixelAddress c o x y = some (transform c o x y) :=
  pixelAddress_eq_some_iff.mpr ⟨by omega, rfl⟩

/-- At the default geometry a pixel of the canvas has its transform as address, and the byte of it is at most the last one
of the framebuffer space (R31, R32). -/
theorem pixelAddress_defaultConfig {o : Orientation} {x y : Nat} (hx : x < canvasWidth defaultConfig o)
    (hy : y < canvasHeight defaultConfig o) :
    pixelAddress defaultConfig o x y = some (transform defaultConfig o x y)
      ∧ (transform defaultConfig o x y).1 ≤ 4735 :=
  ⟨pixelAddress_natCast hx hy, Nat.le_of_lt_succ (transform_byte_lt defaultConfig_valid hx hy)⟩

/-- Settles O36: the canvas of `Direct` is 128 by 296, and the rule is its transform with rows of 16 bytes. -/
theorem directTransform : Obligations.DirectTransform := by
  intro x y hx hy
  have hwidth : x < canvasWidth defaultConfig .direct := Nat.lt_succ_of_le hx
  have hheight : y < canvasHeight defaultConfig .direct := Nat.lt_succ_of_le hy
  exact pixelAddress_defaultConfig hwidth hheight

/-- Settles O37: the canvas of `RotatedLeft` is 296 by 128, and the rule is its transform with `maxX = 295`. -/
theorem rotatedLeftTransform : Obligations.RotatedLeftTransform := by
  intro x y hx hy
  have hwidth : x < canvasWidth defaultConfig .rotatedLeft := Nat.lt_succ_of_le hx
  have hheight : y < canvasHeight defaultConfig .rotatedLeft := Nat.lt_succ_of_le hy
  exact pixelAddress_defaultConfig hwidth hheight

end Sys2Proof.Machine
end

