-- ==== Sys2Proof/Proofs/ModeSwitches.lean ====
section
/-! PROOFS. SET_PARTIAL and SET_FULL: what the mode switches make of the two flags, and the run of an operation that has
one line (R124, R125). -/

namespace Sys2Proof.Machine

/-! ### The flags -/

/-- The switch to partial mode keeps `initialized` exactly if the mode was partial (R124). -/
theorem State.toPartial_of_inMode {s : State} {m i : Bool} (h : s.inMode m i) :
    s.toPartial = { s with partialMode := .holds true, initialized := .holds (m && i) } := by
  obtain ⟨hmode, hinit⟩ := h
  have hread := s.isPartial_of m hmode
  cases m with
  | false => simp [State.toPartial, hread]
  | true => simp [State.toPartial, hread, ← hmode, ← hinit]

/-- The switch to full mode keeps `initialized` exactly if the mode was full (R125). -/
theorem State.toFull_of_inMode {s : State} {m i : Bool} (h : s.inMode m i) :
    s.toFull = { s with partialMode := .holds false, initialized := .holds (!m && i) } := by
  obtain ⟨hmode, hinit⟩ := h
  have hread := s.isPartial_of m hmode
  cases m with
  | false => simp [State.toFull, hread, ← hmode, ← hinit]
  | true => simp [State.toFull, hread]

/-! ### The operations -/

/-- An accepted operation of one line ends with what that line leaves, if the line neither waits nor ends it (R22). -/
theorem operate_one_task {s t : State} {op : Instr} {x : Task} (h : s.accepts)
    (hx : perform x ((s.start op [x]).popTo op 0 []) = .on t) (ht : t.seq = .run op 0 []) :
    s.operate op [x] = t.finish := by
  rw [operate_accepted s op [x] h, driveFuel, drive_task _ _ t op 0 x [] rfl hx, drive_end _ t op 0 ht]

/-- Settles O22: the operation is the one line that switches to partial mode. -/
theorem setPartialWritesOnlyOnAChange : Obligations.SetPartialWritesOnlyOnAChange := by
  intro s m i haccepts hmode
  have hflags := State.toPartial_of_inMode (s := (s.start .setPartial [.setPartial]).popTo .setPartial 0 []) hmode
  have hrun := operate_one_task (op := .setPartial) (x := .setPartial) haccepts (congrArg Progress.on hflags) rfl
  exact congrArg Host.Outcome.next hrun

/-- Settles O23: the operation is the one line that switches to full mode. -/
theorem setFullWritesOnlyOnAChange : Obligations.SetFullWritesOnlyOnAChange := by
  intro s m i haccepts hmode
  have hflags := State.toFull_of_inMode (s := (s.start .setFull [.setFull]).popTo .setFull 0 []) hmode
  have hrun := operate_one_task (op := .setFull) (x := .setFull) haccepts (congrArg Progress.on hflags) rfl
  exact congrArg Host.Outcome.next hrun

end Sys2Proof.Machine
end

