-- ==== Sys2Proof/Proofs/Encoding.lean ====
section
/-! PROOFS. The decoder and the encoder against each other (R51 to R53, R56, R60 to R62). -/

namespace Sys2Proof.Machine

/-! ### Payloads of fixed length, read -/

@[simp] theorem payload0_nil (op : Byte) (i : Instr) : payload0 op [] i = .ok i := rfl
@[simp] theorem payload1_one (op a : Byte) (f : Byte → Instr) : payload1 op [a] f = .ok (f a) := rfl
@[simp] theorem payload2_two (op a b : Byte) (f : Byte → Byte → Instr) : payload2 op [a, b] f = .ok (f a b) := rfl
@[simp] theorem payload3_three (op a b c : Byte) (f : Byte → Byte → Byte → Instr) :
    payload3 op [a, b, c] f = .ok (f a b c) := rfl
@[simp] theorem payload4_four (op a b c d : Byte) (f : Byte → Byte → Byte → Byte → Instr) :
    payload4 op [a, b, c, d] f = .ok (f a b c d) := rfl

/-- A waveform table of 30 bytes is accepted as it stands (R53, R101). -/
theorem decodeFrame_table {table : List Byte} (h : table.length = lutLen) :
    decodeFrame (0x32#8 :: table) = .ok (.writeLut table) := by
  simp [decodeFrame, decodePayload, h]

/-- A bitmap is accepted as it stands, whatever its length (R53, R99). -/
theorem decodeFrame_bitmap (bitmap : List Byte) : decodeFrame (0x24#8 :: bitmap) = .ok (.writeRam bitmap) := rfl

/-- Settles O1, constructor by constructor: a 16-bit operand is put together again from its two bytes, a table has the length
that the decoder asks for, and every other operand is one byte or one lane. -/
theorem encodedInstructionDecodesToItself : Obligations.EncodedInstructionDecodesToItself := by
  intro i hwf
  cases i
  case driverOutputControl h flags => simp [encode, decode, decodeFrame, decodePayload]
  case setRamYWindow first last => simp [encode, decode, decodeFrame, decodePayload]
  case setRamYCounter row => simp [encode, decode, decodeFrame, decodePayload]
  case writeLut table => exact decodeFrame_table (by simpa [Instr.wellFormed] using hwf)
  all_goals rfl

/-! ### A frame that decodes -/

/-- The opcodes of R60. -/
def opcodes : List Byte :=
  [0x01#8, 0x0C#8, 0x11#8, 0x20#8, 0x22#8, 0x24#8, 0x2C#8, 0x32#8, 0x3A#8, 0x3B#8, 0x44#8, 0x45#8, 0x4E#8, 0x4F#8, 0xFF#8]

/-- A first byte that is no opcode is rejected by name, whatever follows (R61). -/
theorem decodeFrame_of_not_opcode {op : Byte} (h : op ∉ opcodes) (payload : List Byte) :
    decodeFrame (op :: payload) = .error (.unknownOpcode op) := by
  simp only [opcodes, List.mem_cons, List.not_mem_nil, or_false, not_or] at h
  simp [decodeFrame, decodePayload, h]

/-- A frame of command 0x32 that decodes is the encoding of its table (R53, R101). -/
theorem encode_of_table {table : List Byte} {i : Instr} (h : decodeFrame (0x32#8 :: table) = .ok i) :
    encode i = .frame (0x32#8 :: table) := by
  by_cases hlen : table.length = lutLen
  · rw [decodeFrame_table hlen] at h; cases h; rfl
  · simp [decodeFrame, decodePayload, hlen] at h

/-- Settles O2: the opcode is one of the fifteen, its payload has the length the opcode asks for, and the encoder writes the
same bytes again; a 16-bit operand is split into the bytes it was put together from. -/
theorem decodedFrameEncodesBack : Obligations.DecodedFrameEncodesBack := by
  intro bytes i h
  cases bytes with
  | nil => cases h
  | cons op payload =>
    by_cases hop : op ∈ opcodes
    · simp only [opcodes, List.mem_cons, List.not_mem_nil, or_false] at hop
      rcases hop with rfl | rfl | rfl | rfl | rfl | rfl | rfl | rfl | rfl | rfl | rfl | rfl | rfl | rfl | rfl
      · obtain ⟨lo, hi, flags, rfl, rfl⟩ := payload3_ok h; simp [encode]
      · obtain ⟨phase1, phase2, phase3, rfl, rfl⟩ := payload3_ok h; rfl
      · obtain ⟨mode, rfl, rfl⟩ := payload1_ok h; rfl
      · obtain ⟨rfl, rfl⟩ := payload0_ok h; rfl
      · obtain ⟨selector, rfl, rfl⟩ := payload1_ok h; rfl
      · cases h; rfl
      · obtain ⟨voltage, rfl, rfl⟩ := payload1_ok h; rfl
      · exact encode_of_table h
      · obtain ⟨period, rfl, rfl⟩ := payload1_ok h; rfl
      · obtain ⟨width, rfl, rfl⟩ := payload1_ok h; rfl
      · obtain ⟨first, last, rfl, rfl⟩ := payload2_ok h; rfl
      · obtain ⟨lo, hi, lo', hi', rfl, rfl⟩ := payload4_ok h; simp [encode]
      · obtain ⟨column, rfl, rfl⟩ := payload1_ok h; rfl
      · obtain ⟨lo, hi, rfl, rfl⟩ := payload2_ok h; simp [encode]
      · obtain ⟨rfl, rfl⟩ := payload0_ok h; rfl
    · rw [decodeFrame_of_not_opcode hop] at h; cases h

/-! ### The opcode map -/

/-- Each opcode of R60 is the first byte of a well-formed command's frame. -/
theorem command_of_opcode {op : Byte} (h : op ∈ opcodes) :
    ∃ i payload, encode i = .frame (op :: payload) ∧ i.wellFormed = true ∧ isCommand i = true := by
  simp only [opcodes, List.mem_cons, List.not_mem_nil, or_false] at h
  rcases h with rfl | rfl | rfl | rfl | rfl | rfl | rfl | rfl | rfl | rfl | rfl | rfl | rfl | rfl | rfl
  · exact ⟨.driverOutputControl 0 0, _, rfl, rfl, rfl⟩
  · exact ⟨.boosterSoftStart 0 0 0, _, rfl, rfl, rfl⟩
  · exact ⟨.dataEntryMode 0, _, rfl, rfl, rfl⟩
  · exact ⟨.masterActivation, _, rfl, rfl, rfl⟩
  · exact ⟨.displayUpdateControl2 selectPower, _, rfl, rfl, rfl⟩
  · exact ⟨.writeRam blankBitmap, _, rfl, by simp [Instr.wellFormed, blankBitmap], rfl⟩
  · exact ⟨.writeVcom 0, _, rfl, rfl, rfl⟩
  · exact ⟨.writeLut lutPartial, _, rfl, rfl, rfl⟩
  · exact ⟨.dummyLinePeriod 0, _, rfl, rfl, rfl⟩
  · exact ⟨.gateLineWidth 0, _, rfl, rfl, rfl⟩
  · exact ⟨.setRamXWindow 0 0, _, rfl, rfl, rfl⟩
  · exact ⟨.setRamYWindow 0 0, _, rfl, rfl, rfl⟩
  · exact ⟨.setRamXCounter 0, _, rfl, rfl, rfl⟩
  · exact ⟨.setRamYCounter 0, _, rfl, rfl, rfl⟩
  · exact ⟨.terminator, _, rfl, rfl, rfl⟩

/-- Settles O3: a command's own frame decodes to it, and every other first byte falls through to the rejection by name. -/
theorem exactlyFifteenOpcodesDecode : Obligations.ExactlyFifteenOpcodesDecode := by
  intro op
  split
  · rename_i hop
    obtain ⟨i, payload, henc, hwf, hcommand⟩ := command_of_opcode hop
    have hdec := encodedInstructionDecodesToItself i hwf
    rw [henc] at hdec
    exact ⟨payload, i, hdec, hwf, hcommand⟩
  · rename_i hop
    exact decodeFrame_of_not_opcode hop

/-- Settles O4: each word is decoded by running the decoder on it. -/
theorem wordsOfTheSpecDecode : Obligations.WordsOfTheSpecDecode := by
  exact ⟨rfl, rfl, rfl, rfl, rfl, rfl⟩

/-- A request with a reserved code is rejected by name (R62). -/
theorem decodeRequest_reserved {r : Request} (h : 0xB ≤ r.code.toNat) :
    decodeRequest r = .error (.reservedCode r.code) := by
  unfold decodeRequest
  split
  case h_12 => rfl
  all_goals omega

end Sys2Proof.Machine
end

