-- ==== Sys2Proof/Proofs/Lines.lean ====
section
/-! PROOFS. What one line of an operation can do: micro-operations are run; every other line writes flags at most and is
replaced by the lines it stands for (R22, R131, R132). -/

namespace Sys2Proof.Machine

/-! ### The two kinds of lines -/

/-- The micro-operations of a line that consists of them alone (R86, R87). -/
def Task.toMicros (x : Task) : List Micro :=
  match x with
  | .frame (op :: payload) => frameMicros op payload
  | .micros ms => ms
  | _ => []

/-- The flags that a line writes by itself (R112, R121 to R129). -/
def Task.writes (x : Task) (s : State) : State :=
  match x with
  | .markInitialized => s.markInitialized
  | .markUninitialized => s.markUninitialized
  | .resetFlag => s.resetFlag
  | .construct => s.construct
  | .setPartial => s.toPartial
  | .setFull => s.toFull
  | .saveMode => s.saveMode
  | .restoreMode => s.restoreMode
  | .frame _ | .micros _ | .lutFrame | .init | .ensureInit => s

/-- The lines that a line is replaced by (R101, R110, R111, R132). -/
def Task.expand (x : Task) (s : State) : List Task :=
  match x with
  | .lutFrame => [.frame (lutFrameBytes s.cfg s.isPartial)]
  | .init => initTasks s.cfg
  | .ensureInit => if s.isInitialized then [] else [.init]
  | _ => []

@[simp] theorem State.push_nil (s : State) : s.push [] = s := by
  have h : s.seq.push [] = s.seq := by cases s.seq <;> rfl
  simp [State.push, h]

/-- A line of micro-operations is performed by running them. -/
theorem perform_micros {x : Task} (h : x.isMicros = true) (s : State) : perform x s = runMicros x.toMicros s := by
  cases x <;> simp [Task.isMicros] at h
  case micros ms => rfl
  case frame bytes => cases bytes <;> rfl

/-- Every other line goes on: it writes its flags and is replaced by its lines. -/
theorem perform_line {x : Task} (h : x.isMicros = false) (s : State) :
    perform x s = .on ((x.writes s).push (x.expand s)) := by
  cases x <;> simp [Task.isMicros] at h
  case ensureInit => by_cases hi : s.isInitialized <;> simp [perform, Task.writes, Task.expand, hi]
  all_goals simp [perform, Task.writes, Task.expand]

/-- The events of a line of micro-operations are theirs. -/
theorem events_of_isMicros {x : Task} (h : x.isMicros = true) (c : Config) (m : Bool) :
    x.events c m = x.toMicros.map Micro.event := by
  cases x <;> simp [Task.isMicros] at h
  case micros ms => rfl
  case frame bytes =>
    cases bytes with
    | nil => rfl
    | cons op payload => exact (frameMicros_events op payload).symm

/-! ### The next line of a running operation -/

theorem nextTask_of_idle {s : State} (h : s.seq = .idle) : nextTask s = .on s := by
  simp [nextTask, h]

theorem nextTask_of_end {s : State} {op : Instr} {k : Nat} (h : s.seq = .run op k []) :
    nextTask s = .on s.finish := by
  simp [nextTask, h]

theorem nextTask_of_micros {s : State} {op : Instr} {k : Nat} {x : Task} {todo : List Task}
    (h : s.seq = .run op k (x :: todo)) (hx : x.isMicros = true) :
    nextTask s = runMicros x.toMicros (s.popTo op k todo) := by
  simp [nextTask, h, perform_micros hx]

/-- `s` at another position, with another trace and other answers to polls: what no flag depends on. -/
def State.observed (s : State) (q : Seq) (es : List Event) (answers : Answers Bool) (n : Nat) : State :=
  { s with seq := q, trace := es, busyIn := answers, polls := n }

/-- Neither the position nor the trace nor an answer matters to the flags a line writes. -/
theorem writes_observed (x : Task) (s : State) (q : Seq) (es : List Event) (answers : Answers Bool) (n : Nat) :
    x.writes (s.observed q es answers n) = (x.writes s).observed q es answers n := by
  have hpartial (u : State) : (u.observed q es answers n).toPartial = u.toPartial.observed q es answers n := by
    have hread : (u.observed q es answers n).isPartial = u.isPartial := rfl
    unfold State.toPartial
    rw [hread]
    split <;> rfl
  cases x
  case setPartial => exact hpartial s
  case setFull =>
    have hread : (s.observed q es answers n).isPartial = s.isPartial := rfl
    simp only [Task.writes, State.toFull, hread]
    split <;> rfl
  case restoreMode =>
    have hread : (s.observed q es answers n).savedMode = s.savedMode := rfl
    simp only [Task.writes, State.restoreMode, hread, hpartial]
    split <;> rfl
  all_goals rfl

/-! ### What a line writes -/

section
variable (x : Task) (s : State)

@[simp] theorem writes_cfg : (x.writes s).cfg = s.cfg := by cases x <;> simp [Task.writes]
@[simp] theorem writes_seq : (x.writes s).seq = s.seq := by cases x <;> simp [Task.writes]
@[simp] theorem writes_bufs : (x.writes s).bufs = s.bufs := by cases x <;> simp [Task.writes]
@[simp] theorem writes_trace : (x.writes s).trace = s.trace := by cases x <;> simp [Task.writes]
@[simp] theorem writes_busyIn : (x.writes s).busyIn = s.busyIn := by cases x <;> simp [Task.writes]
@[simp] theorem writes_polls : (x.writes s).polls = s.polls := by cases x <;> simp [Task.writes]

/-- What is left to do does not matter to the flags a line writes. -/
theorem writes_popTo (op : Instr) (k : Nat) (todo : List Task) :
    x.writes (s.popTo op k todo) = (x.writes s).popTo op k todo := by
  have h := writes_observed x s (.run op k todo) s.trace s.busyIn s.polls
  rw [← writes_trace x s, ← writes_busyIn x s, ← writes_polls x s] at h
  simpa [State.observed, State.popTo] using h

end

theorem nextTask_of_line {s : State} {op : Instr} {k : Nat} {x : Task} {todo : List Task}
    (h : s.seq = .run op k (x :: todo)) (hx : x.isMicros = false) :
    nextTask s = .on ((x.writes s).popTo op k (x.expand s ++ todo)) := by
  have hexpand : x.expand (s.popTo op k todo) = x.expand s := rfl
  simp only [nextTask, h, perform_line hx, writes_popTo, hexpand]
  rfl

/-! ### Where a run of micro-operations ends -/

/-- A line of micro-operations writes no flag (R86, R87). -/
theorem nextTask_sameFlags {s : State} {op : Instr} {k : Nat} {x : Task} {todo : List Task}
    (hs : s.seq = .run op k (x :: todo)) (hx : x.isMicros = true) : SameFlags s (nextTask s).state := by
  rw [nextTask_of_micros hs hx]
  have hpop : SameFlags s (s.popTo op k todo) := ⟨rfl, rfl, rfl, rfl, rfl, rfl⟩
  exact SameFlags.kept.trans hpop (SameFlags.kept.runMicros x.toMicros (s.popTo op k todo))

/-- A run of micro-operations goes on with what was left to do, waits with the rest of its own before that, or ends the
operation, in which case `saved` has no value (R22, R27, R85, R88). -/
theorem runMicros_position (ms : List Micro) (s : State) (op : Instr) (k : Nat) (todo : List Task)
    (hs : s.seq = .run op k todo) :
    (∃ k', (runMicros ms s).state.seq = .run op k' todo ∧ (runMicros ms s).state.saved = s.saved)
    ∨ (∃ k' ms', (runMicros ms s).state.seq = .run op k' (.micros ms' :: todo)
        ∧ (runMicros ms s).state.saved = s.saved)
    ∨ ((runMicros ms s).state.seq = .idle ∧ (runMicros ms s).state.saved = .unwritten) := by
  induction ms generalizing s k with
  | nil => exact .inl ⟨k, hs, rfl⟩
  | cons m ms ih =>
    cases m with
    | cs l => exact ih (s.pinCs l) (k + 1) (by simp [hs])
    | dc l => exact ih (s.pinDc l) (k + 1) (by simp [hs])
    | rst l => exact ih (s.pinRst l) (k + 1) (by simp [hs])
    | delay n => exact ih (s.delayMs n) (k + 1) (by simp [hs])
    | poll n =>
      simp only [runMicros]
      split
      · split
        · exact .inr (.inr ⟨rfl, rfl⟩)
        · exact .inr (.inl ⟨k, .poll (n + 1) :: ms, by simp [Progress.state, hs], rfl⟩)
      · exact ih (s.afterPoll false).tick (k + 1) (by simp [hs])
    | tx b =>
      simp only [runMicros]
      split
      · exact ih (s.afterTx b none) (k + 1) (by simp [hs])
      · exact .inr (.inr ⟨rfl, rfl⟩)

end Sys2Proof.Machine
end

