-- ==== Sys2Proof/Proofs/Framing.lean ====
section
/-! PROOFS. The framing of R51 along a run: what `Phase.plays` promises of micro-operations their run keeps, whatever the
environment answers. -/

namespace Sys2Proof.Machine

theorem followAll_append (p : Phase) (es fs : List Event) :
    p.followAll (es ++ fs) = (p.followAll es).bind (·.followAll fs) := by
  induction es generalizing p with
  | nil => rfl
  | cons e es ih =>
    simp only [List.cons_append, Phase.followAll]
    cases p.follow e with
    | none => rfl
    | some q => exact ih q

/-- One more event of a trace that keeps to the framing. -/
theorem followAll_snoc {p q r : Phase} {es : List Event} {e : Event} (h : p.followAll es = some q)
    (he : q.follow e = some r) : p.followAll (es ++ [e]) = some r := by
  simp [followAll_append, h, Phase.followAll, he]

/-- The first of micro-operations that keep to the framing does, and so do the others after it. -/
theorem plays_cons {p : Phase} {m : Micro} {ms : List Micro} (h : p.plays (m :: ms) = true) :
    ∃ q, p.follow m.event = some q ∧ q.plays ms = true := by
  cases m
  case poll n =>
    simp only [Phase.plays, Bool.and_eq_true, beq_iff_eq] at h
    obtain ⟨rfl, hms⟩ := h
    exact ⟨.ready, rfl, hms⟩
  all_goals
    simp only [Phase.plays] at h
    split at h
    · exact ⟨_, by assumption, h⟩
    · cases h

/-- A busy poll comes in the phase `selected` only. -/
theorem plays_poll {p : Phase} {n : Nat} {ms : List Micro} (h : p.plays (.poll n :: ms) = true) : p = .selected := by
  simp only [Phase.plays, Bool.and_eq_true, beq_iff_eq] at h
  exact h.1

/-- Where a byte may go out it may fail, which breaks the frame (R88). -/
theorem plays_tx_fails {p : Phase} {b : Byte} {ms : List Micro} (h : p.plays (.tx b :: ms) = true) (e : TransportErr) :
    p.follow (.txFailed b e) = some .broken := by
  cases p <;> simp [Phase.plays, Phase.follow] at h ⊢

/-- Lines that fit anywhere fit wherever no frame is under way. -/
theorem fits_of_resting {p : Phase} {todo : List Task} (hp : p.resting = true) (h : todo.all Task.fitsAnywhere = true)
    (op : Instr) (k : Nat) : (Seq.run op k todo).fits p = true := by
  cases todo with
  | nil => simp [Seq.fits, hp]
  | cons x todo =>
    cases x
    case micros ms =>
      simp only [List.all_cons, Task.fitsAnywhere, Bool.and_eq_true] at h
      obtain ⟨⟨⟨hclosed, hbroken⟩, hselected⟩, htodo⟩ := h
      cases p <;> simp_all [Phase.resting, Seq.fits]
    all_goals simpa [Seq.fits, hp] using h

/-- The trace keeps to the framing and what is left to do will. -/
def State.Framed (s : State) : Prop := ∃ p, Phase.followAll .closed s.trace = some p ∧ s.seq.fits p = true

/-- A run of micro-operations that keep to the framing keeps it, to its end, to a wait, to a failure (R51, R85, R88, R89). -/
theorem runMicros_framed {ms : List Micro} {s : State} {op : Instr} {k : Nat} {todo : List Task} {p : Phase}
    (hs : s.seq = .run op k todo) (hp : Phase.followAll .closed s.trace = some p) (hms : p.plays ms = true)
    (htodo : todo.all Task.fitsAnywhere = true) : (runMicros ms s).state.Framed := by
  induction ms generalizing s k p with
  | nil => exact ⟨p, hp, by rw [show (runMicros [] s).state.seq = _ from hs]; exact fits_of_resting hms htodo op k⟩
  | cons m ms ih =>
    obtain ⟨q, hq, hqms⟩ := plays_cons hms
    have hgood := followAll_snoc hp hq
    cases m with
    | cs l => exact ih (s := s.pinCs l) (k := k + 1) (by simp [hs]) hgood hqms
    | dc l => exact ih (s := s.pinDc l) (k := k + 1) (by simp [hs]) hgood hqms
    | rst l => exact ih (s := s.pinRst l) (k := k + 1) (by simp [hs]) hgood hqms
    | delay n => exact ih (s := s.delayMs n) (k := k + 1) (by simp [hs]) hgood hqms
    | poll n =>
      obtain rfl := plays_poll hms
      have hbusy := followAll_snoc (e := .busy true) (r := .selected) hp rfl
      simp only [runMicros]
      split
      · split
        · exact ⟨.selected, hbusy, rfl⟩
        · exact ⟨.selected, hbusy, by
            simpa [Progress.state, hs, Seq.fits, htodo, Phase.plays] using hms⟩
      · exact ih (s := (s.afterPoll false).tick) (k := k + 1) (by simp [hs]) hgood hqms
    | tx b =>
      simp only [runMicros]
      split
      · exact ih (s := s.afterTx b none) (k := k + 1) (by simp [hs]) hgood hqms
      · exact ⟨.broken, followAll_snoc hp (plays_tx_fails hms _), rfl⟩

/-- Payload bytes in the phase `payload` leave it there. -/
theorem plays_payload (bs : List Byte) (ms : List Micro) :
    Phase.plays .payload (bs.map .tx ++ ms) = Phase.plays .payload ms := by
  induction bs with
  | nil => rfl
  | cons b bs ih => simpa [Phase.plays, Phase.follow] using ih

/-- A frame keeps to the framing wherever no frame is under way (R51, R86, R87). -/
theorem plays_frameMicros {p : Phase} (hp : p.resting = true) (op : Byte) (payload : List Byte) :
    p.plays (frameMicros op payload) = true := by
  have hselected (ms : List Micro) : p.plays (.cs .act :: ms) = Phase.plays .selected ms := by
    cases p <;> simp [Phase.resting] at hp <;> rfl
  rw [frameMicros_cons, hselected]
  by_cases hpl : payload = []
  · simp [hpl, Phase.plays, Phase.follow, Phase.resting]
  · simp [hpl, Phase.plays, Phase.follow, Phase.resting, plays_payload]

/-- The first line left to do, if it is one of micro-operations, keeps to the framing from where the trace stands. -/
theorem plays_of_fits {x : Task} {todo : List Task} {op : Instr} {k : Nat} {p : Phase} (hx : x.isMicros = true)
    (h : (Seq.run op k (x :: todo)).fits p = true) :
    p.plays x.toMicros = true ∧ todo.all Task.fitsAnywhere = true := by
  cases x <;> simp [Task.isMicros] at hx
  case micros ms => simpa [Seq.fits, Task.toMicros] using h
  case frame bytes =>
    simp only [Seq.fits, List.all_cons, Bool.and_eq_true] at h
    obtain ⟨hp, -, htodo⟩ := h
    cases bytes with
    | nil => exact ⟨hp, htodo⟩
    | cons op payload => exact ⟨plays_frameMicros hp op payload, htodo⟩

/-- A line that is none of micro-operations stands outside a frame. -/
theorem resting_of_fits {x : Task} {todo : List Task} {op : Instr} {k : Nat} {p : Phase} (hx : x.isMicros = false)
    (h : (Seq.run op k (x :: todo)).fits p = true) :
    p.resting = true ∧ todo.all Task.fitsAnywhere = true := by
  cases x <;> simp [Task.isMicros] at hx <;> simpa [Seq.fits, Task.fitsAnywhere] using h

/-- The lines that a line is replaced by fit anywhere. -/
theorem expand_fitsAnywhere (x : Task) (s : State) : (x.expand s).all Task.fitsAnywhere = true := by
  cases x
  case ensureInit => by_cases h : s.isInitialized <;> simp [Task.expand, h, Task.fitsAnywhere]
  all_goals rfl

/-- The next line keeps the framing. -/
theorem State.Framed.nextTask {s : State} (h : s.Framed) : (nextTask s).state.Framed := by
  obtain ⟨p, hp, hfits⟩ := h
  match hs : s.seq with
  | .idle => rw [nextTask_of_idle hs]; exact ⟨p, hp, hfits⟩
  | .run op k [] =>
    rw [nextTask_of_end hs]
    exact ⟨p, hp, by simpa [hs, Seq.fits, Progress.state] using hfits⟩
  | .run op k (x :: todo) =>
    rw [hs] at hfits
    by_cases hx : x.isMicros = true
    · obtain ⟨hplays, htodo⟩ := plays_of_fits hx hfits
      rw [nextTask_of_micros hs hx]
      exact runMicros_framed (s := s.popTo op k todo) rfl hp hplays htodo
    · rw [Bool.not_eq_true] at hx
      obtain ⟨hrest, htodo⟩ := resting_of_fits hx hfits
      rw [nextTask_of_line hs hx]
      refine ⟨p, by simpa [Progress.state] using hp, fits_of_resting hrest ?_ op k⟩
      rw [List.all_append, expand_fitsAnywhere, htodo, Bool.and_self]

end Sys2Proof.Machine
end

