-- ==== Sys2Proof/Proofs/Invariant.lean ====
section
/-! PROOFS. The invariant of a safe run: it holds at power-on, every line of an operation keeps it, and so does every step,
which a state that meets it always has (R11, R27, R29, R31, R51, R61, R92, R161). -/

namespace Sys2Proof.Machine

/-! ### Parameters, tables and the frames of the fifteen commands -/

/-- A legal `LUT_FULL` has 30 bytes (R116). -/
theorem Config.lutFull_length {c : Config} (h : c.valid = true) : c.lutFull.length = lutLen := by
  simp only [Config.valid, Bool.and_eq_true] at h
  obtain ⟨⟨-, hform⟩, -⟩ := h
  simp only [Config.lutFullForm, List.any_eq_true, List.mem_range, beq_iff_eq] at hform
  obtain ⟨n, hn, hlut⟩ := hform
  simp [hlut, lutLen]
  omega

/-- Each table that INIT can send has 30 bytes (R24). -/
theorem lutOf_length {c : Config} (h : c.valid = true) (m : Bool) : (lutOf c m).length = lutLen := by
  cases m
  · exact Config.lutFull_length h
  · rfl

/-- The lines that a line is replaced by are frames of the fifteen commands, as far as they are frames (R61, R92). -/
theorem expand_decodes {s : State} (h : s.cfg.valid = true) (x : Task) : (x.expand s).all Task.decodes = true := by
  cases x
  case lutFrame =>
    have hd := decodeFrame_table (lutOf_length h s.isPartial)
    simp [Task.expand, lutFrameBytes, frameBytes, encode, Task.decodes, hd, Except.toBool]
  case ensureInit => by_cases hi : s.isInitialized <;> simp [Task.expand, hi, Task.decodes]
  all_goals rfl

/-! ### The flags and `saved` along a line -/

/-- Both flags hold a value (R29). -/
def State.flagsWritten (s : State) : Prop := s.partialMode.written = true ∧ s.initialized.written = true

/-- A line takes no value from a flag. -/
theorem writes_flagsWritten (x : Task) {s : State} (h : s.flagsWritten) : (x.writes s).flagsWritten := by
  have hpartial (u : State) (hu : u.flagsWritten) : u.toPartial.flagsWritten := by
    unfold State.toPartial
    split
    · exact hu
    · exact ⟨rfl, rfl⟩
  cases x
  case markInitialized => exact ⟨h.1, rfl⟩
  case markUninitialized => exact ⟨h.1, rfl⟩
  case resetFlag =>
    refine ⟨h.1, ?_⟩
    simp only [Task.writes, State.resetFlag_initialized]
    split
    · rfl
    · exact h.2
  case construct => exact ⟨rfl, rfl⟩
  case setPartial => exact hpartial s h
  case setFull =>
    simp only [Task.writes, State.toFull]
    split
    · exact ⟨rfl, rfl⟩
    · exact h
  case restoreMode =>
    simp only [Task.writes, State.restoreMode]
    split
    · exact hpartial s h
    · exact h
  all_goals exact h

/-- Only NEW's line constructs the block (R121). -/
theorem writes_constructed {x : Task} (h : x ≠ .construct) (s : State) : (x.writes s).constructed = s.constructed := by
  cases x
  case construct => exact absurd rfl h
  all_goals simp [Task.writes]

/-- Only CLEAR's first line writes `saved` (R126). -/
theorem writes_saved {x : Task} (h : x ≠ .saveMode) (s : State) : (x.writes s).saved = s.saved := by
  cases x
  case saveMode => exact absurd rfl h
  all_goals simp [Task.writes]

/-- A line whose replacement reads a flag reads one itself. -/
theorem readsFlags_of_expand {x : Task} {s : State} (h : (x.expand s).any Task.readsFlags = true) :
    x.readsFlags = true := by
  cases x
  case lutFrame => rfl
  case init => rfl
  case ensureInit => rfl
  all_goals simp [Task.expand] at h

/-- No line is replaced by one that writes `saved`. -/
theorem saveMode_notMem_expand (x : Task) (s : State) : .saveMode ∉ x.expand s := by
  cases x
  case init => simp [Task.expand, initTasks]
  case ensureInit => by_cases h : s.isInitialized <;> simp [Task.expand, h]
  all_goals simp [Task.expand]

/-- Micro-operations neither write nor read `saved`. -/
theorem savedBeforeRead_micros {x : Task} (hx : x.isMicros = true) (h : Bool) (todo : List Task) :
    savedBeforeRead h (x :: todo) = savedBeforeRead h todo := by
  cases x
  case frame bytes => rfl
  case micros ms => rfl
  all_goals cases hx

/-- `saved` is still written before it is read when a line has been performed. -/
theorem savedBeforeRead_next {s : State} {x : Task} {todo : List Task}
    (h : savedBeforeRead s.saved.written (x :: todo) = true) :
    savedBeforeRead (x.writes s).saved.written (x.expand s ++ todo) = true := by
  cases x
  case restoreMode =>
    simp only [savedBeforeRead, Bool.and_eq_true] at h
    simpa [Task.writes, Task.expand] using h.2
  case ensureInit => by_cases hi : s.isInitialized <;> simpa [Task.writes, Task.expand, hi, savedBeforeRead] using h
  case setPartial => simpa [Task.writes, Task.expand, savedBeforeRead] using h
  case setFull => simpa [Task.writes, Task.expand, savedBeforeRead] using h
  all_goals exact h

/-! ### The invariant along an operation -/

/-- What the invariant asks of a state depends on these fields alone. -/
theorem State.Inv.congr {s t : State} (h : s.Inv) (hcfg : t.cfg = s.cfg) (hbufs : t.bufs.all (fun b => b.mem.wf) = true)
    (hp : t.partialMode = s.partialMode) (hi : t.initialized = s.initialized) (hc : t.constructed = s.constructed)
    (hsaved : t.saved = s.saved) (hseq : t.seq = s.seq) (htrace : t.trace = s.trace) : t.Inv where
  config := hcfg ▸ h.config
  memory := hbufs
  flags := by rw [hc, hp, hi]; exact h.flags
  reads := by rw [hseq, hp, hi]; exact h.reads
  saved := by rw [hseq, hsaved]; exact h.saved
  restore := by rw [hseq, hsaved]; exact h.restore
  frames := by rw [hseq]; exact h.frames
  framing := by rw [hseq, htrace]; exact h.framing

/-- Nothing left to do asks nothing of the flags. -/
theorem State.Inv.of_idle {s t : State} (h : s.Inv) (hcfg : t.cfg = s.cfg) (hbufs : t.bufs = s.bufs)
    (hflags : t.constructed = true → t.flagsWritten) (hsaved : t.saved = .unwritten) (hseq : t.seq = .idle)
    (hframed : t.Framed) : t.Inv where
  config := hcfg ▸ h.config
  memory := hbufs ▸ h.memory
  flags := hflags
  reads := by simp [hseq, Seq.todo]
  saved := by simp [hseq, Seq.todo, hsaved]
  restore := by simp [hseq, Seq.todo, savedBeforeRead]
  frames := by simp [hseq, Seq.todo]
  framing := hframed

/-- Whether the operation is CLEAR does not depend on how far it is. -/
theorem isClear_run (op : Instr) (k k' : Nat) (todo todo' : List Task) :
    (Seq.run op k todo).isClear = (Seq.run op k' todo').isClear := by
  cases op <;> rfl

/-- What the invariant asks when the first line left to do, `x`, has been replaced by the lines `us`. -/
theorem State.Inv.of_running {s t : State} {op : Instr} {k k' : Nat} {x : Task} {us todo : List Task} (h : s.Inv)
    (hs : s.seq = .run op k (x :: todo)) (ht : t.seq = .run op k' (us ++ todo)) (hcfg : t.cfg = s.cfg)
    (hbufs : t.bufs = s.bufs) (hflags : t.constructed = true → t.flagsWritten)
    (hkeep : s.flagsWritten → t.flagsWritten) (hreads : us.any Task.readsFlags = true → x.readsFlags = true)
    (hsave : .saveMode ∉ us) (hsaved : x ≠ .saveMode → t.saved = s.saved)
    (hrestore : savedBeforeRead t.saved.written (us ++ todo) = true) (hdecodes : us.all Task.decodes = true)
    (hframed : t.Framed) : t.Inv where
  config := hcfg ▸ h.config
  memory := hbufs ▸ h.memory
  flags := hflags
  reads := by
    intro hany
    refine hkeep (h.reads ?_)
    simp only [ht, hs, Seq.todo, List.any_append, List.any_cons, Bool.or_eq_true] at hany ⊢
    exact hany.imp_left hreads
  saved := by
    intro hclear
    have hclear' : s.seq.isClear = false := by rw [hs, ← isClear_run op k' k (us ++ todo), ← ht]; exact hclear
    obtain ⟨hunwritten, hnot⟩ := h.saved hclear'
    simp only [hs, Seq.todo, List.mem_cons, not_or] at hnot
    exact ⟨(hsaved (Ne.symm hnot.1)).trans hunwritten, by simp [ht, Seq.todo, hsave, hnot.2]⟩
  restore := by rw [ht]; exact hrestore
  frames := by
    have hframes := h.frames
    simp only [hs, Seq.todo, List.all_cons, Bool.and_eq_true] at hframes
    simp only [ht, Seq.todo, List.all_append, hdecodes, hframes.2, Bool.and_self]
  framing := hframed

/-- A line of micro-operations keeps the invariant (R51, R86, R87). -/
theorem State.Inv.nextTask_micros {s : State} {op : Instr} {k : Nat} {x : Task} {todo : List Task} (h : s.Inv)
    (hs : s.seq = .run op k (x :: todo)) (hx : x.isMicros = true) : (nextTask s).state.Inv := by
  have hframed := State.Framed.nextTask h.framing
  obtain ⟨hcfg, hp, hi, hc, hbufs, -⟩ := nextTask_sameFlags hs hx
  have hpos := runMicros_position x.toMicros (s.popTo op k todo) op k todo rfl
  have hrestore := h.restore
  rw [hs, Seq.todo, savedBeforeRead_micros hx] at hrestore
  rw [nextTask_of_micros hs hx] at hframed hcfg hp hi hc hbufs ⊢
  generalize (runMicros x.toMicros (s.popTo op k todo)).state = t at *
  have hkeep : s.flagsWritten → t.flagsWritten := by rw [State.flagsWritten, State.flagsWritten, hp, hi]; exact id
  have hflags : t.constructed = true → t.flagsWritten := by rw [hc]; exact fun hcon => hkeep (h.flags hcon)
  rcases hpos with ⟨k', hseq, hsaved⟩ | ⟨k', ms, hseq, hsaved⟩ | ⟨hseq, hsaved⟩
  · exact h.of_running (us := []) hs hseq hcfg hbufs hflags hkeep (by simp) (by simp) (fun _ => hsaved)
      (by rw [hsaved]; exact hrestore) rfl hframed
  · exact h.of_running (us := [.micros ms]) hs hseq hcfg hbufs hflags hkeep (by simp [Task.readsFlags]) (by simp)
      (fun _ => hsaved) (by rw [hsaved]; exact hrestore) rfl hframed
  · exact h.of_idle hcfg hbufs hflags hsaved hseq hframed

/-- Every other line keeps the invariant (R27, R29, R110 to R129). -/
theorem State.Inv.nextTask_line {s : State} {op : Instr} {k : Nat} {x : Task} {todo : List Task} (h : s.Inv)
    (hs : s.seq = .run op k (x :: todo)) (hx : x.isMicros = false) : (nextTask s).state.Inv := by
  have hframed := State.Framed.nextTask h.framing
  have hrestore := h.restore
  rw [hs] at hrestore
  rw [nextTask_of_line hs hx] at hframed ⊢
  refine h.of_running hs rfl (writes_cfg x s) (writes_bufs x s) ?flags (writes_flagsWritten x) readsFlags_of_expand
    (saveMode_notMem_expand x s) (fun hne => writes_saved hne s) (savedBeforeRead_next hrestore)
    (expand_decodes h.config x) hframed
  intro hcon
  by_cases hne : x = .construct
  · subst hne; exact ⟨rfl, rfl⟩
  · exact writes_flagsWritten x (h.flags (by rw [← writes_constructed hne s]; exact hcon))

/-- The next line keeps the invariant. -/
theorem State.Inv.nextTask {s : State} (h : s.Inv) : (nextTask s).state.Inv := by
  match hs : s.seq with
  | .idle => rw [nextTask_of_idle hs]; exact h
  | .run op k [] =>
    have hframed := State.Framed.nextTask h.framing
    rw [nextTask_of_end hs] at hframed ⊢
    exact h.of_idle rfl rfl h.flags rfl rfl hframed
  | .run op k (x :: todo) =>
    by_cases hx : x.isMicros = true
    · exact h.nextTask_micros hs hx
    · exact h.nextTask_line hs (by simpa using hx)

/-! ### The start of an operation -/

/-- The lines of an operation fit anywhere. -/
theorem linesOf_fitsAnywhere (i : Instr) (s : State) : (linesOf i s).all Task.fitsAnywhere = true := by
  cases i
  case setDisplay fb => cases h : s.bufs[fb]? <;> simp [linesOf, h, setDisplayTasks, Task.fitsAnywhere]
  all_goals rfl

/-- The frames of an operation are frames of the fifteen commands (R61, R92). -/
theorem linesOf_decodes (i : Instr) (s : State) : (linesOf i s).all Task.decodes = true := by
  cases i
  case setDisplay fb =>
    cases h : s.bufs[fb]? <;>
      simp [linesOf, h, setDisplayTasks, Task.decodes, frameBytes, encode, decodeFrame_bitmap, Except.toBool]
  all_goals rfl

/-- Only CLEAR writes `saved` (R126). -/
theorem saveMode_notMem_linesOf {i : Instr} (h : i ≠ .clear) (s : State) : .saveMode ∉ linesOf i s := by
  cases i
  case clear => exact absurd rfl h
  case setDisplay fb => cases hb : s.bufs[fb]? <;> simp [linesOf, hb, setDisplayTasks]
  all_goals simp [linesOf, newTasks, resetTasks, updateTasks, powerOffTasks]

/-- CLEAR writes `saved` before it reads it, and no other operation reads it (R27, R126). -/
theorem savedBeforeRead_linesOf (h : Bool) (i : Instr) (s : State) : savedBeforeRead h (linesOf i s) = true := by
  cases i
  case setDisplay fb => cases hb : s.bufs[fb]? <;> simp [linesOf, hb, setDisplayTasks, savedBeforeRead]
  all_goals rfl

/-- NEW, which may come before the flags are written, reads none (R121). -/
theorem new_readsFlags (s : State) : (linesOf .new s).any Task.readsFlags = false := rfl

/-- The start of an accepted operation meets the invariant (R120, R133). -/
theorem State.Inv.start {s : State} (h : s.Inv) (hidle : s.seq = .idle) {i : Instr}
    (hi : i = .new ∨ s.constructed = true) : (s.start i (linesOf i s)).Inv where
  config := h.config
  memory := h.memory
  flags := h.flags
  reads := by
    intro hany
    rcases hi with rfl | hcon
    · simp [Seq.todo, new_readsFlags] at hany
    · exact h.flags hcon
  saved := by
    intro hclear
    have hne : i ≠ .clear := by rintro rfl; cases hclear
    exact ⟨(h.saved (by simp [hidle, Seq.isClear])).1, saveMode_notMem_linesOf hne s⟩
  restore := savedBeforeRead_linesOf _ i s
  frames := linesOf_decodes i s
  framing := by
    obtain ⟨p, hp, hfits⟩ := h.framing
    rw [hidle] at hfits
    exact ⟨p, hp, fits_of_resting hfits (linesOf_fitsAnywhere i s) i 0⟩

/-! ### The FrameBuffer operations -/

/-- With legal parameters a draw meets no fault and keeps the canonical form (R31, R74, R75). -/
theorem FrameBuffer.draw_wf {c : Config} (hc : c.valid = true) (b : FrameBuffer) (hb : b.mem.wf = true) (x y color : Int) :
    ∃ b', b.draw c x y color = .ok b' ∧ b'.mem.wf = true := by
  cases h : pixelAddress c b.orient x y with
  | none => exact ⟨b, by simp [FrameBuffer.draw, h], hb⟩
  | some p => exact ⟨_, FrameBuffer.draw_of_address hc h color, memWrite_wf hb (pixelAddress_byte_lt hc h) _⟩

/-- With legal parameters an operation of the FrameBuffer packer answers a next state, every space in its canonical
form (R31, R70, R75). -/
theorem exec_framebufferOp_wf {i : Instr} (hi : isFramebufferOp i = true) {s : State} (hc : s.cfg.valid = true)
    (hm : s.bufs.all (fun b => b.mem.wf) = true) :
    ∃ t, exec i s = .next t ∧ t.bufs.all (fun b => b.mem.wf) = true := by
  cases i <;> simp [isFramebufferOp] at hi
  case fbNew o =>
    refine ⟨_, rfl, ?_⟩
    split
    · simpa [blank_wf] using hm
    · exact hm
  case fbGetBuffer fb =>
    refine ⟨_, rfl, ?_⟩
    split <;> exact hm
  case fbDrawPixel fb x y color =>
    by_cases hs : s.seq = .idle
    · cases hb : s.bufs[fb]? with
      | none => exact ⟨s, by simp [exec, execFbDrawPixel, hb], hm⟩
      | some b =>
        rw [List.all_eq_true] at hm
        obtain ⟨b', hdraw, hwf⟩ := FrameBuffer.draw_wf hc b (hm b (List.mem_of_getElem? hb)) x y color
        refine ⟨_, exec_fbDrawPixel_of_draw hs hb hdraw, List.all_eq_true.mpr fun b1 h1 => ?_⟩
        rcases List.mem_or_eq_of_mem_set h1 with h1 | rfl
        · exact hm b1 h1
        · exact hwf
    · exact ⟨s, by simp [exec, execFbDrawPixel, hs], hm⟩

/-! ### Every instruction and every step -/

/-- A host operation keeps the invariant. -/
theorem State.Inv.exec {s t : State} (h : s.Inv) (hidle : s.seq = .idle) {i : Instr} (hi : isCommand i = false)
    (hexec : exec i s = .next t) : t.Inv := by
  rcases instr_classes i with hcmd | hctl | hfb
  · rw [hi] at hcmd; cases hcmd
  · rcases exec_controllerOp hctl hexec with rfl | ⟨-, hacc, rfl⟩
    · exact h
    · exact drive_induction (fun _ => State.Inv.nextTask) _ _ (h.start hidle hacc)
  · obtain ⟨u, hu, hwf⟩ := exec_framebufferOp_wf hfb h.config h.memory
    obtain rfl : u = t := by rw [hu] at hexec; injection hexec
    rw [exec_framebufferOp hfb hexec]
    exact h.congr rfl hwf rfl rfl rfl rfl rfl rfl

/-- A request taken off the port leaves the invariant as it is. -/
theorem State.Inv.take {s : State} (h : s.Inv) (rest : List Request) : (s.take rest).Inv :=
  h.congr rfl h.memory rfl rfl rfl rfl rfl rfl

/-- Settles O49: an idle step executes a host operation, whose start meets the invariant and whose lines keep it; a step of a
running operation performs a line. -/
theorem everyStepKeepsTheInvariant : Obligations.EveryStepKeepsTheInvariant := by
  intro s t h hstep
  rcases step_cases hstep with ⟨-, -, rfl⟩ | ⟨r, rest, i, hidle, -, -, hi, hexec⟩ | ⟨r, rest, -, -, rfl⟩ | ⟨-, rfl⟩
  · exact h
  · exact (h.take rest).exec hidle hi hexec
  · exact h.take rest
  · exact h.nextTask

/-- Settles O48: at power-on nothing is written, nothing is left to do, and the trace is empty. -/
theorem invariantHoldsAtPowerOn : Obligations.InvariantHoldsAtPowerOn where
  config := defaultConfig_valid
  memory := rfl
  flags := by simp [State.reset]
  reads := by simp [State.reset, Seq.todo]
  saved := fun _ => ⟨rfl, by simp [State.reset, Seq.todo]⟩
  restore := rfl
  frames := rfl
  framing := ⟨.closed, rfl, rfl⟩

/-- An operation of the ControllerDriver always answers a next state (R134, R136). -/
theorem exec_controllerOp_next {i : Instr} (hi : isControllerOp i = true) (s : State) : ∃ t, exec i s = .next t := by
  cases i
  case fbDrawPixel fb x y color => cases hi
  all_goals exact ⟨_, rfl⟩

/-- Settles O50: a request that decodes is a host operation and answers a next state, the FrameBuffer operations because no
address outside the framebuffer is formed; the frame at the sequencer is one of the fifteen commands. -/
theorem safeStateAlwaysSteps : Obligations.SafeStateAlwaysSteps := by
  intro s h
  match hs : s.seq with
  | .run op k todo =>
    refine ⟨_, step_of_decodes (by simp [hs]) fun x rest hx => ?_⟩
    have hframes := h.frames
    simp only [hx, List.all_cons, Bool.and_eq_true] at hframes
    exact hframes.1
  | .idle =>
    unfold step
    rw [hs]
    match s.requests with
    | [] => exact ⟨s, rfl⟩
    | r :: rest =>
      cases hd : decodeRequest r with
      | error e => exact ⟨_, by simp only [hd]; rfl⟩
      | ok i =>
        simp only [hd]
        rcases instr_classes i with hcmd | hctl | hfb
        · rw [decodeRequest_not_command hd] at hcmd; cases hcmd
        · exact exec_controllerOp_next hctl _
        · obtain ⟨t, ht, -⟩ := exec_framebufferOp_wf (s := s.take rest) hfb h.config h.memory
          exact ⟨t, ht⟩

end Sys2Proof.Machine
end

