-- ==== Sys2Proof/Proofs/InitDue.lean ====
section
/-! PROOFS. INIT on its way: where `initialized <- true` is still to come, the lines before it complete the thirteen frames
of INIT of which the trace ends with those already sent (R110, R112). -/

namespace Sys2Proof.Machine

/-! ### The events of INIT's frames -/

/-- A frame without waiting has no busy answer (R86, R87). -/
theorem busy_notMem_frameTrace (bytes : List Byte) : Event.busy true ∉ frameTrace bytes := by
  cases bytes with
  | nil => simp [frameTrace, frameTraceAfter]
  | cons op payload => rw [frameTrace_cons]; split <;> simp

theorem busy_notMem_framesTrace (fs : List (List Byte)) : Event.busy true ∉ framesTrace fs := by
  simp [framesTrace, busy_notMem_frameTrace]

/-- The events of a row of frames still to be sent. -/
theorem flatMap_events_frames (c : Config) (m : Bool) (fs : List (List Byte)) :
    (fs.map Task.frame).flatMap (Task.events c m) = framesTrace fs := by
  simp [List.flatMap_map, framesTrace, Task.events]

/-- The lines of INIT before its last (R110, R112). -/
def initLines (c : Config) : List Task :=
  (initConfigFrames c).map .frame ++ .lutFrame :: powerFrames.map .frame

theorem initTasks_eq (c : Config) : initTasks c = initLines c ++ [.markInitialized] := by
  simp [initTasks, initLines]

theorem initLines_isInitLine (c : Config) : (initLines c).all Task.isInitLine = true := rfl

/-- The lines of INIT make the events of its thirteen frames (R110, R113). -/
theorem initLines_events (c : Config) (m : Bool) :
    (initLines c).flatMap (Task.events c m) = framesTrace (initFrames c m) := by
  rw [initLines, List.flatMap_append, List.flatMap_cons, flatMap_events_frames, flatMap_events_frames, initFrames_eq,
    framesTrace_append, framesTrace_append]
  simp [Task.events, framesTrace]

/-! ### What is due -/

/-- Where `initialized <- true` is among the lines `todo`, it comes once, and the lines before it complete the frames of an
INIT in mode `m`, of which the trace `tr`, since `old`, ends with those already sent. Only the events that `keep` holds
of are looked at. -/
def InitDue (keep : Event → Bool) (old tr : List Event) (c : Config) (m : Bool) (todo : List Task) : Prop :=
  .markInitialized ∈ todo →
    ∃ lines rest pre es, todo = lines ++ .markInitialized :: rest ∧ .markInitialized ∉ rest
      ∧ lines.all Task.isInitLine = true ∧ tr = old ++ pre ++ es
      ∧ (es ++ lines.flatMap (Task.events c m)).filter keep = framesTrace (initFrames c m)

section
variable {keep : Event → Bool} {old tr : List Event} {c : Config} {m : Bool} {x : Task} {todo : List Task}

theorem InitDue.of_notMem (h : .markInitialized ∉ todo) : InitDue keep old tr c m todo := fun hm => absurd hm h

/-- Where `initialized <- true` is the next line, the trace ends with a whole INIT (R112). -/
theorem InitDue.complete (h : InitDue keep old tr c m (.markInitialized :: todo)) :
    .markInitialized ∉ todo ∧ ∃ pre es, tr = old ++ pre ++ es ∧ es.filter keep = framesTrace (initFrames c m) := by
  obtain ⟨lines, rest, pre, es, htodo, hrest, hlines, htr, hes⟩ := h (by simp)
  cases lines with
  | nil =>
    obtain rfl : todo = rest := by simpa using htodo
    exact ⟨hrest, pre, es, htr, by simpa using hes⟩
  | cons y lines =>
    obtain rfl : Task.markInitialized = y := by simpa using congrArg List.head? htodo
    simp [Task.isInitLine, Task.isMicros] at hlines

/-- Before a line that is none of INIT's nothing is due. -/
theorem InitDue.notMem (h : InitDue keep old tr c m (x :: todo)) (hx : x.isInitLine = false)
    (hne : x ≠ .markInitialized) : .markInitialized ∉ todo := by
  intro hmem
  obtain ⟨lines, rest, pre, es, htodo, hrest, hlines, htr, hes⟩ := h (by simp [hmem])
  cases lines with
  | nil => exact hne (by simpa using congrArg List.head? htodo)
  | cons y lines =>
    obtain rfl : x = y := by simpa using congrArg List.head? htodo
    simp [hx] at hlines

/-- A line of INIT performed in part, or replaced: what it has added to the trace and what the lines `us` in its place will
add are, as far as `keep` looks, its events. -/
theorem InitDue.advance (h : InitDue keep old tr c m (x :: todo)) (hx : x ≠ .markInitialized) {us : List Task}
    {added : List Event} (hus : us.all Task.isInitLine = true)
    (hadded : (added ++ us.flatMap (Task.events c m)).filter keep = (x.events c m).filter keep) :
    InitDue keep old (tr ++ added) c m (us ++ todo) := by
  intro hmem
  have hnot : .markInitialized ∉ us := fun hmem => by
    have := List.all_eq_true.mp hus _ hmem
    simp [Task.isInitLine, Task.isMicros] at this
  have hmem' : .markInitialized ∈ todo := (List.mem_append.mp hmem).resolve_left hnot
  obtain ⟨lines, rest, pre, es, htodo, hrest, hlines, htr, hes⟩ := h (by simp [hmem'])
  cases lines with
  | nil => exact absurd (by simpa using congrArg List.head? htodo) hx
  | cons y lines =>
    obtain ⟨rfl, rfl⟩ : x = y ∧ todo = lines ++ .markInitialized :: rest := by simpa using htodo
    simp only [List.all_cons, Bool.and_eq_true] at hlines
    refine ⟨us ++ lines, rest, pre, es ++ added, by simp, hrest, by simp only [List.all_append, hus, hlines.2, Bool.and_self],
      by simp [htr], ?_⟩
    simp only [List.flatMap_cons, List.flatMap_append, List.filter_append] at hes hadded ⊢
    rw [← hes, ← hadded]
    simp

/-- The lines of INIT, none of them performed yet (R110). -/
theorem InitDue.init (hkeep : ∀ e, e ≠ .busy true → keep e = true) (h : .markInitialized ∉ todo) :
    InitDue keep old (old ++ tr) c m (initTasks c ++ todo) := by
  refine fun _ => ⟨initLines c, todo, tr, [], by simp [initTasks_eq], h, initLines_isInitLine c, by simp, ?_⟩
  rw [List.nil_append, initLines_events]
  exact List.filter_eq_self.mpr fun e he => hkeep e fun heq => busy_notMem_framesTrace _ (heq ▸ he)

end

/-! ### What is due after a line -/

/-- Only INIT's last line makes `initialized` true, and a line that leaves it true keeps the mode (R112, R124, R125). -/
theorem writes_initialized {x : Task} {s : State} (h : (x.writes s).initialized = .holds true) :
    x = .markInitialized ∨ (s.initialized = .holds true ∧ (x.writes s).partialMode = s.partialMode) := by
  have hpartial (u : State) (hu : u.toPartial.initialized = .holds true) :
      u.initialized = .holds true ∧ u.toPartial.partialMode = u.partialMode := by
    unfold State.toPartial at hu ⊢
    split at hu
    · rename_i hread; exact ⟨hu, by rw [if_pos hread]⟩
    · cases hu
  cases x
  case markInitialized => exact .inl rfl
  case markUninitialized => cases h
  case construct => cases h
  case resetFlag =>
    simp only [Task.writes, State.resetFlag_initialized] at h
    split at h
    · cases h
    · exact .inr ⟨h, rfl⟩
  case setPartial => exact .inr (hpartial s h)
  case setFull =>
    simp only [Task.writes, State.toFull] at h ⊢
    split at h
    · cases h
    · exact .inr ⟨h, by rename_i hread; simp [hread]⟩
  case restoreMode =>
    simp only [Task.writes, State.restoreMode] at h ⊢
    split at h
    · rename_i hread; rw [if_pos hread]; exact .inr (hpartial s h)
    · rename_i hread; rw [if_neg hread]; exact .inr ⟨h, rfl⟩
  all_goals exact .inr ⟨h, rfl⟩

theorem isPartial_congr {s t : State} (h : t.partialMode = s.partialMode) : t.isPartial = s.isPartial := by
  rw [State.isPartial, State.isPartial, h]

/-- The lines that a line outside INIT is replaced by. -/
theorem markInitialized_notMem_expand {x : Task} (h : x ≠ .init) (s : State) : .markInitialized ∉ x.expand s := by
  cases x
  case init => exact absurd rfl h
  case ensureInit => by_cases hi : s.isInitialized <;> simp [Task.expand, hi]
  all_goals simp [Task.expand]

/-- What is due when a line that is none of micro-operations has been performed. -/
theorem InitDue.line {keep : Event → Bool} {old tr : List Event} (hkeep : ∀ e, e ≠ .busy true → keep e = true)
    {x : Task} {todo : List Task} {s : State} (htr : s.trace = old ++ tr)
    (h : InitDue keep old s.trace s.cfg s.isPartial (x :: todo)) (hx : x.isMicros = false) :
    InitDue keep old s.trace s.cfg (x.writes s).isPartial (x.expand s ++ todo) := by
  by_cases hmark : x = .markInitialized
  · subst hmark
    exact .of_notMem h.complete.1
  by_cases hlut : x = .lutFrame
  · subst hlut
    have hadv := h.advance (us := [.frame (lutFrameBytes s.cfg s.isPartial)]) (added := []) (by simp) rfl
      (by simp [Task.events])
    rwa [List.append_nil] at hadv
  have hnot : .markInitialized ∉ todo := h.notMem (by simp [Task.isInitLine, hx, hlut]) hmark
  by_cases hinit : x = .init
  · subst hinit
    rw [htr]
    exact .init hkeep hnot
  · exact .of_notMem (by simp [hnot, markInitialized_notMem_expand hinit])

end Sys2Proof.Machine
end

