-- ==== Sys2Proof/Proofs/InitializedPromise.lean ====
section
/-! PROOFS. What `initialized` promises: a whole INIT in the present mode stands in the trace, and its table was sent last
(R17, R18, R112, R113). -/

namespace Sys2Proof.Machine

/-! ### Lines that send no table of their own -/

theorem linesOf_sendsNoTable (i : Instr) (s : State) : (linesOf i s).all Task.sendsNoTable = true := by
  cases i
  case setDisplay fb =>
    cases h : s.bufs[fb]? <;> simp [linesOf, h, setDisplayTasks, Task.sendsNoTable, frameBytes, encode]
  all_goals rfl

/-- The lines that a line is replaced by send no table of their own, but for frame 11, which has the table of the mode. -/
theorem expand_sendsNoTable {x : Task} (h : x ≠ .lutFrame) (s : State) :
    (x.expand s).all Task.sendsNoTable = true := by
  cases x
  case lutFrame => exact absurd rfl h
  case ensureInit => by_cases hi : s.isInitialized <;> simp [Task.expand, hi, Task.sendsNoTable]
  all_goals rfl

theorem markInitialized_notMem_linesOf (i : Instr) (s : State) : .markInitialized ∉ linesOf i s := by
  cases i
  case setDisplay fb => cases hb : s.bufs[fb]? <;> simp [linesOf, hb, setDisplayTasks]
  all_goals simp [linesOf, newTasks, resetTasks, clearTasks, updateTasks, powerOffTasks]

/-! ### The promise -/

/-- `initialized` is kept as a promise about the trace: a whole INIT in the present mode, its table sent last (R17, R18). -/
structure State.InitHeld (s : State) : Prop where
  done : s.initialized = .holds true → ∃ pre es post, s.trace = pre ++ es ++ post ∧ isInit s.cfg s.isPartial es
  table : s.initialized = .holds true → lastTable s.trace = some (lutOf s.cfg s.isPartial)

theorem State.InitInv.held {s : State} (h : s.InitInv) : s.InitHeld := ⟨h.done, h.table⟩

/-- The promise is about the flags, the parameters and the trace alone; more events keep it if they leave the table. -/
theorem State.InitHeld.congr {s t : State} (h : s.InitHeld) (hcfg : t.cfg = s.cfg) {es : List Event}
    (htrace : t.trace = s.trace ++ es)
    (hflags : t.initialized = .holds true → s.initialized = .holds true ∧ t.partialMode = s.partialMode)
    (htable : s.initialized = .holds true → lastTable (s.trace ++ es) = some (lutOf s.cfg s.isPartial)) : t.InitHeld where
  done := fun hi => by
    obtain ⟨hi, hmode⟩ := hflags hi
    obtain ⟨pre, es', post, htr, hinit⟩ := h.done hi
    exact ⟨pre, es', post ++ es, by simp [htrace, htr], by rwa [hcfg, isPartial_congr hmode]⟩
  table := fun hi => by
    obtain ⟨hi, hmode⟩ := hflags hi
    rw [htrace, hcfg, isPartial_congr hmode]
    exact htable hi

/-- What `InitInv` says of INIT on its way. -/
abbrev State.InitPending (s : State) : Prop :=
  InitDue (· ≠ .busy true) [] s.trace s.cfg s.isPartial s.seq.todo

theorem State.InitInv.initPending {s : State} (h : s.InitInv) : s.InitPending := by
  intro hmem
  obtain ⟨lines, rest, pre, es, htodo, hrest, hlines, htr, hinit⟩ := h.pending hmem
  exact ⟨lines, rest, pre, es, htodo, hrest, hlines, htr, hinit⟩

/-- The invariant from its parts: the promise, INIT on its way, and lines of which only the first may send a table, which is
then that of the mode however far it gets. -/
theorem State.InitInv.of_held {s : State} (h : s.InitHeld) (hpending : s.InitPending)
    (hnext : s.initialized = .holds true → ∀ x rest, s.seq.todo = x :: rest → ∀ n,
      lastTable (s.trace ++ (x.events s.cfg s.isPartial).take n) = some (lutOf s.cfg s.isPartial))
    (hlater : s.seq.todo.tail.all Task.sendsNoTable = true) : s.InitInv where
  done := h.done
  table := h.table
  next := hnext
  pending := hpending
  later := hlater

/-- The invariant where no line left to do sends a table of its own. -/
theorem State.InitInv.of_sendsNoTable {s : State} (h : s.InitHeld) (hpending : s.InitPending)
    (htodo : s.seq.todo.all Task.sendsNoTable = true) : s.InitInv := by
  refine .of_held h hpending (fun hi x rest hx n => ?_) ?_
  · rw [hx, List.all_cons, Bool.and_eq_true] at htodo
    exact lastTable_sendsNoTable s.trace s.cfg s.isPartial x n htodo.1 (h.table hi)
  · rw [List.all_eq_true] at htodo ⊢
    exact fun x hx => htodo x (List.mem_of_mem_tail hx)

/-- The invariant of an idle block is the promise alone. -/
theorem State.InitInv.of_idle {s : State} (h : s.InitHeld) (hidle : s.seq = .idle) : s.InitInv :=
  .of_sendsNoTable h (.of_notMem (by simp [hidle, Seq.todo])) (by simp [hidle, Seq.todo])

/-! ### Along an operation -/

/-- A failed byte and a busy answer are in no frame (R11, R93). -/
theorem lastTable_snoc {es : List Event} {e : Event} (h : (∃ b x, e = .txFailed b x) ∨ e = .busy true) :
    lastTable (es ++ [e]) = lastTable es := by
  have hskip := lastTable_skip es [] e
  rw [List.append_nil] at hskip
  rcases h with ⟨b, x, rfl⟩ | rfl
  · exact hskip (by simp) (by simp)
  · exact hskip (by simp) (by simp)

theorem ne_markInitialized_of_isMicros {x : Task} (h : x.isMicros = true) : x ≠ .markInitialized := by
  rintro rfl; cases h

/-- Micro-operations keep the promise: performed whole, broken off at a failure, or left at a wait. -/
theorem State.InitInv.nextTask_micros {s : State} {op : Instr} {k : Nat} {x : Task} {todo : List Task} (h : s.InitInv)
    (hs : s.seq = .run op k (x :: todo)) (hx : x.isMicros = true) : (nextTask s).state.InitInv := by
  obtain ⟨hcfg, hp, hi, -, -, -⟩ := nextTask_sameFlags hs hx
  have hcases := runMicros_cases x.toMicros (s.popTo op k todo) op k todo rfl
  have htodo : s.seq.todo = x :: todo := by rw [hs]; rfl
  have hpending := h.initPending
  have hlater := h.later
  have hnext := fun (hini : s.initialized = .holds true) => h.next hini x todo htodo
  rw [State.InitPending, htodo] at hpending
  rw [htodo, List.tail_cons] at hlater
  rw [nextTask_of_micros hs hx] at hcfg hp hi ⊢
  rw [← events_of_isMicros hx s.cfg s.isPartial] at hcases
  generalize (runMicros x.toMicros (s.popTo op k todo)).state = t at *
  have hmode : t.isPartial = s.isPartial := isPartial_congr hp
  have hheld (es : List Event) (htr : t.trace = s.trace ++ es)
      (htable : s.initialized = .holds true → lastTable (s.trace ++ es) = some (lutOf s.cfg s.isPartial)) : t.InitHeld :=
    h.held.congr hcfg htr (fun hini => ⟨hi ▸ hini, hp⟩) htable
  rcases hcases with ⟨htr, k', hseq⟩ | ⟨n, e, htr, he, hseq⟩ | ⟨n, k', p, ms, htr, hrest, hseq⟩
  · -- performed whole
    have hall (hini : s.initialized = .holds true) :
        lastTable (s.trace ++ x.events s.cfg s.isPartial) = some (lutOf s.cfg s.isPartial) := by
      simpa using hnext hini (x.events s.cfg s.isPartial).length
    refine .of_sendsNoTable (hheld _ htr hall) ?_ (by rw [hseq]; exact hlater)
    have hadv := hpending.advance (ne_markInitialized_of_isMicros hx) (us := []) rfl
      (added := x.events s.cfg s.isPartial) (by simp)
    rw [State.InitPending, htr, hcfg, hmode, hseq]
    exact hadv
  · -- broken off
    rw [List.append_assoc] at htr
    refine .of_idle (hheld _ htr fun hini => ?_) hseq
    rw [← List.append_assoc, lastTable_snoc he]
    exact hnext hini n
  · -- left at a wait
    have hevents : Task.events s.cfg s.isPartial (.micros (.poll p :: ms)) = (x.events s.cfg s.isPartial).drop n := by
      rw [← hrest]; rfl
    have hbroken (hini : s.initialized = .holds true) (j : Nat) :
        lastTable (t.trace ++ ((x.events s.cfg s.isPartial).drop n).take j) = some (lutOf s.cfg s.isPartial) := by
      rw [htr, List.append_assoc _ [Event.busy true], List.singleton_append, lastTable_skip _ _ _ (by simp) (by simp)]
      rw [List.append_assoc, ← List.take_add]
      exact hnext hini (n + j)
    refine .of_held (hheld _ (htr.trans (List.append_assoc ..)) fun hini => ?_) ?_ (fun hini y rest hy j => ?_)
      (by rw [hseq]; exact hlater)
    · simpa [htr] using hbroken hini 0
    · have hadv := hpending.advance (ne_markInitialized_of_isMicros hx) (us := [.micros (.poll p :: ms)]) rfl
        (added := (x.events s.cfg s.isPartial).take n ++ [.busy true]) (by
          rw [List.flatMap_singleton, hevents, List.filter_append, List.filter_append, List.append_assoc]
          simp [← List.filter_append])
      rw [State.InitPending, htr, hcfg, hmode, hseq, State.popTo_trace, List.append_assoc]
      exact hadv
    · obtain rfl : Task.micros (.poll p :: ms) = y := by
        rw [hseq] at hy
        simpa [Seq.todo] using congrArg List.head? hy
      rw [hcfg, hmode]
      exact hevents ▸ hbroken (hi ▸ hini) j

/-- Every other line keeps the promise: INIT's last makes it, with the INIT that the trace ends with (R112). -/
theorem State.InitInv.nextTask_line {s : State} {op : Instr} {k : Nat} {x : Task} {todo : List Task} (h : s.InitInv)
    (hs : s.seq = .run op k (x :: todo)) (hx : x.isMicros = false) : (nextTask s).state.InitInv := by
  have htodo : s.seq.todo = x :: todo := by rw [hs]; rfl
  have hpending := h.initPending
  have hlater := h.later
  rw [State.InitPending, htodo] at hpending
  rw [htodo, List.tail_cons] at hlater
  rw [nextTask_of_line hs hx]
  show ((x.writes s).popTo op k (x.expand s ++ todo)).InitInv
  have hdue := InitDue.line (keep := (· ≠ .busy true)) (by simp) (List.nil_append _).symm hpending hx
  have hheld : (x.writes s).InitHeld := by
    by_cases hmark : x = .markInitialized
    · subst hmark
      obtain ⟨-, pre, es, htr, hinit⟩ := hpending.complete
      refine ⟨fun _ => ⟨pre, es, [], by simpa using htr, hinit⟩, fun _ => ?_⟩
      rw [List.nil_append] at htr
      show lastTable s.trace = some (lutOf s.cfg s.isPartial)
      rw [htr]
      exact lastTable_isInit pre es s.cfg s.isPartial hinit
    · refine h.held.congr (writes_cfg x s) (es := []) (by simp) (fun hini => ?_) (by simpa using h.table)
      exact (writes_initialized hini).resolve_left hmark
  have hdue' : ((x.writes s).popTo op k (x.expand s ++ todo)).InitPending := by
    rw [State.InitPending, State.popTo_trace, State.popTo_cfg, writes_trace, writes_cfg]
    exact hdue
  by_cases hlut : x = .lutFrame
  · subst hlut
    refine .of_held ⟨hheld.done, hheld.table⟩ hdue' (fun hini y rest hy n => ?_) hlater
    obtain rfl : Task.frame (lutFrameBytes s.cfg s.isPartial) = y := by
      simpa [Task.expand, Seq.todo] using congrArg List.head? hy
    exact h.next hini .lutFrame todo htodo n
  · refine .of_sendsNoTable ⟨hheld.done, hheld.table⟩ hdue' ?_
    simp only [State.popTo_seq, Seq.todo, List.all_append, expand_sendsNoTable hlut, hlater, Bool.and_self]

/-- The next line keeps what `initialized` promises. -/
theorem State.InitInv.nextTask {s : State} (h : s.InitInv) : (nextTask s).state.InitInv := by
  match hs : s.seq with
  | .idle => rw [nextTask_of_idle hs]; exact h
  | .run op k [] => rw [nextTask_of_end hs]; exact .of_idle ⟨h.done, h.table⟩ rfl
  | .run op k (x :: todo) =>
    by_cases hx : x.isMicros = true
    · exact h.nextTask_micros hs hx
    · exact h.nextTask_line hs (by simpa using hx)

/-- A host operation keeps what `initialized` promises. -/
theorem State.InitInv.exec {s t : State} (h : s.InitInv) (hidle : s.seq = .idle) {i : Instr} (hi : isCommand i = false)
    (hexec : exec i s = .next t) : t.InitInv := by
  rcases instr_classes i with hcmd | hctl | hfb
  · rw [hi] at hcmd; cases hcmd
  · rcases exec_controllerOp hctl hexec with rfl | ⟨-, -, rfl⟩
    · exact h
    · refine drive_induction (fun _ => State.InitInv.nextTask) _ _ ?_
      exact .of_sendsNoTable ⟨h.done, h.table⟩ (.of_notMem (markInitialized_notMem_linesOf i s))
        (linesOf_sendsNoTable i s)
  · rw [exec_framebufferOp hfb hexec]
    exact .of_idle ⟨h.done, h.table⟩ hidle

/-- Settles O53: an idle step starts an operation, which has no line that marks the block initialised and none that sends a
table of its own; a step of a running operation performs a line. -/
theorem everyStepKeepsWhatInitializedPromises : Obligations.EveryStepKeepsWhatInitializedPromises := by
  intro s t h hstep
  have htake (hidle : s.seq = .idle) (rest : List Request) : (s.take rest).InitInv :=
    .of_idle ⟨h.done, h.table⟩ hidle
  rcases step_cases hstep with ⟨-, -, rfl⟩ | ⟨r, rest, i, hidle, -, -, hi, hexec⟩ | ⟨r, rest, hidle, -, rfl⟩ | ⟨-, rfl⟩
  · exact h
  · exact (htake hidle rest).exec hidle hi hexec
  · exact htake hidle rest
  · exact h.nextTask

/-- Settles O52: at power-on `initialized` is not true and nothing is left to do. -/
theorem initializedPromisesNothingAtPowerOn : Obligations.InitializedPromisesNothingAtPowerOn :=
  .of_idle ⟨fun h => (nomatch h), fun h => (nomatch h)⟩ rfl

end Sys2Proof.Machine
end

