-- ==== Sys2Proof/Proofs/InitializedByInit.lean ====
section
/-! PROOFS. One `exec` makes `initialized` true by a whole INIT only, without a busy answer in it (R17, R18, R112). -/

namespace Sys2Proof.Machine

/-- A property of the running operation that each task which goes on keeps, and what it leaves where a task waits or the
operation is left. -/
theorem drive_induction_on {P Q : State → Prop} (hon : ∀ s t, P s → nextTask s = .on t → P t)
    (hwaiting : ∀ s t, P s → nextTask s = .waiting t → Q t) (hend : ∀ s, P s → Q s) (n : Nat) (s : State) (h : P s) :
    Q (drive n s) := by
  induction n generalizing s with
  | zero => exact hend s h
  | succ n ih =>
    unfold drive
    split
    · rename_i hs; exact ih _ (hon _ _ h hs)
    · rename_i hs; exact hwaiting _ _ h hs

/-- Micro-operations that go on are performed whole, or have ended the operation (R85, R88). -/
theorem runMicros_on {ms : List Micro} {s t : State} {op : Instr} {k : Nat} {todo : List Task}
    (hs : s.seq = .run op k todo) (h : runMicros ms s = .on t) :
    (t.trace = s.trace ++ ms.map Micro.event ∧ ∃ k', t.seq = .run op k' todo) ∨ t.seq = .idle := by
  have hposition : (∃ k', t.seq = .run op k' todo) ∨ t.seq = .idle := by
    induction ms generalizing s k with
    | nil => cases h; exact .inl ⟨k, hs⟩
    | cons m ms ih =>
      cases m with
      | cs l => exact ih (s := s.pinCs l) (k := k + 1) (by simp [hs]) h
      | dc l => exact ih (s := s.pinDc l) (k := k + 1) (by simp [hs]) h
      | rst l => exact ih (s := s.pinRst l) (k := k + 1) (by simp [hs]) h
      | delay n => exact ih (s := s.delayMs n) (k := k + 1) (by simp [hs]) h
      | poll n =>
        simp only [runMicros] at h
        split at h
        · split at h
          · cases h; exact .inr rfl
          · cases h
        · exact ih (s := (s.afterPoll false).tick) (k := k + 1) (by simp [hs]) h
      | tx b =>
        simp only [runMicros] at h
        split at h
        · exact ih (s := s.afterTx b none) (k := k + 1) (by simp [hs]) h
        · cases h; exact .inr rfl
  have hcases := runMicros_cases ms s op k todo hs
  rw [h] at hcases
  rcases hcases with hwhole | ⟨n, e, -, -, hidle⟩ | ⟨n, k', p, ms', -, -, hwaits⟩
  · exact .inl hwhole
  · exact .inr hidle
  · rcases hposition with ⟨k'', hseq⟩ | hidle
    · rw [show t.seq = _ from hwaits] at hseq
      simp at hseq
    · exact .inr hidle

/-- `initialized` is true at `t` only if it was at `s`, in the same mode, or a whole INIT in the mode of `t` came between. -/
def InitSince (s t : State) : Prop :=
  t.initialized = .holds true →
    (s.initialized = .holds true ∧ t.partialMode = s.partialMode)
    ∨ ∃ pre post, t.trace = s.trace ++ pre ++ framesTrace (initFrames s.cfg t.isPartial) ++ post

theorem InitSince.of_kept {s t : State} (h : t.initialized = .holds true →
    s.initialized = .holds true ∧ t.partialMode = s.partialMode) : InitSince s t := fun hi => .inl (h hi)

/-- What does not make `initialized` true and keeps the mode where it is true, keeps where it came from. -/
theorem InitSince.later {s t u : State} (h : InitSince s t) {es : List Event} (htrace : u.trace = t.trace ++ es)
    (hflags : u.initialized = .holds true → t.initialized = .holds true ∧ u.partialMode = t.partialMode) :
    InitSince s u := by
  intro hi
  obtain ⟨hi, hmode⟩ := hflags hi
  rcases h hi with ⟨hs, hs'⟩ | ⟨pre, post, htr⟩
  · exact .inl ⟨hs, hmode.trans hs'⟩
  · exact .inr ⟨pre, post ++ es, by rw [isPartial_congr hmode, htrace, htr, List.append_assoc _ post]⟩

/-- Along an operation that goes on since `s`: the events since then, INIT on its way among them, none left out. -/
structure InitRun (s t : State) : Prop where
  cfg : t.cfg = s.cfg
  grown : ∃ tr, t.trace = s.trace ++ tr
  due : InitDue (fun _ => true) s.trace t.trace t.cfg t.isPartial t.seq.todo
  since : InitSince s t

/-- A line that goes on keeps the account of INIT. -/
theorem InitRun.on {s t u : State} (h : InitRun s t) (hu : nextTask t = .on u) : InitRun s u := by
  have hu' : (nextTask t).state = u := by rw [hu]; rfl
  have hcfg : u.cfg = s.cfg := by rw [← hu']; exact (SameHost.kept.nextTask t).cfg.trans h.cfg
  obtain ⟨es, hes, -⟩ : Follows t u := hu' ▸ Follows.kept.nextTask t
  obtain ⟨tr, htr⟩ := h.grown
  have hgrown : ∃ tr, u.trace = s.trace ++ tr := ⟨tr ++ es, by rw [hes, htr, List.append_assoc]⟩
  match hs : t.seq with
  | .idle =>
    rw [nextTask_of_idle hs] at hu
    cases hu
    exact h
  | .run op k [] =>
    rw [nextTask_of_end hs] at hu
    cases hu
    exact ⟨hcfg, hgrown, .of_notMem (by simp [Seq.todo]), h.since⟩
  | .run op k (x :: todo) =>
    have hdue := h.due
    rw [hs, Seq.todo] at hdue
    by_cases hx : x.isMicros = true
    · obtain ⟨hcfg', hmode, hinit, -, -, -⟩ : SameFlags t u := hu' ▸ nextTask_sameFlags hs hx
      refine ⟨hcfg, hgrown, ?_, h.since.later hes fun hi => ⟨hinit ▸ hi, hmode⟩⟩
      rw [nextTask_of_micros hs hx] at hu
      rw [hcfg', isPartial_congr hmode]
      rcases runMicros_on rfl hu with ⟨htrace, k', hseq⟩ | hidle
      · rw [htrace, hseq, ← events_of_isMicros hx t.cfg t.isPartial]
        exact hdue.advance (ne_markInitialized_of_isMicros hx) (us := []) rfl (by simp)
      · exact .of_notMem (by simp [hidle, Seq.todo])
    · rw [Bool.not_eq_true] at hx
      rw [nextTask_of_line hs hx] at hu
      cases hu
      refine ⟨hcfg, hgrown, ?_, ?_⟩
      · have hline := hdue.line (by simp) htr hx
        rw [State.popTo_trace, State.popTo_cfg, writes_trace, writes_cfg]
        exact hline
      · by_cases hmark : x = .markInitialized
        · subst hmark
          obtain ⟨-, pre, es, htrace, hframes⟩ := hdue.complete
          rw [List.filter_true, h.cfg] at hframes
          rw [hframes] at htrace
          exact fun _ => .inr ⟨pre, [], by rw [List.append_nil]; exact htrace⟩
        · exact h.since.later (es := []) (by simp) fun hi => (writes_initialized hi).resolve_left hmark

/-- A line that waits keeps where `initialized` came from. -/
theorem InitRun.waiting {s t u : State} (h : InitRun s t) (hu : nextTask t = .waiting u) : InitSince s u := by
  have hu' : (nextTask t).state = u := by rw [hu]; rfl
  match hs : t.seq with
  | .idle => rw [nextTask_of_idle hs] at hu; cases hu
  | .run op k [] => rw [nextTask_of_end hs] at hu; cases hu
  | .run op k (x :: todo) =>
    by_cases hx : x.isMicros = true
    · obtain ⟨-, hmode, hinit, -, -, -⟩ : SameFlags t u := hu' ▸ nextTask_sameFlags hs hx
      obtain ⟨es, hes, -⟩ : Follows t u := hu' ▸ Follows.kept.nextTask t
      exact h.since.later hes fun hi => ⟨hinit ▸ hi, hmode⟩
    · rw [nextTask_of_line hs (by simpa using hx)] at hu
      cases hu

/-- Settles O45: a command and a FrameBuffer operation write no flag; an operation of the ControllerDriver makes `initialized`
true at the end of an INIT, whose thirteen frames then stand in the trace one after another. -/
theorem initializedOnlyByInit : Obligations.InitializedOnlyByInit := by
  intro i s t hexec
  show InitSince s t
  rcases instr_classes i with hcmd | hctl | hfb
  · have hsame := SameFlags.kept.exec_command hcmd hexec
    exact InitSince.of_kept fun hi => ⟨hsame.initialized ▸ hi, hsame.partialMode⟩
  · rcases exec_controllerOp hctl hexec with rfl | ⟨-, -, rfl⟩
    · exact InitSince.of_kept fun hi => ⟨hi, rfl⟩
    · refine drive_induction_on (P := InitRun s) (fun _ _ => InitRun.on) (fun _ _ => InitRun.waiting)
        (fun _ => InitRun.since) _ _ ⟨rfl, ⟨[], by simp⟩, ?_, .of_kept fun hi => ⟨hi, rfl⟩⟩
      exact .of_notMem (markInitialized_notMem_linesOf i s)
  · rw [exec_framebufferOp hfb hexec]
    exact InitSince.of_kept fun hi => ⟨hi, rfl⟩

end Sys2Proof.Machine
end

