-- ==== Sys2Proof/Proofs/Noninterference.lean ====
section
/-! PROOFS. What commands, FrameBuffer operations and ControllerDriver operations leave alone, and which of them drive the
reset line (R15, R28, R30, R80, R81, R91, R147, R156). -/

namespace Sys2Proof.Machine

/-! ### The trace and the latches -/

/-- What `exec` does with a host operation follows its trace (R20, R81). -/
theorem Follows.exec {i : Instr} {s t : State} (hi : isCommand i = false) (h : exec i s = .next t) : Follows s t := by
  rcases instr_classes i with hcmd | hctl | hfb
  · rw [hi] at hcmd; cases hcmd
  · rcases exec_controllerOp hctl h with rfl | ⟨-, -, rfl⟩
    · exact Follows.kept.refl t
    · have hstart : Follows s (s.start i (linesOf i s)) := .same rfl rfl rfl rfl
      exact hstart.trans (Follows.kept.drive _ _)
  · rw [exec_framebufferOp hfb h]
    exact .same rfl rfl rfl rfl

/-- Settles O46: an idle step changes nothing but the port before it executes the request, and a step of a running operation
performs a line; each follows its trace. -/
theorem latchesHoldTheLevelLastDriven : Obligations.LatchesHoldTheLevelLastDriven := by
  intro s t h
  have htake (rest : List Request) : Follows s (s.take rest) := .same rfl rfl rfl rfl
  rcases step_cases h with ⟨-, -, rfl⟩ | ⟨r, rest, i, -, -, -, hi, hexec⟩ | ⟨r, rest, -, -, rfl⟩ | ⟨-, rfl⟩
  · exact Follows.kept.refl t
  · exact (htake rest).trans (.exec hi hexec)
  · exact htake rest
  · exact Follows.kept.nextTask s

/-- Settles O42: each of the three writes the FrameBuffers and the response at most. -/
theorem framebufferOperationsLeaveTheControllerAlone : Obligations.FramebufferOperationsLeaveTheControllerAlone :=
  fun _ _ _ hi h => exec_framebufferOp hi h

/-! ### What is left to do after a line -/

/-- A line left to do after the next one was left before, or is one that a line was replaced by, or is the rest of
micro-operations that wait (R85, R132). -/
theorem mem_todo_nextTask {s : State} {y : Task} (h : y ∈ (nextTask s).state.seq.todo) :
    y ∈ s.seq.todo ∨ (∃ x ∈ s.seq.todo, y ∈ x.expand s)
    ∨ ∃ x ∈ s.seq.todo, ∃ n ms, y = .micros ms ∧ ms.map Micro.event = (x.toMicros.map Micro.event).drop n := by
  match hs : s.seq with
  | .idle => rw [nextTask_of_idle hs] at h; exact .inl (hs ▸ h)
  | .run op k [] => rw [nextTask_of_end hs] at h; cases h
  | .run op k (x :: todo) =>
    by_cases hx : x.isMicros = true
    · rw [nextTask_of_micros hs hx] at h
      have hcases := runMicros_cases x.toMicros (s.popTo op k todo) op k todo rfl
      generalize (runMicros x.toMicros (s.popTo op k todo)).state = t at *
      rcases hcases with ⟨-, k', hseq⟩ | ⟨n, e, -, -, hseq⟩ | ⟨n, k', p, ms, -, hrest, hseq⟩
      · rw [hseq] at h; exact .inl (List.mem_cons_of_mem x h)
      · rw [hseq] at h; cases h
      · rw [hseq] at h
        rcases List.mem_cons.mp h with rfl | h
        · exact .inr (.inr ⟨x, List.mem_cons_self .., n, _, rfl, hrest⟩)
        · exact .inl (List.mem_cons_of_mem x h)
    · rw [nextTask_of_line hs (by simpa using hx)] at h
      rcases List.mem_append.mp h with h | h
      · exact .inr (.inl ⟨x, List.mem_cons_self .., h⟩)
      · exact .inl (List.mem_cons_of_mem x h)

/-! ### NEW's line -/

theorem construct_notMem_expand (x : Task) (s : State) : .construct ∉ x.expand s := by
  cases x
  case init => simp [Task.expand, initTasks]
  case ensureInit => by_cases h : s.isInitialized <;> simp [Task.expand, h]
  all_goals simp [Task.expand]

/-- Only NEW has the line that constructs the block (R121). -/
theorem construct_mem_linesOf {i : Instr} {s : State} (h : .construct ∈ linesOf i s) : i = .new := by
  cases i
  case new => rfl
  case setDisplay fb => cases hb : s.bufs[fb]? <;> simp [linesOf, hb, setDisplayTasks] at h
  all_goals simp [linesOf, resetTasks, clearTasks, updateTasks, powerOffTasks] at h

/-- Without NEW's line among what is left to do, the next line leaves `constructed` as it is, and there is still none. -/
theorem nextTask_constructed {s : State} (h : .construct ∉ s.seq.todo) :
    (nextTask s).state.constructed = s.constructed ∧ .construct ∉ (nextTask s).state.seq.todo := by
  constructor
  · match hs : s.seq with
    | .idle => rw [nextTask_of_idle hs]; rfl
    | .run op k [] => rw [nextTask_of_end hs]; rfl
    | .run op k (x :: todo) =>
      by_cases hx : x.isMicros = true
      · exact (nextTask_sameFlags hs hx).constructed
      · rw [nextTask_of_line hs (by simpa using hx)]
        refine writes_constructed ?_ s
        rintro rfl
        exact h (by simp [hs, Seq.todo])
  · intro hmem
    rcases mem_todo_nextTask hmem with hmem | ⟨x, -, hmem⟩ | ⟨x, -, n, ms, heq, -⟩
    · exact h hmem
    · exact construct_notMem_expand x s hmem
    · cases heq

/-- Settles O43: commands and lines keep the FrameBuffers, the parameters and the requests; `constructed` is written by NEW's
line alone, which no other operation has and no line is replaced by. -/
theorem controllerOperationsKeepTheFramebuffers : Obligations.ControllerOperationsKeepTheFramebuffers := by
  refine ⟨fun i s t hi hexec => ?_, fun s t hs hstep => ?_, fun i s => construct_mem_linesOf⟩
  · rcases instr_classes i with hcmd | hctl | hfb
    · have hsame := SameFlags.kept.exec_command hcmd hexec
      exact ⟨hsame.bufs, hsame.cfg, hsame.requests, fun _ => hsame.constructed⟩
    · rcases exec_controllerOp hctl hexec with rfl | ⟨-, -, rfl⟩
      · exact ⟨rfl, rfl, rfl, fun _ => rfl⟩
      · have hhost := SameHost.kept.drive driveFuel (s.start i (linesOf i s))
        refine ⟨hhost.bufs, hhost.cfg, hhost.requests, fun hne => ?_⟩
        have hstart : .construct ∉ (s.start i (linesOf i s)).seq.todo := fun hmem => hne (construct_mem_linesOf hmem)
        refine (drive_induction (P := fun u => u.constructed = s.constructed ∧ .construct ∉ u.seq.todo)
          (fun u hu => ?_) driveFuel (s.start i _) ⟨rfl, hstart⟩).1
        exact (nextTask_constructed hu.2).imp_left (·.trans hu.1)
    · rw [hi] at hfb; cases hfb
  · rw [step_running hs hstep]
    have hhost := SameHost.kept.nextTask s
    exact ⟨hhost.bufs, hhost.cfg, hhost.requests, nextTask_constructed⟩

/-! ### The reset line -/

/-- Between two states the trace has only grown, by no event of the reset line. -/
def NoReset (s t : State) : Prop := ∃ es, t.trace = s.trace ++ es ∧ ∀ l, Event.rst l ∉ es

theorem NoReset.trans {s t u : State} : NoReset s t → NoReset t u → NoReset s u := by
  rintro ⟨es, hes, hno⟩ ⟨es', hes', hno'⟩
  exact ⟨es ++ es', by simp [hes', hes], by simp [hno, hno']⟩

theorem NoReset.of_trace {s t : State} (h : t.trace = s.trace) : NoReset s t := ⟨[], by simp [h], by simp⟩

theorem lastRst_of_notMem (l : Latch Level) (es : List Event) (h : ∀ v, Event.rst v ∉ es) : lastRst l es = l := by
  induction es with
  | nil => rfl
  | cons e es ih =>
    have hes := ih fun v hv => h v (List.mem_cons_of_mem e hv)
    cases e
    case rst v => exact absurd (List.mem_cons_self ..) (h v)
    all_goals exact hes

/-- A run that follows its trace, without a reset event, leaves the reset latch as it was (R81). -/
theorem NoReset.rst {s t : State} (h : NoReset s t) (hfollows : Follows s t) : t.rst = s.rst := by
  obtain ⟨es, hes, hno⟩ := h
  obtain ⟨es', hes', -, -, hrst⟩ := hfollows
  obtain rfl : es = es' := List.append_cancel_left (hes.symm.trans hes')
  rw [hrst, lastRst_of_notMem s.rst es hno]

/-- The micro-operations on the reset line are those with a reset event. -/
theorem drivesReset_iff (m : Micro) : m.drivesReset = true ↔ ∃ l, m.event = .rst l := by
  cases m <;> simp [Micro.drivesReset, Micro.event]

theorem any_drivesReset_iff (ms : List Micro) :
    ms.any Micro.drivesReset = false ↔ ∀ l, Event.rst l ∉ ms.map Micro.event := by
  simp only [List.any_eq_false, drivesReset_iff, List.mem_map, not_exists, not_and]
  exact ⟨fun h l m hm => h m hm l, fun h m hm l => h l m hm⟩

/-- Micro-operations of which none is on the reset line make no reset event, whatever the environment answers. -/
theorem runMicros_noReset {ms : List Micro} {s : State} (hs : s.seq ≠ .idle) (h : ms.any Micro.drivesReset = false) :
    NoReset s (runMicros ms s).state := by
  rw [any_drivesReset_iff] at h
  have htake (n : Nat) (l : Level) : Event.rst l ∉ (ms.map Micro.event).take n :=
    fun hmem => h l (List.mem_of_mem_take hmem)
  match hs' : s.seq with
  | .idle => exact absurd hs' hs
  | .run op k todo =>
    rcases runMicros_cases ms s op k todo hs' with ⟨htr, -⟩ | ⟨n, e, htr, he, -⟩ | ⟨n, k', p, ms', htr, -, -⟩
    · exact ⟨_, htr, h⟩
    · refine ⟨_, htr.trans (List.append_assoc ..), fun l hmem => ?_⟩
      rcases List.mem_append.mp hmem with hmem | hmem
      · exact htake n l hmem
      · rcases he with ⟨b, x, rfl⟩ | rfl <;> simp at hmem
    · exact ⟨_, htr.trans (List.append_assoc ..), by simp [htake n]⟩

theorem frameMicros_drivesReset (op : Byte) (payload : List Byte) :
    (frameMicros op payload).any Micro.drivesReset = false := by
  rw [any_drivesReset_iff, frameMicros_events, frameTrace_cons]
  split <;> simp

/-- A line drives the reset line exactly if its micro-operations do. -/
theorem drivesReset_eq (x : Task) : x.drivesReset = x.toMicros.any Micro.drivesReset := by
  cases x
  case frame bytes =>
    cases bytes with
    | nil => rfl
    | cons op payload => exact (frameMicros_drivesReset op payload).symm
  all_goals rfl

theorem expand_drivesReset (x : Task) (s : State) : (x.expand s).any Task.drivesReset = false := by
  cases x
  case ensureInit => by_cases h : s.isInitialized <;> simp [Task.expand, h, Task.drivesReset]
  all_goals rfl

/-- Only NEW and RESET have a line on the reset line (R121 to R123). -/
theorem linesOf_drivesReset {i : Instr} {s : State} (h : (linesOf i s).any Task.drivesReset = true) :
    i = .new ∨ i = .reset := by
  cases i
  case new => exact .inl rfl
  case reset => exact .inr rfl
  case setDisplay fb => cases hb : s.bufs[fb]? <;> simp [linesOf, hb, setDisplayTasks, Task.drivesReset] at h
  all_goals cases h

/-- A command drives no reset line (R86, R87, R91). -/
theorem NoReset.exec_command {i : Instr} {s t : State} (hi : isCommand i = true) (h : exec i s = .next t) :
    NoReset s t := by
  obtain ⟨op, payload, hf⟩ := frameBytes_of_isCommand i hi
  rw [Machine.exec_command i s op payload hf] at h
  cases h
  unfold State.send
  split
  · exact .of_trace rfl
  · rename_i hs; exact runMicros_noReset hs (frameMicros_drivesReset op payload)

/-- A line of micro-operations of which none is on the reset line makes no reset event. -/
theorem nextTask_micros_noReset {s : State} {op : Instr} {k : Nat} {x : Task} {todo : List Task}
    (hs : s.seq = .run op k (x :: todo)) (hx : x.isMicros = true) (h : x.drivesReset = false) :
    NoReset s (nextTask s).state := by
  rw [nextTask_of_micros hs hx]
  have hpop : NoReset s (s.popTo op k todo) := .of_trace rfl
  exact hpop.trans (runMicros_noReset (by simp) (drivesReset_eq x ▸ h))

/-- Without a line on the reset line among what is left to do, the next line makes no reset event, and there is still none. -/
theorem nextTask_noReset {s : State} (h : s.seq.todo.any Task.drivesReset = false) :
    NoReset s (nextTask s).state ∧ (nextTask s).state.seq.todo.any Task.drivesReset = false := by
  rw [List.any_eq_false] at h
  constructor
  · match hs : s.seq with
    | .idle => rw [nextTask_of_idle hs]; exact .of_trace rfl
    | .run op k [] => rw [nextTask_of_end hs]; exact .of_trace rfl
    | .run op k (x :: todo) =>
      by_cases hx : x.isMicros = true
      · exact nextTask_micros_noReset hs hx (by simpa using h x (by simp [hs, Seq.todo]))
      · rw [nextTask_of_line hs (by simpa using hx)]; exact .of_trace (writes_trace x s)
  · rw [List.any_eq_false]
    intro y hy
    rcases mem_todo_nextTask hy with hy | ⟨x, -, hy⟩ | ⟨x, hx, n, ms, rfl, hms⟩
    · exact h y hy
    · exact List.any_eq_false.mp (expand_drivesReset x s) y hy
    · have hno := (any_drivesReset_iff _).mp ((drivesReset_eq x).symm.trans (by simpa using h x hx))
      have hms' : ms.any Micro.drivesReset = false :=
        (any_drivesReset_iff ms).mpr fun l hl => hno l (List.mem_of_mem_drop (hms ▸ hl))
      simp [Task.drivesReset, hms']

/-- Settles O44: a reset event comes from a micro-operation on the reset line, and only the lines of NEW and RESET have one. -/
theorem onlyNewAndResetDriveTheResetLine : Obligations.OnlyNewAndResetDriveTheResetLine := by
  refine ⟨fun i s t hnew hreset hexec => ?_, fun s t hs hno hstep => ?_, fun i s => linesOf_drivesReset⟩
  · by_cases hcmd : isCommand i = true
    · have hr := NoReset.exec_command hcmd hexec
      exact ⟨hr.rst (Follows.kept.exec_command hcmd hexec), hr⟩
    · rw [Bool.not_eq_true] at hcmd
      suffices hr : NoReset s t from ⟨hr.rst (.exec hcmd hexec), hr⟩
      rcases instr_classes i with hcmd' | hctl | hfb
      · rw [hcmd] at hcmd'; cases hcmd'
      · rcases exec_controllerOp hctl hexec with rfl | ⟨-, -, rfl⟩
        · exact .of_trace rfl
        · have hstart : (linesOf i s).any Task.drivesReset = false := by
            rw [← Bool.not_eq_true]
            exact fun hany => (linesOf_drivesReset hany).elim hnew hreset
          refine (drive_induction (P := fun u => NoReset s u ∧ u.seq.todo.any Task.drivesReset = false)
            (fun u hu => ?_) driveFuel (s.start i _) ⟨.of_trace rfl, hstart⟩).1
          exact (nextTask_noReset hu.2).imp_left hu.1.trans
      · rw [exec_framebufferOp hfb hexec]; exact .of_trace rfl
  · rw [step_running hs hstep]
    obtain ⟨hr, hleft⟩ := nextTask_noReset hno
    exact ⟨hr.rst (Follows.kept.nextTask s), hleft, hr⟩

/-- Settles O14: micro-operations write no flag, and the reset latch is driven by those on the reset line alone. -/
theorem commandsWriteNoFlag : Obligations.CommandsWriteNoFlag := by
  refine ⟨fun i s t hi hexec => ?_, fun s t op k x todo hs hx hstep => ?_⟩
  · obtain ⟨hcfg, hp, hini, hc, hbufs, hreq⟩ := SameFlags.kept.exec_command hi hexec
    exact ⟨hcfg, hp, hini, hc, (NoReset.exec_command hi hexec).rst (Follows.kept.exec_command hi hexec), hbufs, hreq⟩
  · rw [step_running (by simp [hs]) hstep]
    obtain ⟨hcfg, hp, hini, hc, hbufs, hreq⟩ := nextTask_sameFlags hs hx
    exact ⟨hcfg, hp, hini, hc, fun hno => (nextTask_micros_noReset hs hx hno).rst (Follows.kept.nextTask s), hbufs, hreq⟩

end Sys2Proof.Machine
end

