-- ==== Sys2Proof/Proofs/Canvas.lean ====
section
/-! PROOFS. The FrameBuffer packer: bounds, the bijection of pixels and bits, the order of draws, FB_NEW and FB_GET_BUFFER
(R31, R32, R42, R69 to R78). -/

namespace Sys2Proof.Machine

/-! ### Bounds -/

/-- A pixel has no address exactly if it is outside the canvas (R74). -/
theorem pixelAddress_eq_none_iff {c : Config} {o : Orientation} {x y : Int} :
    pixelAddress c o x y = none ↔ ¬ (0 ≤ x ∧ x < canvasWidth c o ∧ 0 ≤ y ∧ y < canvasHeight c o) := by
  simp [pixelAddress, inBounds, and_assoc]

/-- A draw without an address changes no FrameBuffer (R74, R75). -/
theorem FrameBuffer.draw_of_no_address {c : Config} {b : FrameBuffer} {x y : Int}
    (h : pixelAddress c b.orient x y = none) (color : Int) : b.draw c x y color = .ok b := by
  simp [FrameBuffer.draw, h]

/-- Settles O35: the canvas of `Direct` is 128 by 296, that of `RotatedLeft` 296 by 128; a draw outside stores the FrameBuffer
it found. -/
theorem outOfBoundsPixelIsDiscarded : Obligations.OutOfBoundsPixelIsDiscarded := by
  refine ⟨fun x y => ?_, fun x y => ?_, fun s fb b x y color hidle hb haddr => ?_⟩
  · have hw : canvasWidth defaultConfig .direct = 128 := rfl
    have hh : canvasHeight defaultConfig .direct = 296 := rfl
    rw [pixelAddress_eq_none_iff, hw, hh]
    omega
  · have hw : canvasWidth defaultConfig .rotatedLeft = 296 := rfl
    have hh : canvasHeight defaultConfig .rotatedLeft = 128 := rfl
    rw [pixelAddress_eq_none_iff, hw, hh]
    omega
  · rw [exec_fbDrawPixel_of_draw hidle hb (FrameBuffer.draw_of_no_address haddr color)]
    obtain ⟨hlt, hget⟩ := List.getElem?_eq_some_iff.mp hb
    rw [← hget, List.set_getElem_self]

/-! ### Pixels and bits -/

/-- Place `u` of a row of `8 * rb` places in row `v` of the buffer, as byte and bit, read backwards (R72, R73). -/
theorem place_eq_iff {rb u v a bit : Nat} (hu : u < 8 * rb) (hbit : bit < 8) :
    (u / 8 + v * rb, 7 - u % 8) = (a, bit) ↔ u = 8 * (a % rb) + (7 - bit) ∧ v = a / rb := by
  have hrb : 0 < rb := by omega
  have hdiv : u / 8 < rb := by omega
  rw [Prod.mk.injEq]
  constructor
  · rintro ⟨rfl, rfl⟩
    rw [Nat.add_mul_mod_self_right, Nat.mod_eq_of_lt hdiv, Nat.add_mul_div_right _ _ hrb, Nat.div_eq_of_lt hdiv]
    omega
  · rintro ⟨rfl, rfl⟩
    have hbyte : (8 * (a % rb) + (7 - bit)) / 8 = a % rb := by omega
    refine ⟨?_, by omega⟩
    rw [hbyte, Nat.mul_comm]
    exact Nat.mod_add_div a rb

/-- A geometry that meets R6 has the 4736 bytes of the buffer in its rows. -/
theorem Config.valid_bytes {c : Config} (h : c.valid = true) : c.rowBytes * c.rows = fbBytes := by
  rcases Config.valid_geometry h with ⟨hb, hr⟩ | ⟨hb, hr⟩ <;> rw [hb, hr]

/-- The pixel whose address is (`a`, `bit`), by the inverse of the transform (R72, R73). -/
def pixelAt (c : Config) (o : Orientation) (a bit : Nat) : Int × Int :=
  match o with
  | .direct => ((8 * (a % c.rowBytes) + (7 - bit) : Nat), (a / c.rowBytes : Nat))
  | .rotatedLeft => ((c.rows - 1 - a / c.rowBytes : Nat), (8 * (a % c.rowBytes) + (7 - bit) : Nat))

/-- A pixel has the address (`a`, `bit`) exactly if it is the pixel of that address. -/
theorem pixelAddress_eq_some_iff_pixelAt {c : Config} (hc : c.valid = true) {o : Orientation} {x y : Int} {a bit : Nat}
    (ha : a < fbBytes) (hbit : bit < 8) : pixelAddress c o x y = some (a, bit) ↔ (x, y) = pixelAt c o a bit := by
  have hbytes := Config.valid_bytes hc
  have hrb : 0 < c.rowBytes := Nat.pos_of_mul_pos_right (hbytes ▸ Nat.zero_lt_of_lt ha)
  have hcol : a % c.rowBytes < c.rowBytes := Nat.mod_lt a hrb
  have hrow : a / c.rowBytes < c.rows := Nat.div_lt_of_lt_mul (hbytes ▸ ha)
  have hplace (u v : Nat) (hu : u < 8 * c.rowBytes) := place_eq_iff (v := v) (a := a) hu hbit
  rw [pixelAddress_eq_some_iff]
  cases o with
  | direct =>
    simp only [canvasWidth, canvasHeight, transform, pixelAt, Prod.mk.injEq] at hplace ⊢
    generalize a % c.rowBytes = col, a / c.rowBytes = row at *
    constructor
    · rintro ⟨⟨hx0, hx, hy0, hy⟩, hp⟩
      have := (hplace x.toNat y.toNat (by omega)).mp hp
      omega
    · rintro ⟨rfl, rfl⟩
      exact ⟨by omega, (hplace _ _ (by omega)).mpr ⟨by omega, by omega⟩⟩
  | rotatedLeft =>
    simp only [canvasWidth, canvasHeight, transform, pixelAt, Prod.mk.injEq] at hplace ⊢
    generalize a % c.rowBytes = col, a / c.rowBytes = row at *
    constructor
    · rintro ⟨⟨hx0, hx, hy0, hy⟩, hp⟩
      have := (hplace y.toNat (c.rows - 1 - x.toNat) (by omega)).mp hp
      omega
    · rintro ⟨rfl, rfl⟩
      exact ⟨by omega, (hplace _ _ (by omega)).mpr ⟨by omega, by omega⟩⟩

/-- Settles O38: a pixel's address has a byte inside the buffer and a bit inside the byte, and the inverse of the transform gives
the one pixel of each address. -/
theorem transformIsABijection : Obligations.TransformIsABijection := by
  refine fun c o hc => ⟨fun x y a bit h => ⟨pixelAddress_byte_lt hc h, ?_⟩, fun a bit ha hbit => ?_⟩
  · have hbit : (transform c o x.toNat y.toNat).2 < 8 := by cases o <;> exact Nat.lt_succ_of_le (Nat.sub_le ..)
    rwa [(pixelAddress_eq_some_iff.mp h).2] at hbit
  · exact ⟨pixelAt c o a bit, (pixelAddress_eq_some_iff_pixelAt hc ha hbit).mpr rfl,
      fun p hp => (pixelAddress_eq_some_iff_pixelAt hc ha hbit).mp hp⟩

/-! ### Draws -/

/-- A draw answers a FrameBuffer in canonical form that differs in the bit of the pixel alone, if it has an address (R75). -/
theorem FrameBuffer.draw_bits {c : Config} (hc : c.valid = true) (b : FrameBuffer) (hb : b.mem.wf = true)
    (x y color : Int) :
    ∃ b', b.draw c x y color = .ok b' ∧ b'.orient = b.orient ∧ b'.mem.wf = true
      ∧ ∀ a j, j < 8 → (b'.mem.get a).getLsbD j
        = if pixelAddress c b.orient x y = some (a, j) then decide (color = 0) else (b.mem.get a).getLsbD j := by
  match h : pixelAddress c b.orient x y with
  | none => exact ⟨b, FrameBuffer.draw_of_no_address h color, rfl, hb, by simp⟩
  | some (byte, bit) =>
    refine ⟨_, FrameBuffer.draw_of_address hc h color, rfl, memWrite_wf hb (pixelAddress_byte_lt hc h) _, ?_⟩
    intro a j hj
    simp only [memWrite_paint_getLsbD hb byte bit color a hj, Option.some.injEq, Prod.mk.injEq, eq_comm]

/-- Two draws one after the other. -/
theorem FrameBuffer.drawAll_two {c : Config} {b b1 b2 : FrameBuffer} {x y k x' y' k' : Int}
    (h1 : b.draw c x y k = .ok b1) (h2 : b1.draw c x' y' k' = .ok b2) :
    b.drawAll c [(x, y, k), (x', y', k')] = .ok b2 := by
  simp [FrameBuffer.drawAll, h1, h2]

/-- Settles O41: each draw writes the bit of its pixel alone, so bits of different pixels are written independently, and a bit
written twice has the value written last. -/
theorem drawOrderMattersOnlyOnTheSamePixel : Obligations.DrawOrderMattersOnlyOnTheSamePixel := by
  intro c b x y k x' y' k' hc hb
  obtain ⟨p, hp, hpo, hpwf, hpbits⟩ := FrameBuffer.draw_bits hc b hb x y k
  obtain ⟨b1, hb1, -, -, hbits1⟩ := FrameBuffer.draw_bits hc p hpwf x' y' k'
  obtain ⟨q, hq, hqo, hqwf, hqbits⟩ := FrameBuffer.draw_bits hc b hb x' y' k'
  obtain ⟨b2, hb2, -, -, hbits2⟩ := FrameBuffer.draw_bits hc q hqwf x y k
  refine ⟨b1, b2, q, FrameBuffer.drawAll_two hp hb1, FrameBuffer.drawAll_two hq hb2, by simp [FrameBuffer.drawAll, hq],
    fun hne a => BitVec.eq_of_getLsbD_eq fun j hj => ?_, fun heq a => BitVec.eq_of_getLsbD_eq fun j hj => ?_⟩
  · rw [hbits1 a j hj, hpbits a j hj, hbits2 a j hj, hqbits a j hj, hpo, hqo]
    by_cases h : pixelAddress c b.orient x y = some (a, j)
    · have h' : pixelAddress c b.orient x' y' ≠ some (a, j) := fun h' => hne (h.trans h'.symm)
      rw [if_neg h', if_pos h, if_pos h]
    · rw [if_neg h, if_neg h]
  · rw [hbits1 a j hj, hpbits a j hj, hqbits a j hj, hpo, heq]
    by_cases h : pixelAddress c b.orient x' y' = some (a, j)
    · rw [if_pos h, if_pos h]
    · rw [if_neg h, if_neg h, if_neg h]

/-! ### FB_NEW and FB_GET_BUFFER -/

/-- The bitmap of a new FrameBuffer (R70). -/
theorem memBytes_blank (o : Orientation) : memBytes (FrameBuffer.blank o).mem = List.replicate fbBytes blankByte := by
  simp [memBytes, List.eq_replicate_iff]

/-- Settles O34: the new FrameBuffer is the blank one of the variant. -/
theorem fbNewGivesABlankCanvas : Obligations.FbNewGivesABlankCanvas :=
  fun s o hidle => ⟨.blank o, by simp [exec, execFbNew, hidle], rfl, fun a _ => blank_get o a, memBytes_blank o⟩

/-- Settles O40: the response carries the bitmap, which has byte `a` of the space at index `a`. -/
theorem getBufferReadsInScanOrder : Obligations.GetBufferReadsInScanOrder :=
  fun s fb b hidle hb =>
    ⟨memBytes b.mem, by simp [exec, execFbGetBuffer, hidle, hb], memBytes_length b.mem, memBytes_get b.mem⟩

end Sys2Proof.Machine
end

