-- ==== Sys2Proof/Proofs/Commands.lean ====
section
/-! PROOFS. One step, the fifteen commands at the sequencer and their failures, and what the block refuses (R22, R62, R86 to
R108, R120, R133, R139, R141). -/

namespace Sys2Proof.Machine

/-! ### One step -/

/-- Settles O5: an idle step takes the first request off the port, if there is one. -/
theorem idleStepExecutesTheRequest : Obligations.IdleStepExecutesTheRequest := by
  intro s hidle
  exact ⟨fun hnone => by simp [step, hidle, hnone], fun r rest i hr hd => by simp [step, hidle, hr, hd]⟩

/-- Settles O6: the frame at the sequencer is decoded and taken off. -/
theorem runningStepExecutesTheFrame : Obligations.RunningStepExecutesTheFrame := by
  intro s op k bytes todo i hs hd
  simp only [step, hs, hd]
  rfl

/-- Settles O7: the decoder rejects the code, and the request is taken off the port. -/
theorem reservedCodeIsRefused : Obligations.ReservedCodeIsRefused := by
  intro s r rest hidle hr hcode
  have hd := decodeRequest_reserved hcode
  exact ⟨hd, by simp [step, hidle, hr, hd, State.take]⟩

/-- A running block refuses every host operation (R62, R120). -/
theorem exec_running {i : Instr} {s : State} (hi : isCommand i = false) (hs : s.seq ≠ .idle) : exec i s = .next s := by
  rcases instr_classes i with hcmd | hctl | hfb
  · rw [hi] at hcmd; cases hcmd
  · obtain ⟨t, ht⟩ := exec_controllerOp_next hctl s
    rcases exec_controllerOp hctl ht with rfl | ⟨hidle, -, -⟩
    · exact ht
    · exact absurd hidle hs
  · cases i
    case fbNew o => simp [exec, execFbNew, hs]
    case fbDrawPixel fb x y c => simp [exec, execFbDrawPixel, hs]
    case fbGetBuffer fb => simp [exec, execFbGetBuffer, hs]
    all_goals cases hfb

/-- Before NEW every other ControllerDriver operation is refused (R62, R133). -/
theorem exec_unconstructed {i : Instr} {s : State} (hi : isControllerOp i = true) (hne : i ≠ .new)
    (hs : s.constructed = false) : exec i s = .next s := by
  obtain ⟨t, ht⟩ := exec_controllerOp_next hi s
  rcases exec_controllerOp hi ht with rfl | ⟨-, hacc, -⟩
  · exact ht
  · rw [hs] at hacc
    exact absurd (hacc.resolve_right (by simp)) hne

/-- Settles O8: the operation starts only on an idle block, after NEW, and on a FrameBuffer there is. -/
theorem refusedOperationChangesNothing : Obligations.RefusedOperationChangesNothing := by
  intro i s hi hrefused
  rcases hrefused with hs | ⟨hctl, hne, hs⟩ | ⟨fb, hb, rfl | rfl | ⟨x, y, c, rfl⟩⟩
  · exact exec_running hi hs
  · exact exec_unconstructed hctl hne hs
  · simp [exec, execSetDisplay, hb]
  · simp [exec, execFbGetBuffer, hb]
  · simp [exec, execFbDrawPixel, hb]

/-- Settles O9: a command is sent from a position of a running operation only. -/
theorem idleBlockSendsNoCommand : Obligations.IdleBlockSendsNoCommand := by
  intro i s hi hidle
  obtain ⟨op, payload, hf⟩ := frameBytes_of_isCommand i hi
  simp [exec_command i s op payload hf, State.send, hidle]

/-! ### A command's frame -/

/-- A command at the sequencer runs the micro-operations of its frame (R86, R87). -/
theorem exec_runMicros {i : Instr} {s : State} {o : Instr} {k : Nat} {todo : List Task} {op : Byte} {payload : List Byte}
    (hf : frameBytes i = op :: payload) (hs : s.seq = .run o k todo) :
    exec i s = .next (runMicros (frameMicros op payload) s).state := by
  simp [exec_command i s op payload hf, State.send, hs]

/-- A command whose environment is ready sends its frame and changes nothing else (R86, R87, R91). -/
theorem exec_commandSent {i : Instr} {s : State} {o : Instr} {k : Nat} {todo : List Task} {op : Byte} {payload : List Byte}
    (hf : frameBytes i = op :: payload) (hs : s.seq = .run o k todo) (h : s.readyFor [op :: payload]) :
    exec i s = .next (s.commandSent (op :: payload) o k todo) := by
  rw [exec_runMicros hf hs, runMicros_frame op payload s h]
  simp [Progress.state, State.commandSent, hs]

/-- Settles O10: each of the six sends its frame. -/
theorem configurationCommandsSendTheirFrame : Obligations.ConfigurationCommandsSendTheirFrame :=
  fun _ _ _ _ hs =>
    ⟨fun _ _ => exec_commandSent rfl hs, fun _ _ _ => exec_commandSent rfl hs, fun _ => exec_commandSent rfl hs,
      fun _ => exec_commandSent rfl hs, fun _ => exec_commandSent rfl hs, fun _ => exec_commandSent rfl hs⟩

/-- Settles O11: each of the four sends its frame, in which the encoder puts the low byte first. -/
theorem windowAndCounterCommandsSendTheirFrame : Obligations.WindowAndCounterCommandsSendTheirFrame :=
  fun _ _ _ _ hs =>
    ⟨fun _ _ => exec_commandSent rfl hs, fun _ _ => exec_commandSent rfl hs, fun _ => exec_commandSent rfl hs,
      fun _ => exec_commandSent rfl hs⟩

/-- Settles O12: the payload of each of the two is its operand as it stands. -/
theorem bitmapAndTableCommandsSendTheirFrame : Obligations.BitmapAndTableCommandsSendTheirFrame :=
  fun _ _ _ _ _ hs => ⟨exec_commandSent rfl hs, exec_commandSent rfl hs⟩

/-- Settles O13: each of the three sends its frame, and a frame without payload leaves the line at command. -/
theorem activationCommandsSendTheirFrame : Obligations.ActivationCommandsSendTheirFrame :=
  fun _ _ _ _ hs =>
    ⟨fun _ => exec_commandSent rfl hs, fun h => ⟨exec_commandSent rfl hs h, rfl⟩,
      fun h => ⟨exec_commandSent rfl hs h, rfl⟩⟩

/-! ### A command that fails -/

/-- Settles O15: the frame is opened, its first byte fails, and the exception is taken. -/
theorem failedOpcodeByteEndsTheOperation : Obligations.FailedOpcodeByteEndsTheOperation := by
  intro i s o k todo op payload e hf hs hpoll hbyte
  rw [exec_runMicros hf hs, runMicros_frame_opcode_fails op payload s e hpoll hbyte]
  simp [Progress.state, State.raise, State.afterTx, State.opened, State.answered]

/-- Settles O16: the frame is opened, the bytes before `b` go out, `b` fails, and the exception is taken. -/
theorem failedPayloadByteEndsTheOperation : Obligations.FailedPayloadByteEndsTheOperation := by
  intro i s o k todo op pre b post e hf hs hpoll hbytes hbyte
  rw [exec_runMicros hf hs, runMicros_frame_payload_fails op pre b post s e hpoll hbytes hbyte]
  simp [Progress.state, State.raise, State.afterTx, State.bytesOut, State.pinDc, State.opened, State.answered]
  exact ⟨by congr 1; omega, by omega⟩

end Sys2Proof.Machine
end

