-- ==== Sys2Proof/Proofs/SequenceCounts.lean ====
section
/-! PROOFS. The frames of INIT and the counts of events and bytes (R93, R110, R113, R119). -/

namespace Sys2Proof.Machine

/-! ### The frames of INIT -/

/-- Settles O29: both lists are computed from the default parameters. -/
theorem initFramesByteForByte : Obligations.InitFramesByteForByte := ⟨rfl, rfl, rfl, rfl⟩

theorem initConfigFrames_length (c : Config) : (initConfigFrames c).length = 10 := rfl

theorem initFrames_length (c : Config) (m : Bool) : (initFrames c m).length = 13 := rfl

/-- Frame 11 of INIT is the frame of the table of the mode (R101, R113). -/
theorem initFrames_table (c : Config) (m : Bool) : (initFrames c m)[10]? = some (0x32#8 :: lutOf c m) := rfl

/-- Every frame of INIT but number 11 is the same in both modes (R113). -/
theorem initFrames_mode (c : Config) (m m' : Bool) {j : Nat} (h : j ≠ 10) :
    (initFrames c m)[j]? = (initFrames c m')[j]? := by
  rw [initFrames_eq, initFrames_eq]
  rcases Nat.lt_or_ge j 10 with hlt | hge
  · rw [List.getElem?_append_left hlt, List.getElem?_append_left hlt]
  · obtain ⟨n, rfl⟩ : ∃ n, j = 11 + n := ⟨j - 11, by omega⟩
    have hlater (b : Bool) : (initConfigFrames c ++ ([lutFrameBytes c b] ++ powerFrames))[11 + n]? = powerFrames[n]? := by
      rw [← List.append_assoc]
      exact List.getElem?_append_right (Nat.le_add_right 11 n) |>.trans (by simp [initConfigFrames_length])
    rw [hlater, hlater]

/-- Settles O30: the table is the only frame of INIT that reads the mode. -/
theorem modeChangesOnlyTheTable : Obligations.ModeChangesOnlyTheTable :=
  fun c hc => ⟨initFrames_length c true, initFrames_length c false, fun _ => initFrames_mode c true false,
    initFrames_table c true, initFrames_table c false, rfl, Config.lutFull_length hc⟩

/-! ### Counts of a frame -/

@[simp] theorem transport_nil : transport [] = [] := rfl

theorem transport_cons (e : Event) (es : List Event) :
    transport (e :: es) = if e.isBus then e :: transport es else transport es := List.filter_cons

@[simp] theorem transport_payload (bs : List Byte) : transport (bs.map .tx) = bs.map .tx := by
  simp [transport, Event.isBus]

@[simp] theorem bytesSent_payload (bs : List Byte) : bytesSent (bs.map .tx) = bs := by
  induction bs with
  | nil => rfl
  | cons b bs ih => simp [bytesSent, ih]

@[simp] theorem transport_busy (p : Nat) : transport (List.replicate p (.busy true)) = [] := by
  simp [transport, Event.isBus]

@[simp] theorem bytesSent_busy (p : Nat) : bytesSent (List.replicate p (.busy true)) = [] := by
  induction p with
  | zero => rfl
  | succ p ih => exact ih

/-- The transport view of a frame is its bytes, whatever its wait (R10). -/
theorem transport_frame (p : Nat) (op : Byte) (payload : List Byte) :
    transport (frameTraceAfter p (op :: payload)) = (op :: payload).map .tx := by
  by_cases h : payload = [] <;> simp [frameTraceAfter, h, transport_cons, Event.isBus]

/-- The bytes that a frame sends, whatever its wait. -/
theorem bytesSent_frame (p : Nat) (op : Byte) (payload : List Byte) :
    bytesSent (frameTraceAfter p (op :: payload)) = op :: payload := by
  by_cases h : payload = [] <;> simp [frameTraceAfter, h, bytesSent]

/-- A wait adds busy answers to the events of a frame and nothing else (R93). -/
theorem frame_after_wait (p : Nat) (op : Byte) (payload : List Byte) :
    frameTraceAfter p (op :: payload)
      = .cs .act :: (List.replicate p (.busy true) ++ (frameTrace (op :: payload)).tail) := by
  simp [frameTrace, frameTraceAfter]

/-- The events of a frame: 5 without payload, `6 + N` with one, and one for each busy answer (R93). -/
theorem frameTraceAfter_length (p : Nat) (op : Byte) (payload : List Byte) :
    (frameTraceAfter p (op :: payload)).length = (if payload.length = 0 then 5 else 6 + payload.length) + p := by
  have hlen := frameTrace_length op payload
  rw [frame_after_wait, List.length_cons, List.length_append, List.length_replicate, List.length_tail, hlen]
  by_cases h : payload = []
  · simp [h]; omega
  · simp [h]; omega

/-- A frame without waiting has no busy answer after its first event. -/
theorem busy_notMem_frameTrace_tail (bytes : List Byte) : Event.busy true ∉ (frameTrace bytes).tail :=
  fun h => busy_notMem_frameTrace bytes (List.mem_of_mem_tail h)

theorem frameTraceAfter_count (p : Nat) (op : Byte) (payload : List Byte) :
    (frameTraceAfter p (op :: payload)).count (.busy true) = p := by
  rw [frame_after_wait, List.count_cons_of_ne (by simp), List.count_append, List.count_replicate_self,
    List.count_eq_zero_of_not_mem (busy_notMem_frameTrace_tail _), Nat.add_zero]

/-- The frame without its busy answers is the frame without waiting. -/
theorem frameTraceAfter_filter (p : Nat) (op : Byte) (payload : List Byte) :
    (frameTraceAfter p (op :: payload)).filter (· ≠ .busy true) = frameTrace (op :: payload) := by
  have htail : (frameTrace (op :: payload)).tail.filter (· ≠ .busy true) = (frameTrace (op :: payload)).tail :=
    List.filter_eq_self.mpr fun e he => by
      simpa using fun heq : e = .busy true => busy_notMem_frameTrace_tail (op :: payload) (heq ▸ he)
  rw [frame_after_wait, List.filter_cons_of_pos (by simp), List.filter_append, htail, List.filter_replicate]
  simp [frameTrace_cons]

/-! ### Counts of rows of frames -/

/-- The bytes that a row of frames sends are theirs. -/
theorem bytesSent_framesTrace (fs : List (List Byte)) : bytesSent (framesTrace fs) = fs.flatten := by
  induction fs with
  | nil => rfl
  | cons f fs ih =>
    have hf : bytesSent (frameTrace f) = f := by
      cases f with
      | nil => rfl
      | cons op payload => exact bytesSent_frame 0 op payload
    rw [framesTrace, List.flatMap_cons, bytesSent_append, hf, List.flatten_cons, ← ih]
    rfl

/-- INIT sends 63 bytes (R119). -/
theorem initFrames_bytes {c : Config} (hc : c.valid = true) (m : Bool) : (initFrames c m).flatten.length = 63 := by
  simp [initFrames, initConfigFrames, lutFrameBytes, powerFrames, frameBytes, encode, lutOf_length hc m, lutLen]

/-- INIT has 127 events (R93). -/
theorem initFrames_events {c : Config} (hc : c.valid = true) (m : Bool) : (framesTrace (initFrames c m)).length = 127 := by
  have hlen := lutOf_length hc m
  have hne : lutOf c m ≠ [] := by rintro h; simp [h, lutLen] at hlen
  simp [initFrames, initConfigFrames, lutFrameBytes, powerFrames, frameBytes, encode, framesTrace, frameTrace_length,
    hlen, hne, lutLen]

/-- The RAM write sends 4737 bytes (R93). -/
theorem ramFrame_length (m : Memory) : (ramFrame (memBytes m)).length = 4737 := by
  simp [ramFrame, frameBytes, encode]

theorem memBytes_ne_nil (m : Memory) : memBytes m ≠ [] := by
  intro h
  simpa [h] using memBytes_length m

/-- Settles O31: a frame's events are counted from its form, and those of a sequence frame by frame. -/
theorem eventCounts : Obligations.EventCounts := by
  refine ⟨fun p op payload => ⟨frameTraceAfter_length p op payload, transport_frame p op payload,
      bytesSent_frame p op payload, frameTraceAfter_count p op payload, frameTraceAfter_filter p op payload⟩,
    fun c m hc => ⟨initFrames_length c m, ?_, initFrames_events hc m⟩, fun b => ⟨?_, ?_⟩, rfl, rfl, rfl, rfl⟩
  · rw [bytesSent_framesTrace, initFrames_bytes hc]
  · exact (congrArg List.length (bytesSent_frame 0 _ _)).trans (ramFrame_length b.mem)
  · exact (frameTrace_length _ _).trans (by rw [if_neg (memBytes_ne_nil _), memBytes_length, fbBytes])

end Sys2Proof.Machine
end

