-- ==== Sys2Proof/Proofs/Operations.lean ====
section
/-! PROOFS. The ControllerDriver operations with the controller ready and the bus ok (R120 to R130). -/

namespace Sys2Proof.Machine

/-! ### The run of an operation's lines -/

/-- The state in which an operation has started, but for its position (R120). -/
def State.started (s : State) : State := { s with response := none }

theorem start_eq (s : State) (op : Instr) (ts : List Task) : s.start op ts = s.started.popTo op 0 ts := rfl

/-- An accepted operation ends as its lines do (R22, R120). -/
theorem operate_ends {n k : Nat} {s x : State} {op : Instr} {ts : List Task} (h : s.accepts)
    (hrun : Drives n (s.started.popTo op 0 ts) (x.popTo op k [])) (hn : n < driveFuel) : s.operate op ts = x.finish := by
  rw [operate_accepted s op ts h, start_eq, hrun.ends hn]

/-- A line that is none of micro-operations. -/
theorem Drives.line {x : Task} (hx : x.isMicros = false) (s : State) (op : Instr) (k : Nat) (todo : List Task) :
    Drives 1 (s.popTo op k (x :: todo)) ((x.writes s).popTo op k (x.expand s ++ todo)) :=
  Drives.task (by rw [perform_line hx, writes_popTo]; rfl)

/-- The reset pulse (R123). -/
theorem Drives.pulse (s : State) (op : Instr) (k : Nat) (todo : List Task) :
    Drives 1 (s.popTo op k (.micros (resetPulse s.cfg) :: todo)) (s.pulsed.popTo op (k + 4) todo) :=
  Drives.task (by
    simp [perform, resetPulse, runMicros, State.pulsed, State.popTo, State.pinRst, State.delayMs])

/-! ### NEW and RESET -/

/-- Settles O20: the pulse, then NEW's flag writes. -/
theorem newPulsesResetAndConstructs : Obligations.NewPulsesResetAndConstructs := by
  intro s hidle
  have hrun := (Drives.pulse s.started .new 0 [.construct]).trans (Drives.line rfl s.started.pulsed .new 4 [])
  have hnew : s.operateNew .new (newTasks s.cfg) = s.started.pulsed.construct.finish := by
    rw [State.operateNew, if_pos hidle]
    exact hrun.ends (by decide)
  exact congrArg Host.Outcome.next hnew

/-- Settles O21: the pulse, then RESET's flag write. -/
theorem resetPulsesAndKeepsTheMode : Obligations.ResetPulsesAndKeepsTheMode := by
  intro s haccepts
  have hrun := (Drives.pulse s.started .reset 0 [.resetFlag]).trans (Drives.line rfl s.started.pulsed .reset 4 [])
  exact congrArg Host.Outcome.next (operate_ends haccepts hrun (by decide))

/-- Settles O47: the reset values are those of `State.reset`, and NEW and FB_NEW from there are computed. -/
theorem resetValues : Obligations.ResetValues := by
  refine ⟨⟨rfl, rfl, rfl, rfl, rfl, rfl, rfl, rfl, rfl⟩, ?_, fun o => ?_⟩
  · exact ⟨_, newPulsesResetAndConstructs State.reset rfl, rfl, rfl, rfl, rfl, rfl, rfl, rfl, rfl, rfl⟩
  · exact ⟨_, .blank o, rfl, rfl, rfl, fun a _ => blank_get o a, rfl, rfl, rfl, rfl, rfl, rfl, rfl⟩

/-! ### ENSURE_INIT and then frames -/

/-- The frames that ENSURE_INIT sends (R111). -/
def ensureFrames (c : Config) (m i : Bool) : List (List Byte) := if i then [] else initFrames c m

/-- ENSURE_INIT leads to a state from which further frames lead to what all these frames lead to, the block
initialised (R111). -/
theorem Drives.ensureInit {s : State} {m i : Bool} (hmode : s.inMode m i) (op : Instr) (k : Nat) (todo : List Task)
    (gs : List (List Byte)) (d : DcLevel) (h : s.readyFor (ensureFrames s.cfg m i ++ gs)) :
    ∃ (n k' : Nat) (u : State), n ≤ 17 ∧ Drives n (s.popTo op k (.ensureInit :: todo)) (u.popTo op k' todo) ∧ u.readyFor gs
      ∧ u.sentFrames gs d = { s.sentFrames (ensureFrames s.cfg m i ++ gs) d with initialized := .holds true } := by
  obtain ⟨hpartial, hinit⟩ := hmode
  cases i with
  | true =>
    refine ⟨1, k, s, by omega, Drives.ensureInit_initialized s op k todo (s.isInitialized_of true hinit), h, ?_⟩
    simp only [ensureFrames, if_true, List.nil_append, ← hinit]
    rfl
  | false =>
    obtain rfl : s.isPartial = m := s.isPartial_of m hpartial
    simp only [ensureFrames, Bool.false_eq_true, if_false] at h ⊢
    have hrun := (Drives.ensureInit_uninitialized s op k todo (s.isInitialized_of false hinit)).trans
      (Drives.init s op k todo (readyFor_left h))
    refine ⟨17, _, _, le_rfl, hrun, readyFor_after h .cmd, ?_⟩
    rw [← sentFrames_sentFrames s _ gs .cmd d]
    rfl

/-- Settles O24: ENSURE_INIT, then UPDATE_SEQ. -/
theorem updateInitialisesIfNeededAndRefreshes : Obligations.UpdateInitialisesIfNeededAndRefreshes := by
  rintro s m i fs haccepts hmode rfl hready
  obtain ⟨n, k, u, hn, hrun, hready', hsent⟩ :=
    Drives.ensureInit (s := s.started) hmode .update 0 (updateFrames.map .frame) updateFrames .cmd hready
  have hseq := Drives.updateSeq u .update k [] hready'
  rw [List.append_nil] at hseq
  have hend := operate_ends haccepts (hrun.trans hseq) (by simp only [driveFuel]; omega)
  rw [hsent] at hend
  exact congrArg Host.Outcome.next hend

/-- Settles O25: ENSURE_INIT, then the RAM write of the buffer's bytes. -/
theorem setDisplayInitialisesIfNeededAndStreams : Obligations.SetDisplayInitialisesIfNeededAndStreams := by
  rintro s m i fb b fs haccepts hmode hb rfl hready
  obtain ⟨n, k, u, hn, hrun, hready', hsent⟩ := Drives.ensureInit (s := s.started) hmode (.setDisplay fb) 0
    [.frame (ramFrame (memBytes b.mem))] [ramFrame (memBytes b.mem)] .data hready
  have hwrite := Drives.ramWrite u (.setDisplay fb) k [] (memBytes b.mem) (memBytes_ne_nil b.mem) hready'
  have hend := operate_ends (ts := setDisplayTasks b) haccepts (hrun.trans hwrite) (by simp only [driveFuel]; omega)
  rw [hsent] at hend
  simp only [exec, execSetDisplay, hb]
  exact congrArg Host.Outcome.next hend

/-- Settles O26: the two power frames, then `initialized <- false`. -/
theorem powerOffSendsThePowerSequence : Obligations.PowerOffSendsThePowerSequence := by
  intro s haccepts hready
  have hrun := (Drives.powerSeq s.started .powerOff 0 [.markUninitialized] hready).trans
    (Drives.line rfl _ _ _ [])
  have hend := operate_ends (ts := powerOffTasks) haccepts hrun (by decide)
  exact congrArg Host.Outcome.next hend

/-- CLEAR's first two lines: the mode is saved and full mode set (R125, R126). -/
theorem Drives.saveAndSetFull {s : State} {m i : Bool} (hmode : s.inMode m i) (op : Instr) (k : Nat) (todo : List Task) :
    Drives 2 (s.popTo op k (.saveMode :: .setFull :: todo))
      (State.popTo { s with saved := .holds m, partialMode := .holds false, initialized := .holds (!m && i) } op k todo) := by
  have hfull := State.toFull_of_inMode (s := s.saveMode) hmode
  have hrun := (Drives.line rfl s op k (.setFull :: todo) (x := .saveMode)).trans (Drives.line rfl s.saveMode op k todo)
  simp only [Task.writes, hfull] at hrun
  obtain rfl : s.isPartial = m := s.isPartial_of m hmode.1
  exact hrun

/-- CLEAR's blank bitmap, and UPDATE, which finds the block initialised (R126, D27). -/
theorem Drives.blankAndUpdate {s : State} (hinit : s.isInitialized = true) (op : Instr) (k : Nat) (todo : List Task)
    (h : s.readyFor ([ramFrame blankBitmap] ++ updateFrames)) :
    ∃ k', Drives 5 (s.popTo op k (.frame (ramFrame blankBitmap) :: updateTasks ++ todo))
      ((s.sentFrames ([ramFrame blankBitmap] ++ updateFrames) .cmd).popTo op k' todo) := by
  have hblank : blankBitmap ≠ [] := by simp [blankBitmap]
  have hwrite := Drives.ramWrite s op k (updateTasks ++ todo) blankBitmap hblank (readyFor_left h)
  have hensure (k : Nat) := Drives.ensureInit_initialized (s.sentFrames [ramFrame blankBitmap] .data) op k
    (updateFrames.map .frame ++ todo) hinit
  have hupdate (k : Nat) := Drives.updateSeq _ op k todo (readyFor_after h .data)
  rw [sentFrames_sentFrames] at hupdate
  exact ⟨_, (hwrite.trans (hensure _)).trans (hupdate _)⟩

/-- CLEAR's lines between the mode switches: INIT (D11), the blank bitmap, UPDATE (R126). -/
theorem Drives.initBlankAndUpdate {s : State} (hfull : s.isPartial = false) (op : Instr) (k : Nat) (todo : List Task)
    (h : s.readyFor (initFrames s.cfg false ++ ([ramFrame blankBitmap] ++ updateFrames))) :
    ∃ k', Drives 21 (s.popTo op k (.init :: .frame (ramFrame blankBitmap) :: updateTasks ++ todo))
      ((s.sentFrames (initFrames s.cfg false ++ ([ramFrame blankBitmap] ++ updateFrames)) .cmd).markInitialized.popTo
        op k' todo) := by
  have hinit := Drives.init s op k (.frame (ramFrame blankBitmap) :: updateTasks ++ todo) (hfull ▸ readyFor_left h)
  rw [hfull] at hinit
  obtain ⟨k', hrest⟩ := Drives.blankAndUpdate (s := (s.sentFrames (initFrames s.cfg false) .cmd).markInitialized) rfl op
    (k + (framesTrace (initFrames s.cfg false)).length) todo (readyFor_after h .cmd)
  rw [← sentFrames_sentFrames s (initFrames s.cfg false) _ .cmd]
  exact ⟨k', hinit.trans hrest⟩

/-- Settles O27: the mode is saved, full mode set, the bitmap blanked and shown, and the mode restored, which unsets
`initialized` exactly if it was partial. -/
theorem clearBlanksAndRestoresTheMode : Obligations.ClearBlanksAndRestoresTheMode := by
  rintro s m i fs haccepts hmode rfl hready
  rw [List.append_assoc] at hready ⊢
  have hsave := Drives.saveAndSetFull (s := s.started) hmode .clear 0
    (.init :: .frame (ramFrame blankBitmap) :: updateTasks ++ [.restoreMode])
  obtain ⟨k, hblank⟩ := Drives.initBlankAndUpdate
    (s := { s.started with saved := .holds m, partialMode := .holds false, initialized := .holds (!m && i) }) rfl .clear 0
    [.restoreMode] hready
  have hrestore := Drives.line (x := .restoreMode) rfl (State.markInitialized (State.sentFrames
    { s.started with saved := .holds m, partialMode := .holds false, initialized := .holds (!m && i) }
    (initFrames s.cfg false ++ ([ramFrame blankBitmap] ++ updateFrames)) .cmd)) .clear k []
  have hend := operate_ends (ts := clearTasks) haccepts ((hsave.trans hblank).trans hrestore) (by decide)
  refine congrArg Host.Outcome.next (hend.trans ?_)
  cases m <;> rfl

end Sys2Proof.Machine
end

