-- ==== Sys2Proof/Proofs/TransitionTable.lean ====
section
/-! PROOFS. The transition table of the eight operations, row by row (R130). -/

namespace Sys2Proof.Machine

/-! ### The columns of the table -/

/-- A row that is the same in every column. -/
theorem tableRow_same {α : Type} (a : α) (m i : Bool) : tableRow a a a a m i = a := by
  cases m <;> cases i <;> rfl

/-- A row that depends on the mode alone. -/
theorem tableRow_mode {α : Type} (p f : α) (m i : Bool) : tableRow p f p f m i = if m then p else f := by
  cases m <;> cases i <;> rfl

/-- The frames of a row with ENSURE_INIT: INIT in the present mode where the block is not initialised (R111). -/
theorem tableRow_ensureFrames (c : Config) (gs : List (List Byte)) (m i : Bool) :
    tableRow (initFrames c true ++ gs) (initFrames c false ++ gs) gs gs m i = ensureFrames c m i ++ gs := by
  cases m <;> cases i <;> rfl

/-- Settles O28: each row is read off what the operation is settled to do; ENSURE_INIT sends INIT in the two columns that are
not initialised. -/
theorem transitionTable : Obligations.TransitionTable := by
  intro s m i haccepts hmode hclears hanswers
  have hready (fs : List (List Byte)) : s.readyFor fs := hanswers _ _
  refine ⟨?new, ?reset, ?setPartial, ?setFull, ?clear, fun fb b hb => ?setDisplay, ?update, ?powerOff⟩
  case new =>
    refine ⟨_, newPulsesResetAndConstructs s haccepts.1, ?_, rfl, rfl, rfl⟩
    rw [tableRow_same]
    exact ⟨rfl, rfl⟩
  case reset =>
    refine ⟨_, resetPulsesAndKeepsTheMode s haccepts, ?_, rfl, rfl, rfl⟩
    rw [tableRow_mode, hclears]
    cases m <;> exact ⟨hmode.1, rfl⟩
  case setPartial =>
    refine ⟨_, setPartialWritesOnlyOnAChange s m i haccepts hmode, ?_, rfl, rfl, (List.append_nil _).symm⟩
    cases m <;> cases i <;> exact ⟨rfl, rfl⟩
  case setFull =>
    refine ⟨_, setFullWritesOnlyOnAChange s m i haccepts hmode, ?_, rfl, rfl, (List.append_nil _).symm⟩
    cases m <;> cases i <;> exact ⟨rfl, rfl⟩
  case clear =>
    refine ⟨_, clearBlanksAndRestoresTheMode s m i _ haccepts hmode rfl (hready _), ?_, rfl, rfl, ?_⟩
    · rw [tableRow_mode]
      cases m <;> exact ⟨rfl, rfl⟩
    · rw [tableRow_same]
      rfl
  case setDisplay =>
    refine ⟨_, setDisplayInitialisesIfNeededAndStreams s m i fb b _ haccepts hmode hb rfl (hready _), ?_, rfl, rfl, ?_⟩
    · rw [tableRow_mode]
      cases m <;> exact ⟨hmode.1, rfl⟩
    · rw [tableRow_ensureFrames]
      rfl
  case update =>
    refine ⟨_, updateInitialisesIfNeededAndRefreshes s m i _ haccepts hmode rfl (hready _), ?_, rfl, rfl, ?_⟩
    · rw [tableRow_mode]
      cases m <;> exact ⟨hmode.1, rfl⟩
    · rw [tableRow_ensureFrames]
      rfl
  case powerOff =>
    refine ⟨_, powerOffSendsThePowerSequence s haccepts (hready _), ?_, rfl, rfl, ?_⟩
    · rw [tableRow_mode]
      cases m <;> exact ⟨hmode.1, rfl⟩
    · rw [tableRow_same]
      rfl

end Sys2Proof.Machine
end

