-- ==== Sys2Proof/Proofs/Waits.lean ====
section
/-! PROOFS. The busy-wait: how long it holds the block, and what comes after it (R85, R89, R93, R162). -/

namespace Sys2Proof.Machine

/-! ### The wait -/

/-- `s` after `m` polls answered busy (R82, R85). -/
def State.waited (s : State) (m : Nat) : State :=
  { s.answered m 0 with trace := s.trace ++ List.replicate m (.busy true) }

/-- A step of an operation whose next line is micro-operations runs them. -/
theorem step_micros {s : State} {op : Instr} {k : Nat} {ms : List Micro} {todo : List Task}
    (hs : s.seq = .run op k (.micros ms :: todo)) : step s = .next (runMicros ms (s.popTo op k todo)).state := by
  simp only [step, hs, nextTask_of_micros hs rfl]
  rfl

/-- A poll answered busy, while `BUSY_BOUND` allows it, leaves the block at the wait (R85). -/
theorem step_busy {s : State} {op : Instr} {k n : Nat} {ms : List Micro} {todo : List Task}
    (hs : s.seq = .run op k (.micros (.poll n :: ms) :: todo)) (hbusy : s.busyAnswer 0 = true)
    (hbound : boundReached s.cfg (n + 1) = false) :
    step s = .next ((s.waited 1).popTo op k (.micros (.poll (n + 1) :: ms) :: todo)) := by
  have hbusy' : (s.popTo op k todo).busyAnswer 0 = true := hbusy
  rw [step_micros hs, runMicros, if_pos hbusy', State.popTo_cfg, hbound]
  simp [Progress.state, State.push, State.popTo, State.afterPoll, State.waited, State.answered]

/-- As many polls answered busy as `BUSY_BOUND` allows leave the block at the wait, one poll a step (R85, R162). -/
theorem steps_busy {m n : Nat} {s : State} {op : Instr} {k : Nat} {ms : List Micro} {todo : List Task}
    (hs : s.seq = .run op k (.micros (.poll n :: ms) :: todo)) (hbusy : ∀ i < m, s.busyAnswer i = true)
    (hbound : boundReached s.cfg (n + m) = false) :
    steps m s = .next ((s.waited m).popTo op k (.micros (.poll (n + m) :: ms) :: todo)) := by
  induction m generalizing s n with
  | zero => simp [steps, State.waited, State.answered, State.popTo, ← hs]
  | succ m ih =>
    have hone := step_busy hs (hbusy 0 (by omega)) (boundReached_mono (by omega) hbound)
    have hanswers (i : Nat) : ((s.waited 1).popTo op k (.micros (.poll (n + 1) :: ms) :: todo)).busyAnswer i
        = s.busyAnswer (1 + i) := busyAnswer_shift rfl rfl i
    rw [steps_succ hone, ih (n := n + 1) rfl (fun i hi => by rw [hanswers]; exact hbusy (1 + i) (by omega))
      (by rw [Nat.add_assoc, Nat.add_comm 1]; exact hbound)]
    simp [State.waited, State.answered, State.popTo, List.replicate_succ, Nat.add_comm, Nat.add_left_comm]

/-- Settles O17: without a bound every busy answer is allowed. -/
theorem busyControllerHoldsTheBlock : Obligations.BusyControllerHoldsTheBlock := by
  intro m s op k n ms todo hnone hs hbusy
  exact steps_busy hs hbusy (by simp [boundReached, hnone])

/-! ### A frame up to its wait -/

/-- The micro-operations of a frame after its wait (R86, R87). -/
def frameRest (op : Byte) (payload : List Byte) : List Micro :=
  .dc .cmd :: .tx op :: ((if payload = [] then [] else .dc .data :: payload.map .tx) ++ [.cs .inact])

theorem frameMicros_eq (op : Byte) (payload : List Byte) :
    frameMicros op payload = .cs .act :: .poll 0 :: frameRest op payload := frameMicros_cons op payload

/-- `s` inside a frame, at its first poll (R86, R87). -/
def State.atPoll (s : State) (o : Instr) (k : Nat) (op : Byte) (payload : List Byte) (todo : List Task) : State :=
  (s.pinCs .act).popTo o (k + 1) (.micros (.poll 0 :: frameRest op payload) :: todo)

section
variable {s : State} {o : Instr} {k : Nat} {op : Byte} {payload : List Byte} {todo : List Task}

/-- The first line of a frame is its chip-select, then its wait begins. -/
theorem nextTask_atPoll (hs : s.seq = .run o k (.frame (op :: payload) :: todo)) :
    nextTask s = nextTask (s.atPoll o k op payload todo) := by
  rw [nextTask_of_micros hs rfl, nextTask_of_micros (s := s.atPoll o k op payload todo) rfl rfl, Task.toMicros,
    frameMicros_eq]
  rfl

/-- A frame of the fifteen commands takes the step that its wait takes (R22, R92). -/
theorem step_atPoll (hs : s.seq = .run o k (.frame (op :: payload) :: todo))
    (hd : (Task.frame (op :: payload)).decodes = true) : step s = step (s.atPoll o k op payload todo) := by
  have hstep := step_of_decodes (s := s) (by simp [hs]) fun x rest hx => by
    obtain rfl : Task.frame (op :: payload) = x := by simpa [hs, Seq.todo] using congrArg List.head? hx
    exact hd
  rw [hstep, nextTask_atPoll hs, step_micros (s := s.atPoll o k op payload todo) rfl,
    nextTask_of_micros (s := s.atPoll o k op payload todo) rfl rfl]
  rfl

end

/-- The frame of a well-formed command decodes (R53, R60). -/
theorem decodes_frameBytes {i : Instr} {op : Byte} {payload : List Byte} (hwf : i.wellFormed = true)
    (hf : frameBytes i = op :: payload) : (Task.frame (op :: payload)).decodes = true := by
  have hdec := encodedInstructionDecodesToItself i hwf
  unfold frameBytes at hf
  split at hf
  · rename_i bytes henc
    rw [henc, hf] at hdec
    rw [Task.decodes, show decodeFrame (op :: payload) = .ok i from hdec]
    rfl
  · cases hf

/-- Settles O19: the wait goes on for `n - 1` steps, and the next busy answer is one more than `BUSY_BOUND` allows. -/
theorem boundedWaitGivesUp : Obligations.BoundedWaitGivesUp := by
  intro n i s o k op payload todo hbound hn hwf hf hs hbusy
  obtain ⟨m, rfl⟩ : ∃ m, n = m + 1 := ⟨n - 1, by omega⟩
  have hbusy' (j : Nat) (hj : j < m + 1) : (s.atPoll o k op payload todo).busyAnswer j = true := hbusy j hj
  have hwait := steps_busy (m := m) (n := 0) (s := s.atPoll o k op payload todo) rfl (fun j hj => hbusy' j (by omega))
    (by simp [boundReached, State.atPoll, hbound])
  have hlast : (((s.atPoll o k op payload todo).waited m).popTo o (k + 1) todo).busyAnswer 0 = true := by
    rw [busyAnswer_shift (s := s.atPoll o k op payload todo) (n := m) rfl rfl]
    exact hbusy' m (by omega)
  have hreached : boundReached s.cfg (0 + m + 1) = true := by simp [boundReached, hbound]
  have hgives : runMicros (.poll (0 + m) :: frameRest op payload) (((s.atPoll o k op payload todo).waited m).popTo o (k + 1) todo)
      = .on (((((s.atPoll o k op payload todo).waited m).popTo o (k + 1) todo).afterPoll true).raise .deviceNotResponding) := by
    rw [runMicros, if_pos hlast]
    exact if_pos hreached
  have hstep : step s = step (s.atPoll o k op payload todo) := step_atPoll hs (decodes_frameBytes hwf hf)
  have hsteps : steps (m + 1) s = steps (m + 1) (s.atPoll o k op payload todo) := by rw [steps, hstep, ← steps]
  rw [hsteps, steps_add 1 hwait, steps_one (step_micros rfl), popTo_popTo, hgives]
  simp [Progress.state, State.raise, State.afterPoll, State.waited, State.answered, State.atPoll, State.popTo, State.pinCs,
    List.replicate_succ', Nat.add_assoc]

/-! ### After the wait -/

/-- A poll answered ready lets the micro-operations after it go on (R85). -/
theorem runMicros_ready {s : State} {n : Nat} {ms : List Micro} (h : s.busyAnswer 0 = false) :
    runMicros (.poll n :: ms) s = runMicros ms (s.afterPoll false).tick := by
  rw [runMicros, if_neg (by simp [h])]

/-- `s` after a wait of `p` busy answers and a ready one. -/
def State.polled (s : State) (p : Nat) : State := ((s.waited p).afterPoll false).tick

/-- A wait of `p` busy answers, which `BUSY_BOUND` allows, takes `p` steps, and the ready answer lets the next step go on. -/
theorem steps_through_wait {p : Nat} {s : State} {op : Instr} {k : Nat} {ms : List Micro} {todo : List Task}
    (hs : s.seq = .run op k (.micros (.poll 0 :: ms) :: todo)) (hbusy : ∀ i < p, s.busyAnswer i = true)
    (hready : s.busyAnswer p = false) (hbound : boundReached s.cfg p = false) :
    steps (p + 1) s = .next (runMicros ms ((s.popTo op k todo).polled p)).state := by
  have hwait := steps_busy (n := 0) hs hbusy (by rwa [Nat.zero_add])
  have hready' : ((s.waited p).popTo op k todo).busyAnswer 0 = false := by
    rw [busyAnswer_shift (s := s) (n := p) rfl rfl]
    exact hready
  rw [steps_add 1 hwait, steps_one (step_micros rfl), popTo_popTo, runMicros_ready hready']
  rfl

/-- After its wait a frame whose bytes all go out makes the rest of its events (R86, R87, R91). -/
theorem runMicros_frameRest (op : Byte) (payload : List Byte) (s : State)
    (h : ∀ j < 1 + payload.length, s.busAnswer j = none) :
    runMicros (frameRest op payload) s = .on
      { s.answered 0 (1 + payload.length) with
        cs := .holds .inact
        dc := .holds (dcAfter (op :: payload))
        trace := s.trace ++ (frameTrace (op :: payload)).drop 2
        seq := s.seq.advance ((frameTrace (op :: payload)).length - 2) } := by
  have hop : (s.pinDc .cmd).busAnswer 0 = none := h 0 (by omega)
  rw [frameRest, runMicros, runMicros, hop]
  by_cases hpl : payload = []
  · simp [hpl, runMicros, State.afterTx, State.pinCs, State.pinDc, State.answered, frameTrace_cons, dcAfter, Seq.tick_eq]
  · have hbytes (j : Nat) (hj : j < payload.length) :
        (((s.pinDc .cmd).afterTx op none).pinDc .data).busAnswer j = none := by
      rw [busAnswer_shift (s := s) (n := 1) rfl rfl]
      exact h (1 + j) (by omega)
    simp only [hpl, if_false, List.cons_append, runMicros, runMicros_bytes payload _ _ hbytes]
    simp [State.bytesOut, State.afterTx, State.pinCs, State.pinDc, State.answered, frameTrace_cons, dcAfter, Seq.tick_eq, hpl]
    exact ⟨by congr 1; omega, by omega⟩

/-- Settles O18: the wait takes `p` steps, and the step after the ready answer sends the rest of the frame. -/
theorem frameGoesOutAfterTheWait : Obligations.FrameGoesOutAfterTheWait := by
  intro p i s o k op payload todo hwf hf hs hbound hbusy hready hbytes
  have hstep : step s = step (s.atPoll o k op payload todo) := step_atPoll hs (decodes_frameBytes hwf hf)
  have hsteps : steps (p + 1) s = steps (p + 1) (s.atPoll o k op payload todo) := by rw [steps, hstep, ← steps]
  have hwait := steps_through_wait (s := s.atPoll o k op payload todo) rfl hbusy hready hbound
  have hbytes' (j : Nat) (hj : j < 1 + payload.length) :
      (((s.atPoll o k op payload todo).popTo o (k + 1) todo).polled p).busAnswer j = none := by
    have hsame := busAnswer_shift (s := s) (t := ((s.atPoll o k op payload todo).popTo o (k + 1) todo).polled p) (n := 0)
      rfl rfl j
    rw [hsame, Nat.zero_add]
    exact hbytes j hj
  rw [hsteps, hwait, runMicros_frameRest op payload _ hbytes']
  simp [Progress.state, State.polled, State.waited, State.atPoll, State.answered, State.popTo, State.pinCs, State.afterPoll,
    State.tick]
  have hlen : 2 ≤ (frameTrace (op :: payload)).length := by simp [frameTrace_cons]
  exact ⟨by omega, by omega, by simp [frameTrace_cons, frameTraceAfter]⟩

end Sys2Proof.Machine
end

