-- ==== Sys2Proof/Proofs/Pins.lean ====
section
/-! PROOFS. The pin view of a trace (R10, D20). -/

namespace Sys2Proof.Machine

section
variable {cs : Latch CsLevel} {dc : Latch DcLevel} {rst : Latch Level} {e : Event}

/-- A redundant write does not show. -/
theorem pinView_cons_redundant (h : e.redundant cs dc rst = true) (es : List Event) :
    pinView cs dc rst (e :: es) = pinView cs dc rst es := by
  obtain ⟨hcs, hdc, hrst⟩ := redundant_latches h
  rw [pinView, if_pos h, hcs, hdc, hrst, List.nil_append]

/-- Every other event does. -/
theorem pinView_cons_shown (h : e.redundant cs dc rst = false) (es : List Event) :
    pinView cs dc rst (e :: es) = e :: pinView (lastCs cs [e]) (lastDc dc [e]) (lastRst rst [e]) es := by
  rw [pinView, if_neg (by simp [h]), List.singleton_append]

/-- A redundant event is no bus byte. -/
theorem isBus_of_redundant (h : e.redundant cs dc rst = true) : e.isBus = false := by
  cases e
  case tx b => cases h
  case txFailed b x => cases h
  all_goals rfl

end

/-- The pin view leaves the latches at the levels of the trace. -/
theorem pinView_latches (cs : Latch CsLevel) (dc : Latch DcLevel) (rst : Latch Level) (es : List Event) :
    lastCs cs (pinView cs dc rst es) = lastCs cs es ∧ lastDc dc (pinView cs dc rst es) = lastDc dc es
      ∧ lastRst rst (pinView cs dc rst es) = lastRst rst es := by
  induction es generalizing cs dc rst with
  | nil => exact ⟨rfl, rfl, rfl⟩
  | cons e es ih =>
    rw [lastCs_cons cs e es, lastDc_cons dc e es, lastRst_cons rst e es]
    cases h : e.redundant cs dc rst with
    | true =>
      obtain ⟨hcs, hdc, hrst⟩ := redundant_latches h
      rw [pinView_cons_redundant h, hcs, hdc, hrst]
      exact ih cs dc rst
    | false =>
      rw [pinView_cons_shown h, lastCs_cons cs e (pinView _ _ _ es), lastDc_cons dc e (pinView _ _ _ es),
        lastRst_cons rst e (pinView _ _ _ es)]
      exact ih _ _ _

/-- The pin view keeps the bus events. -/
theorem transport_pinView (cs : Latch CsLevel) (dc : Latch DcLevel) (rst : Latch Level) (es : List Event) :
    transport (pinView cs dc rst es) = transport es := by
  induction es generalizing cs dc rst with
  | nil => rfl
  | cons e es ih =>
    cases h : e.redundant cs dc rst with
    | true => rw [pinView_cons_redundant h, ih, transport_cons, isBus_of_redundant h, if_neg (by simp)]
    | false => rw [pinView_cons_shown h, transport_cons, ih, transport_cons]

/-- The pin view has no redundant write left. -/
theorem pinView_pinView (cs : Latch CsLevel) (dc : Latch DcLevel) (rst : Latch Level) (es : List Event) :
    pinView cs dc rst (pinView cs dc rst es) = pinView cs dc rst es := by
  induction es generalizing cs dc rst with
  | nil => rfl
  | cons e es ih =>
    cases h : e.redundant cs dc rst with
    | true => rw [pinView_cons_redundant h, ih]
    | false => rw [pinView_cons_shown h, pinView_cons_shown h, ih]

/-- Settles O55: a redundant write is left out wherever it stands, every other event shows, and the `CS=act` of a frame is
redundant exactly if the line is active. -/
theorem redundantPinWritesDoNotShow : Obligations.RedundantPinWritesDoNotShow := by
  refine ⟨fun cs dc rst es fs e h => ?_, fun cs dc rst es => ?_, fun op payload dc rst => ?_⟩
  · rw [pinView_append, pinView_append, pinView_cons_redundant h]
  · obtain ⟨hcs, hdc, hrst⟩ := pinView_latches cs dc rst es
    exact ⟨hcs, hdc, hrst, transport_pinView cs dc rst es, pinView_pinView cs dc rst es⟩
  · obtain ⟨es, hes⟩ : ∃ es, frameTrace (op :: payload) = .cs .act :: es := ⟨_, frameTrace_cons op payload⟩
    rw [hes, pinView_cons_redundant (by simp [Event.redundant]), pinView_cons_shown (by simp [Event.redundant])]
    rfl

end Sys2Proof.Machine
end

