-- ==== Sys2Proof/Proofs/BigStep.lean ====
section
/-! PROOFS. What `exec` does in one go the steps of the sequencer come to (R22). -/

namespace Sys2Proof.Machine

/-- The frames at the sequencer are frames of the fifteen commands, and INIT's will be (R61, R92). -/
structure State.Known (s : State) : Prop where
  config : s.cfg.valid = true
  frames : ∀ x ∈ s.seq.todo, x.decodes = true

/-- The next line keeps it. -/
theorem State.Known.nextTask {s : State} (h : s.Known) : (nextTask s).state.Known where
  config := by rw [(SameHost.kept.nextTask s).cfg]; exact h.config
  frames := by
    intro y hy
    rcases mem_todo_nextTask hy with hy | ⟨x, -, hy⟩ | ⟨x, -, n, ms, rfl, -⟩
    · exact h.frames y hy
    · exact List.all_eq_true.mp (expand_decodes h.config x) y hy
    · rfl

/-- A running operation steps by its next line. -/
theorem State.Known.step {s : State} (h : s.Known) (hs : s.seq ≠ .idle) : step s = .next (Machine.nextTask s).state :=
  step_of_decodes hs fun x rest hx => h.frames x (by simp [hx])

/-- The start of an operation of the ControllerDriver. -/
theorem State.Known.start {s : State} (h : s.cfg.valid = true) (i : Instr) : (s.start i (linesOf i s)).Known :=
  ⟨h, fun x hx => List.all_eq_true.mp (linesOf_decodes i s) x hx⟩

/-- At most `n` steps come to what `n` lines do. -/
theorem steps_drive (n : Nat) {s : State} (h : s.Known) : ∃ m ≤ n, steps m s = .next (drive n s) := by
  induction n generalizing s with
  | zero => exact ⟨0, le_rfl, rfl⟩
  | succ n ih =>
    by_cases hs : s.seq = .idle
    · exact ⟨0, Nat.zero_le _, by rw [drive_idle _ s hs]; rfl⟩
    · have hstep := h.step hs
      have hnext := h.nextTask
      rw [drive]
      cases ht : Machine.nextTask s with
      | on t =>
        rw [ht] at hstep hnext
        obtain ⟨m, hm, hsteps⟩ := ih hnext
        exact ⟨m + 1, by omega, by rw [steps_succ hstep]; exact hsteps⟩
      | waiting t =>
        rw [ht] at hstep
        exact ⟨1, by omega, steps_one hstep⟩

/-- An accepted operation of the ControllerDriver performs its lines in one go (R22, R120, R133). -/
theorem exec_accepted {i : Instr} {s : State} (hi : isControllerOp i = true) (hidle : s.seq = .idle)
    (hacc : i = .new ∨ s.constructed = true) (hfb : ∀ fb, i = .setDisplay fb → s.bufs[fb]?.isSome = true) :
    exec i s = .next (drive driveFuel (s.start i (linesOf i s))) := by
  have hoperate (hne : i ≠ .new) (ts : List Task) : s.operate i ts = drive driveFuel (s.start i ts) :=
    operate_accepted s i ts ⟨hidle, hacc.resolve_left hne⟩
  cases i
  case new => exact congrArg Host.Outcome.next (if_pos hidle)
  case setDisplay fb =>
    obtain ⟨b, hb⟩ := Option.isSome_iff_exists.mp (hfb fb rfl)
    simp [exec, execSetDisplay, linesOf, hb, hoperate]
  case reset | setPartial | setFull | clear | update | powerOff =>
    exact congrArg Host.Outcome.next (hoperate (by simp) _)
  all_goals cases hi

/-- Settles O51: the operation performs its lines in one go, and each line is a step. -/
theorem bigStepAgreesWithSmallSteps : Obligations.BigStepAgreesWithSmallSteps := by
  intro i s t hi hvalid hidle hacc hfb hexec
  rw [exec_accepted hi hidle hacc hfb] at hexec
  cases hexec
  exact steps_drive driveFuel (.start hvalid i)

end Sys2Proof.Machine
end

