-- ==== Sys2Proof/Proofs/CutTraces.lean ====
section
/-! PROOFS. The events of a run cut off at a failed byte (R88, R141). -/

namespace Sys2Proof.Machine

/-! ### Where the cut falls -/

/-- A byte of the first events fails, or they all happen and a later byte fails. -/
theorem cutAt_append (e : TransportErr) (k : Nat) (es fs : List Event) :
    cutAt e k (es ++ fs)
      = if k < (bytesSent es).length then cutAt e k es else es ++ cutAt e (k - (bytesSent es).length) fs := by
  induction es generalizing k with
  | nil => simp [bytesSent]
  | cons x es ih =>
    cases x
    case tx b =>
      cases k with
      | zero => simp [cutAt, bytesSent]
      | succ k => by_cases h : k < (bytesSent es).length <;> simp [cutAt, ih k, bytesSent, h]
    all_goals by_cases h : k < (bytesSent es).length <;> simp [cutAt, ih k, bytesSent, h]

/-- Payload byte `pre.length` fails, those before it went out. -/
theorem cutAt_payload (e : TransportErr) (pre : List Byte) (b : Byte) (post : List Byte) (fs : List Event) :
    cutAt e pre.length ((pre ++ b :: post).map .tx ++ fs) = pre.map .tx ++ [.txFailed b e] := by
  rw [List.map_append, List.append_assoc, cutAt_append, if_neg (by simp), bytesSent_payload, Nat.sub_self]
  rfl

/-- The bytes of a payload before byte `n` and after it. -/
theorem exists_split_at {payload : List Byte} {n : Nat} (h : n < payload.length) :
    ∃ pre b post, payload = pre ++ b :: post ∧ n = pre.length :=
  ⟨payload.take n, payload[n], payload.drop (n + 1), by simp, by simp; omega⟩

/-- The opcode byte of a frame fails. -/
theorem cutAt_frame_opcode (e : TransportErr) (op : Byte) (payload : List Byte) :
    cutAt e 0 (frameTrace (op :: payload)) = [.cs .act, .busy false, .dc .cmd, .txFailed op e] := by
  rw [frameTrace_cons]
  rfl

/-- A payload byte of a frame fails. -/
theorem cutAt_frame_payload (e : TransportErr) (op : Byte) (pre : List Byte) (b : Byte) (post : List Byte) :
    cutAt e (1 + pre.length) (frameTrace (op :: (pre ++ b :: post)))
      = [.cs .act, .busy false, .dc .cmd, .tx op, .dc .data] ++ pre.map .tx ++ [.txFailed b e] := by
  have hcut := cutAt_payload e pre b post [.cs .inact]
  rw [frameTrace_cons, if_neg (by simp), Nat.add_comm]
  simpa [cutAt] using hcut

/-- A byte of the first frames fails, or they go out and a later byte fails. -/
theorem cutAt_frames (e : TransportErr) (k : Nat) (fs gs : List (List Byte)) :
    cutAt e k (framesTrace (fs ++ gs))
      = if k < fs.flatten.length then cutAt e k (framesTrace fs)
        else framesTrace fs ++ cutAt e (k - fs.flatten.length) (framesTrace gs) := by
  rw [framesTrace_append, cutAt_append, bytesSent_framesTrace]

/-! ### What the cut shows -/

/-- No byte of these events failed. -/
def noFailure (es : List Event) : Prop := ∀ b e, Event.txFailed b e ∉ es

/-- At the transport level the first `k` bytes are seen, and then the failed one (R10). -/
theorem transport_cutAt {e : TransportErr} {k : Nat} {es : List Event} (hes : noFailure es)
    (hk : k < (bytesSent es).length) :
    ∃ b, (bytesSent es)[k]? = some b
      ∧ transport (cutAt e k es) = ((bytesSent es).take k).map .tx ++ [.txFailed b e] := by
  induction es generalizing k with
  | nil => simp [bytesSent] at hk
  | cons x es ih =>
    have hes' : noFailure es := fun b y hy => hes b y (List.mem_cons_of_mem x hy)
    cases x
    case tx b =>
      cases k with
      | zero => exact ⟨b, rfl, rfl⟩
      | succ k =>
        obtain ⟨b', hb, htransport⟩ := ih hes' (Nat.lt_of_succ_lt_succ hk)
        exact ⟨b', hb, by simp [cutAt, bytesSent, transport_cons, Event.isBus, htransport]⟩
    case txFailed b y => exact absurd (List.mem_cons_self ..) (hes b y)
    all_goals
      obtain ⟨b', hb, htransport⟩ := ih hes' hk
      exact ⟨b', hb, by simp [cutAt, bytesSent, transport_cons, Event.isBus, htransport]⟩

theorem framesTrace_noFailure (fs : List (List Byte)) : noFailure (framesTrace fs) := by
  intro b e h
  obtain ⟨f, -, h⟩ := List.mem_flatMap.mp h
  cases f with
  | nil => cases h
  | cons op payload =>
    rw [frameTrace_cons] at h
    by_cases hpl : payload = [] <;> simp [hpl] at h

theorem lastCs_payload (l : Latch CsLevel) (bs : List Byte) : lastCs l (bs.map .tx) = l := by
  induction bs with
  | nil => rfl
  | cons b bs ih => exact ih

/-- Where a byte of a frame fails chip-select is active (R88, R141). -/
theorem lastCs_cutAt_frame (l : Latch CsLevel) {e : TransportErr} {k : Nat} {f : List Byte} (hk : k < f.length) :
    lastCs l (cutAt e k (frameTrace f)) = .holds .act := by
  match f, k with
  | op :: payload, 0 => rw [cutAt_frame_opcode]; rfl
  | op :: payload, j + 1 =>
    obtain ⟨pre, b, post, rfl, rfl⟩ := exists_split_at (Nat.lt_of_succ_lt_succ hk)
    rw [Nat.add_comm, cutAt_frame_payload, lastCs_append, lastCs_append, lastCs_payload]
    rfl

/-- Where a byte of a row of frames fails chip-select is active. -/
theorem lastCs_cutAt_frames (l : Latch CsLevel) {e : TransportErr} {k : Nat} {fs : List (List Byte)}
    (hk : k < fs.flatten.length) : lastCs l (cutAt e k (framesTrace fs)) = .holds .act := by
  induction fs generalizing l k with
  | nil => simp at hk
  | cons f fs ih =>
    have hcut := cutAt_frames e k [f] fs
    simp only [List.singleton_append, List.flatten_cons, List.flatten_nil, List.append_nil] at hcut
    rw [hcut]
    by_cases hf : k < f.length
    · rw [if_pos hf, show framesTrace [f] = frameTrace f by simp [framesTrace]]
      exact lastCs_cutAt_frame l hf
    · rw [if_neg hf, lastCs_append]
      exact ih _ (by rw [List.flatten_cons, List.length_append] at hk; omega)

end Sys2Proof.Machine
end

