-- ==== Sys2Proof/Proofs/Failures.lean ====
section
/-! PROOFS. An operation with the controller ready and one byte that fails: where it stops, and with which flags (R88, R138
to R141). -/

namespace Sys2Proof.Machine

/-- `t` is idle after the failure `e` (R139), with the trace `tr` and these flags. -/
structure FailedWith (e : TransportErr) (t : State) (tr : List Event) (isPartial isInitialized : Bool) : Prop where
  seq : t.seq = .idle
  response : t.response = some (.err (.transport e))
  saved : t.saved = .unwritten
  trace : t.trace = tr
  mode : t.inMode isPartial isInitialized

/-! ### The environment that fails byte `j` -/

section
variable {s : State} {fs gs : List (List Byte)} {j : Nat} {e : TransportErr}

/-- The failing byte is one of the first frames. -/
theorem failsAt_left (h : s.failsAt (fs ++ gs) j e) : s.failsAt fs j e := by
  obtain ⟨⟨hpolls, hbytes⟩, hfails⟩ := h
  exact ⟨⟨fun i hi => hpolls i (by rw [List.length_append]; omega), hbytes⟩, hfails⟩

/-- The failing byte comes after the first frames, which go out. -/
theorem readyFor_of_failsAt (h : s.failsAt (fs ++ gs) j e) (hj : ¬ j < fs.flatten.length) : s.readyFor fs := by
  obtain ⟨⟨hpolls, hbytes⟩, -⟩ := h
  exact ⟨fun i hi => hpolls i (by rw [List.length_append]; omega), fun i hi => hbytes i (by omega)⟩

/-- When the first frames have gone out it is a byte of the rest. -/
theorem failsAt_right (h : s.failsAt (fs ++ gs) j e) (hj : ¬ j < fs.flatten.length) (d : DcLevel) :
    (s.sentFrames fs d).failsAt gs (j - fs.flatten.length) e := by
  obtain ⟨⟨hpolls, hbytes⟩, hfails⟩ := h
  have hpoll (i : Nat) : (s.sentFrames fs d).busyAnswer i = s.busyAnswer (fs.length + i) := busyAnswer_shift rfl rfl i
  have hbyte (i : Nat) : (s.sentFrames fs d).busAnswer i = s.busAnswer (fs.flatten.length + i) := busAnswer_shift rfl rfl i
  refine ⟨⟨fun i hi => ?_, fun i hi => ?_⟩, ?_⟩
  · rw [hpoll]; exact hpolls _ (by rw [List.length_append]; omega)
  · rw [hbyte]; exact hbytes _ (by omega)
  · rw [hbyte, Nat.add_sub_cancel' (by omega)]; exact hfails

end

/-! ### Frames that fail -/

/-- A frame with a byte that fails. -/
theorem runMicros_frame_fails {s : State} {op : Byte} {payload : List Byte} {j : Nat} {e : TransportErr} {m i : Bool}
    (hmode : s.inMode m i) (hj : j < (op :: payload).length) (h : s.failsAt [op :: payload] j e) :
    ∃ t, runMicros (frameMicros op payload) s = .on t
      ∧ FailedWith e t (s.trace ++ cutAt e j (frameTrace (op :: payload))) m i := by
  obtain ⟨⟨hpolls, hbytes⟩, hfails⟩ := h
  have hpoll : s.busyAnswer 0 = false := hpolls 0 (by simp)
  match j with
  | 0 =>
    refine ⟨_, runMicros_frame_opcode_fails op payload s e hpoll hfails, rfl, rfl, rfl, ?_, hmode⟩
    rw [cutAt_frame_opcode]
    simp [State.opened]
  | n + 1 =>
    obtain ⟨pre, b, post, rfl, rfl⟩ := exists_split_at (Nat.lt_of_succ_lt_succ hj)
    rw [Nat.add_comm] at hbytes hfails ⊢
    rw [cutAt_frame_payload]
    refine ⟨_, runMicros_frame_payload_fails op pre b post s e hpoll hbytes hfails, rfl, rfl, rfl, ?_, hmode⟩
    simp [State.bytesOut, State.opened]

/-- A row of frames with a byte that fails: those before its frame go out, none after it is begun (R88, R131, R138). -/
theorem Drives.frames_fail {fs : List (List Byte)} {s : State} {j : Nat} {e : TransportErr} {m i : Bool} (op : Instr) (k : Nat)
    (todo : List Task) (hne : ∀ f ∈ fs, f ≠ []) (hmode : s.inMode m i) (hj : j < fs.flatten.length)
    (h : s.failsAt fs j e) :
    ∃ t, Drives fs.length (s.popTo op k (fs.map .frame ++ todo)) t
      ∧ FailedWith e t (s.trace ++ cutAt e j (framesTrace fs)) m i := by
  induction fs generalizing s j k with
  | nil => simp at hj
  | cons f fs ih =>
    obtain ⟨b, bs, rfl⟩ := List.exists_cons_of_ne_nil (hne f (List.mem_cons_self ..))
    have hfirst : [b :: bs].flatten.length = (b :: bs).length := by simp
    have hcut := cutAt_frames e j [b :: bs] fs
    rw [hfirst, List.singleton_append] at hcut
    rw [hcut]
    have h' : s.failsAt ([b :: bs] ++ fs) j e := h
    by_cases hb : j < (b :: bs).length
    · obtain ⟨t, ht, hfailed⟩ := runMicros_frame_fails (s := s.popTo op k (fs.map .frame ++ todo)) hmode hb (failsAt_left h')
      refine ⟨t, fun n => ?_, by rw [if_pos hb, framesTrace, List.flatMap_singleton]; exact hfailed⟩
      have htask := (Drives.task (s := s) (op := op) (k := k) (x := .frame (b :: bs)) (todo := fs.map Task.frame ++ todo) ht)
        (n + fs.length)
      rw [drive_idle _ t hfailed.seq] at htask ⊢
      exact htask
    · have hready := readyFor_of_failsAt h' (by rwa [hfirst])
      have hsent := Drives.frames [] (b :: bs) s op k (fs.map .frame ++ todo) (by simp) hready
      have hrest := failsAt_right h' (by rwa [hfirst]) (dcAfter (b :: bs))
      rw [hfirst] at hrest
      obtain ⟨t, ht, hfailed⟩ := ih (s := s.sentFrames [b :: bs] (dcAfter (b :: bs)))
        (k + (framesTrace [b :: bs]).length) (fun f hf => hne f (List.mem_cons_of_mem _ hf)) hmode
        (by rw [List.flatten_cons, List.length_append] at hj; omega) hrest
      refine ⟨t, hsent.trans ht, ?_⟩
      rw [if_neg hb, ← List.append_assoc]
      exact hfailed

/-! ### INIT and ENSURE_INIT that fail -/

/-- A row of frames that goes out. -/
theorem Drives.row {fs : List (List Byte)} {s : State} (op : Instr) (k : Nat) (todo : List Task) (hfs : fs ≠ [])
    (hne : ∀ f ∈ fs, f ≠ []) (h : s.readyFor fs) :
    ∃ d k', Drives fs.length (s.popTo op k (fs.map .frame ++ todo)) ((s.sentFrames fs d).popTo op k' todo) := by
  obtain ⟨gs, f, rfl⟩ := (List.eq_nil_or_concat fs).resolve_left hfs
  rw [List.concat_eq_append] at *
  have hrun := Drives.frames gs f s op k todo hne h
  rw [List.length_append]
  exact ⟨_, _, hrun⟩

theorem initConfigFrames_ne_nil (c : Config) : ∀ f ∈ initConfigFrames c, f ≠ [] := by
  simp [initConfigFrames, frameBytes, encode]

theorem powerFrames_ne_nil : ∀ f ∈ powerFrames, f ≠ [] := by simp [powerFrames, frameBytes, encode]

theorem updateFrames_ne_nil : ∀ f ∈ updateFrames, f ≠ [] := by simp [updateFrames, frameBytes, encode]

/-- INIT is replaced by its lines (R110). -/
theorem Drives.initLines (s : State) (op : Instr) (k : Nat) (todo : List Task) :
    Drives 1 (s.popTo op k (.init :: todo)) (s.popTo op k ((initConfigFrames s.cfg).map .frame
      ++ .lutFrame :: (powerFrames.map .frame ++ .markInitialized :: todo))) := by
  have hrun := Drives.line (x := .init) rfl s op k todo
  simpa [Task.writes, Task.expand, initTasks] using hrun

/-- INIT with a byte that fails: the flags stay as they are (R112, R140). -/
theorem Drives.init_fails {s : State} {j : Nat} {e : TransportErr} {m i : Bool} (op : Instr) (k : Nat) (todo : List Task)
    (hmode : s.inMode m i) (hj : j < (initFrames s.cfg m).flatten.length) (h : s.failsAt (initFrames s.cfg m) j e) :
    ∃ n t, n ≤ 16 ∧ Drives n (s.popTo op k (.init :: todo)) t
      ∧ FailedWith e t (s.trace ++ cutAt e j (framesTrace (initFrames s.cfg m))) m i := by
  have hlines := Drives.initLines s op k todo
  rw [initFrames_eq] at hj h ⊢
  rw [cutAt_frames]
  by_cases hc : j < (initConfigFrames s.cfg).flatten.length
  · rw [if_pos hc]
    obtain ⟨t, ht, hfailed⟩ := Drives.frames_fail op k (.lutFrame :: (powerFrames.map .frame ++ .markInitialized :: todo))
      (initConfigFrames_ne_nil s.cfg) hmode hc (failsAt_left h)
    exact ⟨_, t, by simp [initConfigFrames_length], hlines.trans ht, hfailed⟩
  · rw [if_neg hc, ← List.append_assoc]
    obtain ⟨d, k1, hconfig⟩ := Drives.row op k (.lutFrame :: (powerFrames.map .frame ++ .markInitialized :: todo))
      (List.cons_ne_nil _ _) (initConfigFrames_ne_nil s.cfg) (readyFor_of_failsAt h hc)
    have hlut := Drives.line (x := .lutFrame) rfl (s.sentFrames (initConfigFrames s.cfg) d) op k1
      (powerFrames.map .frame ++ .markInitialized :: todo)
    obtain ⟨t, ht, hfailed⟩ := Drives.frames_fail (fs := [lutFrameBytes s.cfg m] ++ powerFrames)
      (s := s.sentFrames (initConfigFrames s.cfg) d) op k1 (.markInitialized :: todo)
      (by simp [lutFrameBytes, powerFrames, frameBytes, encode]) hmode
      (by rw [List.flatten_append, List.length_append] at hj; omega) (failsAt_right h hc d)
    obtain rfl : s.isPartial = m := s.isPartial_of m hmode.1
    exact ⟨_, t, by simp [powerFrames], ((hlines.trans hconfig).trans hlut).trans ht, hfailed⟩

/-- Frames after ENSURE_INIT with a byte that fails: the block is initialised if it was, or if the bytes of INIT have gone
out (R111, R140). -/
theorem Drives.ensureInit_fails {s : State} {j : Nat} {e : TransportErr} {m i : Bool} {gs : List (List Byte)} (op : Instr)
    (k : Nat) (todo : List Task) (hne : ∀ f ∈ gs, f ≠ []) (hmode : s.inMode m i)
    (hj : j < (ensureFrames s.cfg m i ++ gs).flatten.length) (h : s.failsAt (ensureFrames s.cfg m i ++ gs) j e) :
    ∃ n t, n ≤ 17 + gs.length ∧ Drives n (s.popTo op k (.ensureInit :: (gs.map .frame ++ todo))) t
      ∧ FailedWith e t (s.trace ++ cutAt e j (framesTrace (ensureFrames s.cfg m i ++ gs))) m
          (i || decide ((initFrames s.cfg m).flatten.length ≤ j)) := by
  cases i with
  | true =>
    have hskip := Drives.ensureInit_initialized s op k (gs.map .frame ++ todo) (s.isInitialized_of true hmode.2)
    obtain ⟨t, ht, hfailed⟩ := Drives.frames_fail op k todo hne hmode hj h
    exact ⟨_, t, by omega, hskip.trans ht, hfailed⟩
  | false =>
    simp only [ensureFrames, Bool.false_eq_true, if_false, Bool.false_or] at hj h ⊢
    have hinit := Drives.ensureInit_uninitialized s op k (gs.map .frame ++ todo) (s.isInitialized_of false hmode.2)
    rw [cutAt_frames]
    by_cases hc : j < (initFrames s.cfg m).flatten.length
    · rw [if_pos hc, decide_eq_false (by omega)]
      obtain ⟨n, t, hn, ht, hfailed⟩ := Drives.init_fails op k (gs.map .frame ++ todo) hmode hc (failsAt_left h)
      exact ⟨_, t, by omega, hinit.trans ht, hfailed⟩
    · rw [if_neg hc, decide_eq_true (by omega), ← List.append_assoc]
      obtain rfl : s.isPartial = m := s.isPartial_of m hmode.1
      have hsent := Drives.init s op k (gs.map .frame ++ todo) (readyFor_of_failsAt h hc)
      obtain ⟨t, ht, hfailed⟩ := Drives.frames_fail
        (s := (s.sentFrames (initFrames s.cfg s.isPartial) .cmd).markInitialized) op
        (k + (framesTrace (initFrames s.cfg s.isPartial)).length) todo hne (m := s.isPartial) (i := true) ⟨hmode.1, rfl⟩
        (by rw [List.flatten_append, List.length_append] at hj; omega) (failsAt_right h hc .cmd)
      exact ⟨_, t, by omega, (hinit.trans hsent).trans ht, hfailed⟩

/-! ### CLEAR's frames that fail -/

/-- CLEAR's blank bitmap, or UPDATE after it, with a byte that fails, the block initialised (R126). -/
theorem Drives.blankAndUpdate_fails {s : State} {j : Nat} {e : TransportErr} {m : Bool} (op : Instr) (k : Nat)
    (todo : List Task) (hmode : s.inMode m true) (hj : j < ([ramFrame blankBitmap] ++ updateFrames).flatten.length)
    (h : s.failsAt ([ramFrame blankBitmap] ++ updateFrames) j e) :
    ∃ n t, n ≤ 21 ∧ Drives n (s.popTo op k (.frame (ramFrame blankBitmap) :: updateTasks ++ todo)) t
      ∧ FailedWith e t (s.trace ++ cutAt e j (framesTrace ([ramFrame blankBitmap] ++ updateFrames))) m true := by
  rw [cutAt_frames]
  by_cases hc : j < [ramFrame blankBitmap].flatten.length
  · rw [if_pos hc]
    obtain ⟨t, ht, hfailed⟩ := Drives.frames_fail op k (updateTasks ++ todo)
      (by simp [ramFrame, frameBytes, encode]) hmode hc (failsAt_left h)
    exact ⟨_, t, by simp, ht, hfailed⟩
  · rw [if_neg hc, ← List.append_assoc]
    have hblank := Drives.ramWrite s op k (updateTasks ++ todo) blankBitmap (by simp [blankBitmap]) (readyFor_of_failsAt h hc)
    obtain ⟨n, t, hn, ht, hfailed⟩ := Drives.ensureInit_fails (s := s.sentFrames [ramFrame blankBitmap] .data) (i := true) op
      (k + (framesTrace [ramFrame blankBitmap]).length) todo updateFrames_ne_nil hmode
      (by rw [List.flatten_append, List.length_append] at hj; exact Nat.sub_lt_left_of_lt_add (by omega) hj)
      (failsAt_right h hc .data)
    exact ⟨n + 1, t, Nat.add_le_add_right hn 1, hblank.trans ht, hfailed⟩

/-- CLEAR's lines between the mode switches with a byte that fails: the block is initialised if it was, or if the bytes of
INIT have gone out (R126, R140). -/
theorem Drives.initBlankAndUpdate_fails {s : State} {j : Nat} {e : TransportErr} {i : Bool} (op : Instr) (k : Nat)
    (todo : List Task) (hmode : s.inMode false i)
    (hj : j < (initFrames s.cfg false ++ ([ramFrame blankBitmap] ++ updateFrames)).flatten.length)
    (h : s.failsAt (initFrames s.cfg false ++ ([ramFrame blankBitmap] ++ updateFrames)) j e) :
    ∃ n t, n ≤ 37 ∧ Drives n (s.popTo op k (.init :: .frame (ramFrame blankBitmap) :: updateTasks ++ todo)) t
      ∧ FailedWith e t
          (s.trace ++ cutAt e j (framesTrace (initFrames s.cfg false ++ ([ramFrame blankBitmap] ++ updateFrames)))) false
          (i || decide ((initFrames s.cfg false).flatten.length ≤ j)) := by
  rw [cutAt_frames]
  by_cases hc : j < (initFrames s.cfg false).flatten.length
  · rw [if_pos hc, decide_eq_false (by omega), Bool.or_false]
    obtain ⟨n, t, hn, ht, hfailed⟩ := Drives.init_fails op k (.frame (ramFrame blankBitmap) :: updateTasks ++ todo) hmode hc
      (failsAt_left h)
    exact ⟨n, t, by omega, ht, hfailed⟩
  · rw [if_neg hc, decide_eq_true (by omega), Bool.or_true, ← List.append_assoc]
    have hfull := s.isPartial_of false hmode.1
    have hinit := Drives.init s op k (.frame (ramFrame blankBitmap) :: updateTasks ++ todo)
      (hfull ▸ readyFor_of_failsAt h hc)
    rw [hfull] at hinit
    obtain ⟨n, t, hn, ht, hfailed⟩ := Drives.blankAndUpdate_fails
      (s := (s.sentFrames (initFrames s.cfg false) .cmd).markInitialized) op
      (k + (framesTrace (initFrames s.cfg false)).length) todo (m := false) ⟨hmode.1, rfl⟩
      (by rw [List.flatten_append, List.length_append] at hj; omega) (failsAt_right h hc .cmd)
    exact ⟨_, t, by omega, hinit.trans ht, hfailed⟩

/-! ### Operations that fail -/

/-- An accepted operation that fails is where its lines stop. -/
theorem operate_fails {n : Nat} {s t : State} {op : Instr} {ts : List Task} (h : s.accepts)
    (hrun : Drives n (s.started.popTo op 0 ts) t) (ht : t.seq = .idle) (hn : n ≤ driveFuel) : s.operate op ts = t := by
  obtain ⟨m, hm⟩ : ∃ m, driveFuel = m + n := ⟨driveFuel - n, by omega⟩
  rw [operate_accepted s op ts h, start_eq, hm, hrun, drive_idle m t ht]

section
variable {s : State} {m i : Bool} {j : Nat} {e : TransportErr}

theorem exec_update_fails (haccepts : s.accepts) (hmode : s.inMode m i)
    (hj : j < (ensureFrames s.cfg m i ++ updateFrames).flatten.length)
    (h : s.failsAt (ensureFrames s.cfg m i ++ updateFrames) j e) :
    ∃ t, exec .update s = .next t
      ∧ FailedWith e t (s.trace ++ cutAt e j (framesTrace (ensureFrames s.cfg m i ++ updateFrames))) m
          (i || decide ((initFrames s.cfg m).flatten.length ≤ j)) := by
  obtain ⟨n, t, hn, hrun, hfailed⟩ := Drives.ensureInit_fails (s := s.started) .update 0 [] updateFrames_ne_nil hmode hj h
  rw [List.append_nil] at hrun
  exact ⟨t, congrArg Host.Outcome.next (operate_fails haccepts hrun hfailed.seq (hn.trans (by decide))), hfailed⟩

theorem exec_setDisplay_fails {fb : Nat} {b : FrameBuffer} (haccepts : s.accepts) (hmode : s.inMode m i)
    (hb : s.bufs[fb]? = some b) (hj : j < (ensureFrames s.cfg m i ++ [ramFrame (memBytes b.mem)]).flatten.length)
    (h : s.failsAt (ensureFrames s.cfg m i ++ [ramFrame (memBytes b.mem)]) j e) :
    ∃ t, exec (.setDisplay fb) s = .next t
      ∧ FailedWith e t (s.trace ++ cutAt e j (framesTrace (ensureFrames s.cfg m i ++ [ramFrame (memBytes b.mem)]))) m
          (i || decide ((initFrames s.cfg m).flatten.length ≤ j)) := by
  obtain ⟨n, t, hn, hrun, hfailed⟩ := Drives.ensureInit_fails (s := s.started) (.setDisplay fb) 0 []
    (gs := [ramFrame (memBytes b.mem)]) (by simp [ramFrame, frameBytes, encode]) hmode hj h
  rw [List.append_nil] at hrun
  simp only [exec, execSetDisplay, hb]
  exact ⟨t, congrArg Host.Outcome.next
    (operate_fails (ts := setDisplayTasks b) haccepts hrun hfailed.seq (hn.trans (by simp [driveFuel]))), hfailed⟩

theorem exec_powerOff_fails (haccepts : s.accepts) (hmode : s.inMode m i) (hj : j < powerFrames.flatten.length)
    (h : s.failsAt powerFrames j e) :
    ∃ t, exec .powerOff s = .next t ∧ FailedWith e t (s.trace ++ cutAt e j (framesTrace powerFrames)) m i := by
  obtain ⟨t, hrun, hfailed⟩ :=
    Drives.frames_fail (s := s.started) .powerOff 0 [.markUninitialized] powerFrames_ne_nil hmode hj h
  exact ⟨t, congrArg Host.Outcome.next
    (operate_fails (ts := powerOffTasks) haccepts hrun hfailed.seq (by decide)), hfailed⟩

/-- The mode is not restored: CLEAR ends where its frames fail (R140, D8). -/
theorem exec_clear_fails (haccepts : s.accepts) (hmode : s.inMode m i)
    (hj : j < (initFrames s.cfg false ++ [ramFrame blankBitmap] ++ updateFrames).flatten.length)
    (h : s.failsAt (initFrames s.cfg false ++ [ramFrame blankBitmap] ++ updateFrames) j e) :
    ∃ t, exec .clear s = .next t
      ∧ FailedWith e t (s.trace ++ cutAt e j (framesTrace (initFrames s.cfg false ++ [ramFrame blankBitmap] ++ updateFrames)))
          false ((!m && i) || decide ((initFrames s.cfg false).flatten.length ≤ j)) := by
  rw [List.append_assoc] at hj h ⊢
  have hsave := Drives.saveAndSetFull (s := s.started) hmode .clear 0
    (.init :: .frame (ramFrame blankBitmap) :: updateTasks ++ [.restoreMode])
  obtain ⟨n, t, hn, hrun, hfailed⟩ := Drives.initBlankAndUpdate_fails
    (s := { s.started with saved := .holds m, partialMode := .holds false, initialized := .holds (!m && i) }) .clear 0
    [.restoreMode] ⟨rfl, rfl⟩ hj h
  exact ⟨t, congrArg Host.Outcome.next
    (operate_fails (ts := clearTasks) haccepts (hsave.trans hrun) hfailed.seq (by simp only [driveFuel]; omega)), hfailed⟩

end

/-! ### The obligations -/

/-- Settles O32: the flags at the failing byte, for each operation; INIT has 63 bytes. -/
theorem flagsAfterAFailure : Obligations.FlagsAfterAFailure := by
  intro s m i k e haccepts hmode hvalid
  have hbytes (p : Bool) : (initFrames s.cfg p).flatten.length = 63 := initFrames_bytes hvalid p
  refine ⟨fun hk h => ?_, fun fb b hb hk h => ?_, fun hk h => ?_, fun hk h => ?_⟩
  · obtain ⟨t, ht, hfailed⟩ := exec_update_fails haccepts hmode hk h
    exact ⟨t, ht, hfailed.seq, hfailed.response, hbytes m ▸ hfailed.mode⟩
  · obtain ⟨t, ht, hfailed⟩ := exec_setDisplay_fails haccepts hmode hb hk h
    exact ⟨t, ht, hfailed.seq, hfailed.response, hbytes m ▸ hfailed.mode⟩
  · obtain ⟨t, ht, hfailed⟩ := exec_powerOff_fails haccepts hmode hk h
    exact ⟨t, ht, hfailed.seq, hfailed.response, hfailed.mode⟩
  · obtain ⟨t, ht, hfailed⟩ := exec_clear_fails haccepts hmode hk h
    exact ⟨t, ht, hfailed.seq, hfailed.response, hbytes false ▸ hfailed.mode⟩

/-- An operation of the ControllerDriver is none of the other instructions. -/
theorem class_of_controllerOp {op : Instr} (h : isControllerOp op = true) :
    isCommand op = false ∧ isFramebufferOp op = false := by
  simpa [isControllerOp] using h

/-- What else is known where an operation other than NEW and RESET ends with a failed byte: the events before it are those
of its frames, the latches follow them, and nothing outside the driver is touched (R141). -/
theorem FailedWith.precise {op : Instr} {s t : State} {fs : List (List Byte)} {k : Nat} {e : TransportErr} {m i : Bool}
    (haccepts : s.accepts) (hctl : isControllerOp op = true) (hnew : op ≠ .new) (hreset : op ≠ .reset)
    (hk : k < fs.flatten.length) (hexec : exec op s = .next t)
    (h : FailedWith e t (s.trace ++ cutAt e k (framesTrace fs)) m i) :
    ∃ t b, exec op s = .next t ∧ t.trace = s.trace ++ cutAt e k (framesTrace fs) ∧ fs.flatten[k]? = some b
      ∧ transport t.trace = transport s.trace ++ (fs.flatten.take k).map .tx ++ [.txFailed b e]
      ∧ t.cs = .holds .act ∧ t.dc = lastDc s.dc (cutAt e k (framesTrace fs)) ∧ t.rst = s.rst
      ∧ t.bufs = s.bufs ∧ t.constructed = true ∧ t.saved = .unwritten := by
  obtain ⟨hcmd, hfb⟩ := class_of_controllerOp hctl
  obtain ⟨b, hb, htransport⟩ := transport_cutAt (e := e) (framesTrace_noFailure fs) (bytesSent_framesTrace fs ▸ hk)
  rw [bytesSent_framesTrace] at hb htransport
  obtain ⟨es, htrace, hcs, hdc, -⟩ := Follows.exec hcmd hexec
  obtain rfl : cutAt e k (framesTrace fs) = es := List.append_cancel_left (h.trace.symm.trans htrace)
  obtain ⟨hrst, -⟩ := onlyNewAndResetDriveTheResetLine.1 op s t hnew hreset hexec
  obtain ⟨hbufs, -, -, hconstructed⟩ := controllerOperationsKeepTheFramebuffers.1 op s t hfb hexec
  refine ⟨t, b, hexec, h.trace, hb, ?_, hcs.trans (lastCs_cutAt_frames s.cs hk), hdc, hrst, hbufs,
    (hconstructed hnew).trans haccepts.2, h.saved⟩
  rw [h.trace, transport_append, htransport, List.append_assoc]

/-- Settles O33: the trace of each operation is cut at the failing byte, and the rest follows from the trace. -/
theorem failureIsPrecise : Obligations.FailureIsPrecise := by
  intro s m i k e haccepts hmode
  refine ⟨fun hk h => ?_, fun fb b hb hk h => ?_, fun hk h => ?_, fun hk h => ?_⟩
  · obtain ⟨t, ht, hfailed⟩ := exec_update_fails haccepts hmode hk h
    exact hfailed.precise haccepts rfl nofun nofun hk ht
  · obtain ⟨t, ht, hfailed⟩ := exec_setDisplay_fails haccepts hmode hb hk h
    exact hfailed.precise haccepts rfl nofun nofun hk ht
  · obtain ⟨t, ht, hfailed⟩ := exec_powerOff_fails haccepts hmode hk h
    exact hfailed.precise haccepts rfl nofun nofun hk ht
  · obtain ⟨t, ht, hfailed⟩ := exec_clear_fails haccepts hmode hk h
    exact hfailed.precise haccepts rfl nofun nofun hk ht

end Sys2Proof.Machine
end

