-- ==== Sys2Proof/Proofs/WaitsOfAnOperation.lean ====
section
/-! PROOFS. An operation with busy answers at its waits beside the same operation with the controller ready at once (R85,
R93). -/

namespace Sys2Proof.Machine

/-! ### What the controller's answers do not matter to -/

/-- `s` with another trace and other answers to its polls. -/
abbrev State.seen (s : State) (tr : List Event) (answers : Answers Bool) (n : Nat) : State :=
  s.observed s.seq tr answers n

/-- A run without a poll does not wait, it makes no busy event, and neither the trace before it nor the answers to polls
matter to what it does (R82). -/
theorem runMicros_seen {ms : List Micro} (hms : ∀ m ∈ ms, m.event.isPoll = false) (s : State) (tr : List Event)
    (answers : Answers Bool) (n : Nat) :
    ∃ t es, runMicros ms s = .on t ∧ t.trace = s.trace ++ es
      ∧ (∀ e ∈ es, e.isPoll = false) ∧ t.busyIn = s.busyIn
      ∧ runMicros ms (s.seen tr answers n) = .on (t.seen (tr ++ es) answers n) := by
  induction ms generalizing s tr with
  | nil => exact ⟨s, [], rfl, by simp, by simp, rfl, by simp [runMicros]⟩
  | cons m ms ih =>
    have hm := hms m (List.mem_cons_self ..)
    -- one micro-operation that made the event `e`, then the others
    have go (u : State) (e : Event) (he : e.isPoll = false) (htrace : u.trace = s.trace ++ [e])
        (hbusy : u.busyIn = s.busyIn) :
        ∃ t es, runMicros ms u = .on t ∧ t.trace = s.trace ++ es
          ∧ (∀ e ∈ es, e.isPoll = false) ∧ t.busyIn = s.busyIn
          ∧ runMicros ms (u.seen (tr ++ [e]) answers n) = .on (t.seen (tr ++ es) answers n) := by
      obtain ⟨t, es, ht, htr, hes, hb, hseen⟩ := ih (fun m hm => hms m (List.mem_cons_of_mem _ hm)) u (tr ++ [e])
      refine ⟨t, e :: es, ht, by simp [htr, htrace], ?_, hb.trans hbusy, by simpa using hseen⟩
      simpa [he] using hes
    cases m with
    | cs l => exact go (s.pinCs l) (.cs l) rfl rfl rfl
    | dc l => exact go (s.pinDc l) (.dc l) rfl rfl rfl
    | rst l => exact go (s.pinRst l) (.rst l) rfl rfl rfl
    | delay j => exact go (s.delayMs j) (.delay j) rfl rfl rfl
    | poll j => cases hm
    | tx b =>
      have hanswer : (s.seen tr answers n).busAnswer 0 = s.busAnswer 0 := rfl
      simp only [runMicros, hanswer]
      cases s.busAnswer 0 with
      | none => exact go (s.afterTx b none) (.tx b) rfl rfl rfl
      | some e => exact ⟨_, [.txFailed b e], rfl, rfl, by simp [Event.isPoll], rfl, rfl⟩

/-- After its wait a frame polls no more. -/
theorem frameRest_noPoll (op : Byte) (payload : List Byte) : ∀ m ∈ frameRest op payload, m.event.isPoll = false := by
  by_cases h : payload = []
  · simp [frameRest, h, Micro.event, Event.isPoll]
  · simp [frameRest, h, Micro.event, Event.isPoll, or_imp, forall_and]

/-! ### The two runs -/

/-- A line of micro-operations that are no frame's polls nothing. -/
def Task.pollFree (x : Task) : Prop :=
  match x with
  | .micros ms => ∀ m ∈ ms, m.event.isPoll = false
  | _ => True

/-- How many lines a line comes to (R132). -/
def Task.weight (x : Task) : Nat :=
  match x with
  | .lutFrame => 2
  | .init => 16
  | .ensureInit => 17
  | _ => 1

/-- How many lines these lines come to. -/
def weight (ts : List Task) : Nat := (ts.map Task.weight).sum

/-- Micro-operations stand for no other lines. -/
theorem expand_of_isMicros {x : Task} (h : x.isMicros = true) (s : State) : x.expand s = [] := by
  cases x <;> simp [Task.isMicros] at h <;> rfl

/-- The lines that a line is replaced by come to fewer than it does. -/
theorem weight_expand (x : Task) (s : State) : weight (x.expand s) < x.weight := by
  cases x
  case init => simp [Task.expand, initTasks, weight, initConfigFrames, powerFrames, Task.weight]
  case ensureInit => by_cases h : s.isInitialized <;> simp [Task.expand, h, weight, Task.weight]
  all_goals simp [Task.expand, weight, Task.weight]

/-- They do not wait but for frames. -/
theorem pollFree_expand (x : Task) (s : State) : ∀ y ∈ x.expand s, y.pollFree := by
  cases x
  case init => simp [Task.expand, initTasks, Task.pollFree, or_imp, forall_and]
  case ensureInit => by_cases h : s.isInitialized <;> simp [Task.expand, h, Task.pollFree]
  all_goals simp [Task.expand, Task.pollFree]

/-- What is left to do is frames of the fifteen commands and lines that do not wait, and comes to fewer than `n` lines. -/
structure State.Within (b : State) (n : Nat) : Prop where
  known : b.Known
  pollFree : ∀ x ∈ b.seq.todo, x.pollFree
  ends : b.seq = .idle ∨ weight b.seq.todo < n

/-- A line that does not wait leaves fewer lines to do. -/
theorem State.Within.nextTask {b b' : State} {n : Nat} (h : b.Within (n + 1)) (hb : Machine.nextTask b = .on b') :
    b'.Within n := by
  obtain ⟨hknown, hfree, hends⟩ := h
  have hknown' : b'.Known := by simpa only [hb, Progress.state] using hknown.nextTask
  have hidle (h : b'.seq = .idle) : b'.Within n := ⟨hknown', by simp [h, Seq.todo], .inl h⟩
  match hs : b.seq with
  | .idle => rw [nextTask_of_idle hs] at hb; cases hb; exact hidle hs
  | .run op k [] => rw [nextTask_of_end hs] at hb; cases hb; exact hidle rfl
  | .run op k (x :: todo) =>
    -- the line's place is taken by lines that come to fewer
    have hreplaced {us : List Task} (hus : us = x.expand b) (hseq : ∃ k', b'.seq = .run op k' (us ++ todo)) :
        b'.Within n := by
      obtain ⟨k', hseq⟩ := hseq
      refine ⟨hknown', fun y hy => ?_, .inr ?_⟩
      · rcases List.mem_append.mp (by simpa [hseq, Seq.todo] using hy : y ∈ us ++ todo) with hy | hy
        · exact pollFree_expand x b y (hus ▸ hy)
        · exact hfree y (by simp [hs, Seq.todo, hy])
      · have hless := weight_expand x b
        simp only [hs, Seq.todo, reduceCtorEq, false_or] at hends
        rw [hseq, hus]
        simp only [Seq.todo, weight, List.map_append, List.map_cons, List.sum_append, List.sum_cons] at *
        omega
    by_cases hx : x.isMicros = true
    · rw [nextTask_of_micros hs hx] at hb
      rcases runMicros_on rfl hb with ⟨-, hseq⟩ | h
      · exact hreplaced (us := []) (expand_of_isMicros hx b).symm hseq
      · exact hidle h
    · rw [nextTask_of_line hs (by simpa using hx)] at hb
      cases hb
      exact hreplaced rfl ⟨k, rfl⟩

/-- `b` comes from `s` with a controller ready at once; `a` is `b` after events `es` with busy answers among them. -/
structure Mirrors (s a b : State) : Prop where
  same : ∃ es, a = b.seen (s.trace ++ es) (s.busyIn.drop (es.countP Event.isPoll)) (s.polls + es.countP Event.isPoll)
    ∧ b.trace = s.trace ++ es.filter (· ≠ .busy true)
  ready : b.busyIn = { first := [], thereafter := some false }
  config : b.cfg = s.cfg

/-- More events `es`, the busy answers among them in `a` only. -/
theorem Mirrors.more {s a b a' b' : State} (h : Mirrors s a b) (es : List Event)
    (ha : a' = b'.seen (a.trace ++ es) (a.busyIn.drop (es.countP Event.isPoll)) (a.polls + es.countP Event.isPoll))
    (hb : b'.trace = b.trace ++ es.filter (· ≠ .busy true)) (hready : b'.busyIn = b.busyIn) (hcfg : b'.cfg = b.cfg) :
    Mirrors s a' b' := by
  obtain ⟨⟨fs, hfs, htrace⟩, hready', hcfg'⟩ := h
  refine ⟨⟨fs ++ es, ?_, ?_⟩, hready.trans hready', hcfg.trans hcfg'⟩
  · rw [ha, hfs]
    simp [State.observed, Answers.drop, Nat.add_assoc]
  · rw [hb, htrace]
    simp

/-- Events without a poll hold no busy answer. -/
theorem noPoll_events {es : List Event} (h : ∀ e ∈ es, e.isPoll = false) :
    es.countP Event.isPoll = 0 ∧ es.filter (· ≠ .busy true) = es := by
  refine ⟨by simpa [List.countP_eq_zero] using h, List.filter_eq_self.mpr fun e he => ?_⟩
  have hpoll := h e he
  cases e with
  | busy b => cases hpoll
  | _ => rfl

section
variable {s a b : State}

theorem Mirrors.seq (h : Mirrors s a b) : a.seq = b.seq := by
  obtain ⟨⟨es, rfl, -⟩, -, -⟩ := h; rfl

theorem Mirrors.known (h : Mirrors s a b) (hb : b.Known) : a.Known := by
  obtain ⟨⟨es, rfl, -⟩, -, -⟩ := h
  exact ⟨hb.config, hb.frames⟩

/-- `a` is `b` but for what it has seen. -/
theorem Mirrors.eq_seen (h : Mirrors s a b) : a = b.seen a.trace a.busyIn a.polls := by
  obtain ⟨⟨es, rfl, -⟩, -, -⟩ := h; rfl

/-- The controller is ready at once in `b`. -/
theorem Mirrors.ready_at_once (h : Mirrors s a b) (i : Nat) : b.busyAnswer i = false := by
  simp [State.busyAnswer, h.ready, Answers.answer]

/-- The next wait of `a` ends, its last busy answer within `BUSY_BOUND`. -/
theorem Mirrors.wait_ends (h : Mirrors s a b) (hs : s.endsEveryWait) :
    ∃ p, (∀ i < p, a.busyAnswer i = true) ∧ a.busyAnswer p = false ∧ boundReached a.cfg p = false := by
  obtain ⟨⟨es, rfl, -⟩, -, hcfg⟩ := h
  have hshift (i : Nat) := busyAnswer_shift (s := s) (n := es.countP Event.isPoll)
    (t := b.seen (s.trace ++ es) (s.busyIn.drop (es.countP Event.isPoll)) (s.polls + es.countP Event.isPoll)) rfl rfl i
  obtain ⟨p, hp, hbound⟩ := hs (es.countP Event.isPoll)
  have hex : ∃ p, s.busyAnswer (es.countP Event.isPoll + p) = false := ⟨p, hp⟩
  refine ⟨Nat.find hex, fun i hi => ?_, ?_, ?_⟩
  · rw [hshift]
    simpa using Nat.find_min hex hi
  · rw [hshift]
    exact Nat.find_spec hex
  · have hcfg' : boundReached b.cfg p = false := hcfg ▸ hbound
    exact boundReached_mono (Nat.find_min' hex hp) hcfg'

end

/-! ### One line of both runs -/

/-- A wait that is not over stops `exec`. -/
theorem nextTask_waiting {s : State} {op : Instr} {k : Nat} {ms : List Micro} {todo : List Task}
    (hs : s.seq = .run op k (.micros (.poll 0 :: ms) :: todo)) (hbusy : s.busyAnswer 0 = true)
    (hbound : boundReached s.cfg 1 = false) : ∃ t, nextTask s = .waiting t := by
  have hbusy' : (s.popTo op k todo).busyAnswer 0 = true := hbusy
  rw [nextTask_of_micros hs rfl, Task.toMicros, runMicros, if_pos hbusy', State.popTo_cfg, hbound]
  exact ⟨_, rfl⟩

/-- The next line of `b` does not wait; that of `a` comes to the same after the steps of its wait, if it waits. -/
def LedOn (s a b : State) : Prop :=
  ∃ b' m a', nextTask b = .on b' ∧ steps m (nextTask a).state = .next a' ∧ Mirrors s a' b'
    ∧ (m = 0 ∨ ∃ t, nextTask a = .waiting t)

section
variable {s a b : State}

/-- Micro-operations without a poll are the same in both runs. -/
theorem Mirrors.runMicros {ms : List Micro} (h : Mirrors s a b) (hms : ∀ m ∈ ms, m.event.isPoll = false) :
    ∃ a' b', Machine.runMicros ms a = .on a' ∧ Machine.runMicros ms b = .on b' ∧ Mirrors s a' b' := by
  obtain ⟨b', es, hb', htrace, hes, hbusy, ha'⟩ := runMicros_seen hms b a.trace a.busyIn a.polls
  obtain ⟨hcount, hfilter⟩ := noPoll_events hes
  rw [← h.eq_seen] at ha'
  have hcfg : b'.cfg = b.cfg := by simpa only [hb', Progress.state] using (SameHost.kept.runMicros ms b).cfg
  exact ⟨_, b', ha', hb', h.more es (by simp [hcount, Answers.drop]) (by rw [htrace, hfilter]) hbusy hcfg⟩

/-- Another place in the two runs. -/
theorem Mirrors.popTo (h : Mirrors s a b) (op : Instr) (k : Nat) (todo : List Task) :
    Mirrors s (a.popTo op k todo) (b.popTo op k todo) := by
  obtain ⟨⟨es, rfl, htrace⟩, hready, hcfg⟩ := h
  exact ⟨⟨es, rfl, htrace⟩, hready, hcfg⟩

/-- A line that writes flags or stands for other lines is the same in both runs. -/
theorem Mirrors.line (h : Mirrors s a b) (x : Task) : Mirrors s (x.writes a) (x.writes b) := by
  obtain ⟨⟨es, rfl, htrace⟩, hready, hcfg⟩ := h
  refine ⟨⟨es, ?_, by rw [writes_trace, htrace]⟩, by rw [writes_busyIn, hready], by rw [writes_cfg, hcfg]⟩
  rw [State.seen, writes_observed, State.seen, writes_seq]

theorem Mirrors.expand_eq (h : Mirrors s a b) (x : Task) : x.expand a = x.expand b := by
  obtain ⟨⟨es, rfl, -⟩, -, -⟩ := h; rfl

/-- The end of the operation, in both runs. -/
theorem Mirrors.finish (h : Mirrors s a b) : Mirrors s a.finish b.finish := by
  obtain ⟨⟨es, rfl, htrace⟩, hready, hcfg⟩ := h
  exact ⟨⟨es, rfl, htrace⟩, hready, hcfg⟩

/-- The chip-select of a frame, in both runs. -/
theorem Mirrors.pinCs (h : Mirrors s a b) (l : CsLevel) : Mirrors s (a.pinCs l) (b.pinCs l) := by
  refine h.more [.cs l] ?_ rfl rfl rfl
  conv_lhs => rw [h.eq_seen]
  simp [State.pinCs, State.observed, Event.isPoll, Answers.drop]

@[simp] theorem State.waited_zero (s : State) : s.waited 0 = s := by
  simp [State.waited, State.answered, Answers.drop]

/-- A wait of `p` busy answers in `a`, of none in `b`. -/
theorem Mirrors.polled (h : Mirrors s a b) (p : Nat) : Mirrors s (a.polled p) (b.polled 0) := by
  have hcount : (List.replicate p (Event.busy true) ++ [Event.busy false]).countP Event.isPoll = p + 1 := by
    simp [List.countP_replicate, Event.isPoll]
  refine h.more (List.replicate p (.busy true) ++ [.busy false]) ?_ ?_ ?_ rfl
  · rw [hcount]
    conv_lhs => rw [h.eq_seen]
    simp [State.polled, State.waited, State.answered, State.afterPoll, State.tick, State.observed, Nat.add_assoc]
  · simp [State.polled, State.waited, State.answered, State.afterPoll, State.tick]
  · simp [State.polled, State.waited, State.answered, State.afterPoll, State.tick, h.ready, Answers.drop]

/-- A frame waits in `a` and goes out in `b`. -/
theorem Mirrors.nextTask_frame {o : Instr} {k : Nat} {op : Byte} {payload : List Byte} {todo : List Task}
    (h : Mirrors s a b) (hs : s.endsEveryWait) (hseq : b.seq = .run o k (.frame (op :: payload) :: todo)) : LedOn s a b := by
  rw [LedOn, nextTask_atPoll hseq, nextTask_atPoll (h.seq.trans hseq)]
  have hpoll : Mirrors s (a.atPoll o k op payload todo) (b.atPoll o k op payload todo) := (h.pinCs .act).popTo ..
  obtain ⟨p, hbusy, hready, hbound⟩ := hpoll.wait_ends hs
  obtain ⟨a', b', ha', hb', h'⟩ := ((hpoll.popTo o (k + 1) todo).polled p).runMicros (frameRest_noPoll op payload)
  refine ⟨b', p, a', ?_, ?_, h', ?_⟩
  · rw [nextTask_of_micros rfl rfl, Task.toMicros, runMicros_ready ((hpoll.popTo o (k + 1) todo).ready_at_once 0), ← hb',
      State.polled, State.waited_zero]
  · have hwait := steps_through_wait rfl hbusy hready hbound
    rw [steps_succ (step_micros rfl), ha'] at hwait
    rw [nextTask_of_micros rfl rfl]
    exact hwait
  · cases p with
    | zero => exact .inl rfl
    | succ p => exact .inr (nextTask_waiting rfl (hbusy 0 (by omega)) (boundReached_mono (by omega) hbound))

/-- Every line leads both runs on. -/
theorem Mirrors.nextTask {n : Nat} (h : Mirrors s a b) (hs : s.endsEveryWait) (hb : b.Within (n + 1))
    (hrun : b.seq ≠ .idle) : LedOn s a b := by
  unfold LedOn
  match hseq : b.seq with
  | .idle => exact absurd hseq hrun
  | .run op k [] =>
    rw [nextTask_of_end hseq, nextTask_of_end (h.seq.trans hseq)]
    exact ⟨_, 0, _, rfl, rfl, h.finish, .inl rfl⟩
  | .run op k (x :: todo) =>
    have hseq' := h.seq.trans hseq
    by_cases hx : x.isMicros = true
    · cases x <;> simp [Task.isMicros] at hx
      case micros ms =>
        rw [nextTask_of_micros hseq rfl, nextTask_of_micros hseq' rfl]
        obtain ⟨a', b', ha', hb', h'⟩ := (h.popTo op k todo).runMicros
          (hb.pollFree (.micros ms) (by simp [hseq, Seq.todo]))
        exact ⟨b', 0, a', hb', by rw [Task.toMicros, ha']; rfl, h', .inl rfl⟩
      case frame bytes =>
        cases bytes with
        | nil => exact absurd (hb.known.frames (.frame []) (by simp [hseq, Seq.todo])) (by decide)
        | cons op payload => exact h.nextTask_frame hs hseq
    · rw [Bool.not_eq_true] at hx
      rw [nextTask_of_line hseq hx, nextTask_of_line hseq' hx, h.expand_eq x]
      exact ⟨_, 0, _, rfl, rfl, (h.line x).popTo op k _, .inl rfl⟩

/-- The lines of `b` in one go, and those of `a` as far as `exec` comes and in the steps after it. -/
theorem Mirrors.drive {n : Nat} (h : Mirrors s a b) (hs : s.endsEveryWait) (hb : b.Within n) :
    ∃ m a', steps m (drive n a) = .next a' ∧ Mirrors s a' (drive n b) ∧ (drive n b).seq = .idle := by
  induction n generalizing a b with
  | zero => exact ⟨0, a, rfl, h, hb.ends.resolve_right (Nat.not_lt_zero _)⟩
  | succ n ih =>
    by_cases hidle : b.seq = .idle
    · rw [drive_idle _ b hidle, drive_idle _ a (h.seq.trans hidle)]
      exact ⟨0, a, rfl, h, hidle⟩
    · obtain ⟨b', m, a', hnext, hsteps, h', hm⟩ := h.nextTask hs hb hidle
      have hb' := hb.nextTask hnext
      obtain ⟨m', a'', hsteps', h'', hend⟩ := ih h' hb'
      have hdrive : Machine.drive (n + 1) b = Machine.drive n b' := by rw [Machine.drive, hnext]
      rw [hdrive, Machine.drive]
      cases ht : Machine.nextTask a with
      | on t =>
        obtain rfl : m = 0 := hm.resolve_right (by simp [ht])
        obtain rfl : t = a' := by simpa [ht, steps, Progress.state] using hsteps
        exact ⟨m', a'', hsteps', h'', hend⟩
      | waiting t =>
        rw [ht, Progress.state] at hsteps
        obtain ⟨j, -, hj⟩ := steps_drive n (h'.known hb'.known)
        have hrun : steps (m + (j + m')) t = .next a'' := by rw [steps_add _ hsteps, steps_add _ hj, hsteps']
        exact ⟨m + (j + m'), a'', hrun, h'', hend⟩

end

/-! ### The obligation -/

theorem pollFree_linesOf (i : Instr) (s : State) : ∀ x ∈ linesOf i s, x.pollFree := by
  cases i
  case setDisplay fb => cases h : s.bufs[fb]? <;> simp [linesOf, h, setDisplayTasks, Task.pollFree]
  case new => simp [linesOf, newTasks, Task.pollFree, resetPulse, Micro.event, Event.isPoll]
  case reset => simp [linesOf, resetTasks, Task.pollFree, resetPulse, Micro.event, Event.isPoll]
  all_goals simp [linesOf, clearTasks, updateTasks, powerOffTasks, Task.pollFree, or_imp, forall_and]

/-- CLEAR comes to 40 lines, every other operation to fewer. -/
theorem weight_linesOf (i : Instr) (s : State) : weight (linesOf i s) < driveFuel := by
  cases i
  case setDisplay fb => cases h : s.bufs[fb]? <;> simp [linesOf, h, setDisplayTasks, weight, Task.weight, driveFuel]
  all_goals simp [linesOf, newTasks, resetTasks, clearTasks, updateTasks, updateFrames, powerOffTasks, powerFrames, weight,
    Task.weight, driveFuel]

/-- What an operation has to do at its start. -/
theorem start_within {s : State} (h : s.cfg.valid = true) (i : Instr) : (s.start i (linesOf i s)).Within driveFuel :=
  ⟨.start h i, pollFree_linesOf i s, .inr (weight_linesOf i s)⟩

/-- An operation starts as it starts with a controller ready at once. -/
theorem Mirrors.start (s : State) (i : Instr) :
    Mirrors s (s.start i (linesOf i s)) (s.readyAtOnce.start i (linesOf i s.readyAtOnce)) where
  same := by
    refine ⟨[], ?_, (List.append_nil s.trace).symm⟩
    simp [State.observed, State.start, State.readyAtOnce, Answers.drop, linesOf]
  ready := rfl
  config := rfl

/-- An operation that is not accepted, or that names no FrameBuffer there is, is refused (R62, R133). -/
theorem exec_notAccepted {i : Instr} {s : State} (hi : isControllerOp i = true)
    (hacc : ¬ ((i = .new ∨ s.constructed = true) ∧ ∀ fb, i = .setDisplay fb → s.bufs[fb]?.isSome = true)) :
    exec i s = .next s := by
  refine refusedOperationChangesNothing i s (class_of_controllerOp hi).1 (.inr ?_)
  by_cases hcon : i = .new ∨ s.constructed = true
  · have hno : ∃ fb, i = .setDisplay fb ∧ s.bufs[fb]? = none := by simpa [hcon] using hacc
    obtain ⟨fb, hfb, hnone⟩ := hno
    exact .inr ⟨fb, hnone, .inl hfb⟩
  · rw [not_or, Bool.not_eq_true] at hcon
    exact .inl ⟨hi, hcon⟩

/-- Settles O54: a refused operation changes nothing in either run; an accepted one performs its lines in both. -/
theorem waitingChangesOnlyTheTrace : Obligations.WaitingChangesOnlyTheTrace := by
  intro i s t' hi hvalid hidle hs hexec
  by_cases hacc : (i = .new ∨ s.constructed = true) ∧ ∀ fb, i = .setDisplay fb → s.bufs[fb]?.isSome = true
  · obtain ⟨hcon, hfb⟩ := hacc
    rw [exec_accepted hi (s := s.readyAtOnce) hidle hcon hfb] at hexec
    cases hexec
    obtain ⟨n, a, hsteps, ⟨⟨es, ha, htrace⟩, -, -⟩, hend⟩ :=
      (Mirrors.start s i).drive hs (start_within (s := s.readyAtOnce) hvalid i)
    exact ⟨_, n, es, exec_accepted hi hidle hcon hfb, htrace, hend, by rw [hsteps, ha]; rfl⟩
  · rw [exec_notAccepted (s := s.readyAtOnce) hi hacc] at hexec
    cases hexec
    exact ⟨s, 0, [], exec_notAccepted hi hacc, (List.append_nil s.trace).symm, hidle,
      by simp [steps, State.readyAtOnce, Answers.drop]⟩

end Sys2Proof.Machine
end
